-- ==== Sys2Proof/Word.lean ====
section
/-! DEFINITION. The word and byte types of HBC (spec/00_scope.md R6: `WORD` = 32; spec/20_memory.md R60: BUF is bytes). -/

namespace Sys2Proof

/-- A register, a host access's data, a command word or a symbol word: 32 bits (R6 `WORD`). -/
abbrev Word := BitVec 32

/-- One byte of the bit buffer BUF (R60). -/
abbrev Byte := BitVec 8

end Sys2Proof
end

