-- ==== Sys2Proof/Config.lean ====
section
/-! DEFINITION. What an HBC instance fixes: the valued parameters of spec/00_scope.md R6, the OPEN parameters (R6, R70) as
one record, and the free values that the spec writes `any` (R10; spec/93_implementation_defined.md). -/

namespace Sys2Proof.Config

/-- R6 `MAX_SYM`: the largest symbol the tree codec and the code table accept. -/
abbrev MAX_SYM : Nat := 0xFFFF

/-- R6 `MAX_LEAVES`. -/
abbrev MAX_LEAVES : Nat := 65536

/-- R6 `NODE_CAP` = 2·MAX_LEAVES − 1: the number of entries in NODE. -/
abbrev NODE_CAP : Nat := 131071

/-- R6 `MAX_CODE_LEN`: the longest code, in bits, that a CODE entry holds. -/
abbrev MAX_CODE_LEN : Nat := 32

/-- R6 `SYM_BITS`: the width of a symbol in a tree stream. -/
abbrev SYM_BITS : Nat := 16

/-- R61, R70: the offset of `BUF[0]` in the block's window. -/
abbrev BUF_BASE : Nat := 0x10000

/-- The OPEN parameters of R6 and R70 that a step depends on. A model takes each as an argument (R6): they stand in
`State.params`, no step changes them, and a statement holds for each value that `Params.wf` admits. -/
structure Params where
  /-- `BUF_BYTES` (R6): a multiple of 4 between 4 and 2^24. -/
  bufBytes : Nat
  /-- `HBC_BASE` (R6, R70): the bus address of register offset 0. -/
  hbcBase : Nat
  /-- The size of the window the platform gives the block (R70): at least 0x10000 + `BUF_BYTES`. -/
  windowBytes : Nat
deriving DecidableEq, Repr

/-- The instance of the OPEN parameters that `State.reset` carries: `BUF_BYTES` = 256 as in spec/95_test_vectors.md, the
block at bus address 0, the least window. DESIGN CHOICE (notes/assumptions/2.md); no statement rests on it. -/
def defaultParams : Params := { bufBytes := 256, hbcBase := 0, windowBytes := 0x10000 + 256 }

/-! ### Free values (`any`)
None has a body: nothing can be proved of one. R10: "`any` stands for an unspecified value, which a model takes as a
free draw with no law". -/

/-- `BUF[k]` after the `e`-th power-on reset, until it is written (R46, R230). Free (notes/assumptions/4.md). -/
opaque powerOnByte (e k : Nat) : BitVec 8
/-- `NODE[i].kind` after the `e`-th power-on reset, until it is written (R46). Free. -/
opaque powerOnKind (e i : Nat) : Bool
/-- `NODE[i].sym` after the `e`-th power-on reset, until it is written (R46). Free. -/
opaque powerOnSym (e i : Nat) : BitVec 32
/-- `NODE[i].left` after the `e`-th power-on reset, until it is written (R46). Free. -/
opaque powerOnLeft (e i : Nat) : BitVec 32
/-- `NODE[i].right` after the `e`-th power-on reset, until it is written (R46). Free. -/
opaque powerOnRight (e i : Nat) : BitVec 32

/-- The `d`-th draw of an `any` byte of BUF (R105, R231). Free (notes/assumptions/5.md). -/
opaque anyByte (d : Nat) : BitVec 8
/-- The kind of the `d`-th draw of an `any` entry of NODE (R176, R231). Free. -/
opaque anyKind (d : Nat) : Bool
/-- The symbol of the `d`-th draw of an `any` entry of NODE. Free. -/
opaque anySym (d : Nat) : BitVec 32
/-- The left index of the `d`-th draw of an `any` entry of NODE. Free. -/
opaque anyLeft (d : Nat) : BitVec 32
/-- The right index of the `d`-th draw of an `any` entry of NODE. Free. -/
opaque anyRight (d : Nat) : BitVec 32

end Sys2Proof.Config
end

