-- ==== Sys2Proof/Syntax.lean ====
section
/-! DEFINITION. The command set HBC-1 (spec/30_encoding.md R81) and what reaches the block from outside: the host's bus
accesses (spec/00_scope.md R5) and the events that order them against the sequencer (spec/20_memory.md R72). -/

namespace Sys2Proof

/-- The twelve commands of HBC-1, in the order of the opcode map (R81). A command word has no operand field: operands are
the registers latched at acceptance (R82). -/
inductive Instr where
  /-- 0x00 NOP (R110). -/
  | nop
  /-- 0x01 NODE_WRITE (R120). -/
  | nodeWrite
  /-- 0x02 NODE_READ (R121). -/
  | nodeRead
  /-- 0x03 TREE_COMMIT (R122). -/
  | treeCommit
  /-- 0x04 CT_CLEAR (R123). -/
  | ctClear
  /-- 0x05 CT_WRITE (R124). -/
  | ctWrite
  /-- 0x06 CT_READ (R125). -/
  | ctRead
  /-- 0x07 CT_GEN (R126). -/
  | ctGen
  /-- 0x08 ENCODE (R150). -/
  | encode
  /-- 0x09 DECODE (R160). -/
  | decode
  /-- 0x0A TREE_SER (R170). -/
  | treeSer
  /-- 0x0B TREE_DESER (R176). -/
  | treeDeser
deriving DecidableEq, Repr

/-- What a host access does: a read, or a write of a value. -/
inductive Dir where
  | read
  | write (v : Word)
deriving DecidableEq, Repr

/-- One host access on the bus. Only a 32-bit access with all four byte lanes at an aligned offset is defined (R66); the
other widths and lanes can be written down, so that the model can refuse them. -/
structure Access where
  /-- The bus address: `HBC_BASE` plus the offset (R70). -/
  addr : Nat
  dir : Dir
  /-- The width in bits. -/
  width : Nat := 32
  /-- The byte enables, one bit a lane. -/
  lanes : BitVec 4 := 0xF#4
deriving DecidableEq, Repr

/-- What happens next at the block, in one cycle. The list of events in State is the interleaving of the two agents (R5)
and of the reset input; a command's latency (R6, R247) is how many events stand between its acceptance and its `finish`. -/
inductive Event where
  /-- A host access; the running command, if any, does not complete in this cycle. -/
  | access (a : Access)
  /-- The running command completes (R104). Without effect while the sequencer is idle. -/
  | finish
  /-- A host access in the cycle in which the running command completes (R205). -/
  | accessFinish (a : Access)
  /-- The host WAITs (R88, R89): it reads STATUS until a read returns DONE = 1. While a command runs, `polls` reads come
  before it completes (notes/assumptions/16.md). -/
  | wait (polls : Nat)
  /-- The reset input is asserted (R230). -/
  | resetAssert
  /-- The reset input is deasserted (R230). -/
  | resetRelease
deriving DecidableEq, Repr

end Sys2Proof
end

