-- ==== Sys2Proof/WellFormed.lean ====
section
/-! DEFINITION. Which terms are well formed: the OPEN parameters (spec/00_scope.md R6, spec/20_memory.md R70), a host
access (R66), and a command. A command carries no operand, so each of the twelve is well formed (R80, R82). -/

namespace Sys2Proof

/-- R6: `BUF_BYTES` is a multiple of 4. -/
def Config.Params.bufMultiple (p : Config.Params) : Bool := p.bufBytes % 4 == 0

/-- R6: 4 ≤ `BUF_BYTES` ≤ 2^24. -/
def Config.Params.bufBounds (p : Config.Params) : Bool := 4 ≤ p.bufBytes && p.bufBytes ≤ 2 ^ 24

/-- R70: the block occupies a window of at least 0x10000 + `BUF_BYTES` bytes. -/
def Config.Params.windowHolds (p : Config.Params) : Bool := Config.BUF_BASE + p.bufBytes ≤ p.windowBytes

/-- The constraints R6 and R70 put on the OPEN parameters. -/
def Config.Params.wf (p : Config.Params) : Bool := p.bufMultiple && p.bufBounds && p.windowHolds

/-- R66: the access is 32 bits wide. -/
def Access.fullWidth (a : Access) : Bool := a.width == 32

/-- R66: the access enables all four byte lanes. -/
def Access.allLanes (a : Access) : Bool := a.lanes == 0xF#4

/-- R66: an offset in the block's window is aligned. -/
def alignedOffset (off : Nat) : Bool := off % 4 == 0

/-- R66: the access is one the block defines, at offset `off` of its window. -/
def Access.wf (a : Access) (off : Nat) : Bool := a.fullWidth && a.allLanes && alignedOffset off

/-- R80, R82: a command has no operand that could be ill formed. -/
def Instr.wf : Instr → Bool
  | .nop | .nodeWrite | .nodeRead | .treeCommit | .ctClear | .ctWrite
  | .ctRead | .ctGen | .encode | .decode | .treeSer | .treeDeser => true

end Sys2Proof
end

