-- ==== Sys2Proof/Decode.lean ====
section
/-! DEFINITION. From a command word to a command, and back (spec/30_encoding.md R80, R81, R83). -/

namespace Sys2Proof

/-- Why a word is illegal (R83). Both kinds complete with IllegalCommand (spec/40_command_protocol.md R103). -/
inductive IllegalWord where
  /-- RSVD, bits [31:8], is not 0. -/
  | reservedField
  /-- The opcode is 0x0C to 0xFF. -/
  | reservedOpcode
deriving DecidableEq, Repr

/-- R80: OPCODE is bits [7:0] of a command word. -/
def opcodeField (w : Word) : Nat := w.toNat % 256

/-- R80: RSVD is bits [31:8] of a command word. -/
def rsvdField (w : Word) : Nat := w.toNat / 256

/-- The opcode map (R81). -/
def opcodeMap : Nat → Option Instr
  | 0x00 => some .nop
  | 0x01 => some .nodeWrite
  | 0x02 => some .nodeRead
  | 0x03 => some .treeCommit
  | 0x04 => some .ctClear
  | 0x05 => some .ctWrite
  | 0x06 => some .ctRead
  | 0x07 => some .ctGen
  | 0x08 => some .encode
  | 0x09 => some .decode
  | 0x0A => some .treeSer
  | 0x0B => some .treeDeser
  | _ => none

/-- R83: a word is valid exactly when RSVD is 0 and its opcode is in the map; every other word is illegal, by name. -/
def decode (w : Word) : Except IllegalWord Instr :=
  if rsvdField w = 0 then
    match opcodeMap (opcodeField w) with
    | some i => .ok i
    | none => .error .reservedOpcode
  else .error .reservedField

/-- R81: the opcode of a command. -/
def opcode : Instr → Nat
  | .nop => 0x00
  | .nodeWrite => 0x01
  | .nodeRead => 0x02
  | .treeCommit => 0x03
  | .ctClear => 0x04
  | .ctWrite => 0x05
  | .ctRead => 0x06
  | .ctGen => 0x07
  | .encode => 0x08
  | .decode => 0x09
  | .treeSer => 0x0A
  | .treeDeser => 0x0B

/-- R81: each valid command word is exactly `zext_32(OPCODE)`. -/
def encode (i : Instr) : Word := BitVec.ofNat 32 (opcode i)

/-- What the decoder reads from an opcode-table row's bits. A command word is one 32-bit word (R80), so bit n of the table
is bit n of the word; a number that does not fit 32 bits is no command word. -/
def decodeTableWord (nbits w : Nat) : Option Instr :=
  if nbits ≤ 32 ∧ w < 2 ^ 32 then (decode (BitVec.ofNat 32 w)).toOption else none

end Sys2Proof
end

