-- ==== Sys2Proof/Machine/State.lean ====
section
/-! DEFINITION. The state of one HBC instance as plain data (spec/10_state.md R20 to R46), the reasons a step can stop,
and the state right after power-on reset. -/

namespace Sys2Proof.Machine

/-- The values STATUS.ERRCODE takes (spec/60_exceptions.md R200). Codes 10 to 15 are never reported, so they are no
constructor. -/
inductive ErrCode where
  /-- 0 -/ | ok
  /-- 1 -/ | illegalCommand
  /-- 2 -/ | badRange
  /-- 3 -/ | noTree
  /-- 4 -/ | unknownSymbol
  /-- 5 -/ | unsupportedSymbol
  /-- 6 -/ | corruptTree
  /-- 7 -/ | truncatedStream
  /-- 8 -/ | outputOverflow
  /-- 9 -/ | capacityExceeded
deriving DecidableEq, Repr

/-- One entry of the node RAM (R36). -/
structure Node where
  /-- `kind`: true (1) for a leaf, false (0) for an internal node. -/
  kind : Bool
  sym : Word
  left : Word
  right : Word
deriving DecidableEq, Repr

/-- A code: a bit sequence, first bit first (R39, spec/30_encoding.md R84). Its `len` field is the length of the list. -/
abbrev Code := List Bool

/-- A sparse store by key: strictly rising keys, an unlisted key being undetermined (BUF, NODE) or invalid (CODE). -/
abbrev Ram (α : Type) := List (Nat × α)

/-- The operands latched at acceptance (spec/40_command_protocol.md R101, `Lat`). -/
structure Operands where
  srcAddr : Word
  srcLen : Word
  dstAddr : Word
  dstCap : Word
  root : Word
  nodeIdx : Word
  nodeKind : Bool
  nodeSym : Word
  nodeLeft : Word
  nodeRight : Word
  ctSym : Word
  ctLen : Word
  ctBits : Word
  /-- TREE_VALID before the acceptance's own clearing (R101). -/
  treeValid : Bool
deriving DecidableEq, Repr

/-- What the sequencer holds while a command runs (R42, R101): the latched word and the latched operands. -/
structure Running where
  cmd : Word
  lat : Operands
deriving DecidableEq, Repr

/-- The state of one HBC instance (R20), the parameters it was built with, what is about to happen to it, and the model's
own fields `epoch`, `draws` (which number the free values), `resetIn` and `readData` (the reset pin and the bus's data). -/
structure State where
  /-- The OPEN parameters (spec/00_scope.md R6). No step changes them. -/
  params : Config.Params
  /-- CTRL.IE (R23); CTRL's other bits read 0. -/
  ie : Bool
  /-- The sequencer (R41, R42). STATUS.BUSY is 1 exactly when it is `some`. -/
  seq : Option Running
  /-- STATUS.DONE (R24). -/
  done : Bool
  /-- STATUS.TREE_VALID (R24, R37). -/
  treeValid : Bool
  /-- STATUS.DROP (R24, R35). -/
  drop : Bool
  /-- STATUS.ERRCODE (R24, R200). -/
  errcode : ErrCode
  /-- SRC_ADDR (R26). -/
  srcAddr : Word
  /-- SRC_LEN (R26). -/
  srcLen : Word
  /-- DST_ADDR (R26). -/
  dstAddr : Word
  /-- DST_CAP (R26). -/
  dstCap : Word
  /-- OUT_LEN (R27). -/
  outLen : Word
  /-- ERR_POS (R28). -/
  errPos : Word
  /-- ROOT (R29). -/
  root : Word
  /-- NODE_IDX (R30). -/
  nodeIdx : Word
  /-- NODE_KIND bit 0; bits [31:1] read 0 (R30). -/
  nodeKind : Bool
  /-- NODE_SYM (R30). -/
  nodeSym : Word
  /-- NODE_LEFT (R30). -/
  nodeLeft : Word
  /-- NODE_RIGHT (R30). -/
  nodeRight : Word
  /-- NODE_COUNT (R31). -/
  nodeCount : Word
  /-- LEAF_COUNT (R31). -/
  leafCount : Word
  /-- CT_SYM (R32). -/
  ctSym : Word
  /-- CT_LEN (R32). -/
  ctLen : Word
  /-- CT_BITS (R32). -/
  ctBits : Word
  /-- NODE (R36): the entries written since power-on. -/
  node : Ram Node
  /-- CODE (R39): the valid entries. -/
  code : Ram Code
  /-- BUF (R60): the bytes written since power-on. -/
  buf : List Host.Cell
  /-- Which power-on reset this is: numbers the unspecified contents of BUF and NODE (R46). Model's own. -/
  epoch : Nat
  /-- The next draw of an `any` value (R10). Model's own. -/
  draws : Nat
  /-- The reset input is asserted (R230). -/
  resetIn : Bool
  /-- The data the last host read returned (R61, R69); `none` before the first. Model's own view of the bus. -/
  readData : Option Word
  /-- What happens next, the nearest first: the host's accesses, in the order it issues them (R72), the cycles in which
  the sequencer completes, the reset input. -/
  events : List Event
deriving DecidableEq, Repr

/-- The one way a step can stop by itself. HBC has no traps: an error of the spec is a completion with an ERRCODE
(R203), a next state and no fault. -/
inductive Fault where
  /-- Raised by CT_GEN and TREE_SER where TREE_VALID is 1 and (ROOT, NODE) is no well-formed tree. R37's invariant
  excludes such a state and no run reaches one; the spec's walk need not end there. Safe (notes/assumptions/8.md). -/
  | treeNotWellFormed
deriving DecidableEq, Repr

/-- What the model refuses: what the spec puts outside the host contract. -/
inductive Refusal where
  /-- Raised by `exec`'s arm of an instruction that has no meaning yet. No arm of this model does. Safe. -/
  | notModelled (mnemonic : String)
  /-- Raised by a host access of another width, with partial lanes, or at a misaligned offset (spec/20_memory.md R66:
  "has no defined effect. A model refuses it"). Safe. -/
  | undefinedAccess
  /-- Raised by a host access while the reset input is asserted (spec/70_reset_and_hazards.md R230: "the host must not
  access the block"; spec/93_implementation_defined.md row 10: refuse). Safe. -/
  | accessInReset
deriving DecidableEq, Repr

/-- The machine right after power-on reset (R46, R230): registers 0, flags 0, CODE with no valid entry, NODE and BUF
unspecified (nothing listed), the sequencer idle. -/
def State.reset : State where
  params := Config.defaultParams
  ie := false
  seq := none
  done := false
  treeValid := false
  drop := false
  errcode := .ok
  srcAddr := 0
  srcLen := 0
  dstAddr := 0
  dstCap := 0
  outLen := 0
  errPos := 0
  root := 0
  nodeIdx := 0
  nodeKind := false
  nodeSym := 0
  nodeLeft := 0
  nodeRight := 0
  nodeCount := 0
  leafCount := 0
  ctSym := 0
  ctLen := 0
  ctBits := 0
  node := []
  code := []
  buf := []
  epoch := 0
  draws := 0
  resetIn := false
  readData := none
  events := []

end Sys2Proof.Machine
end

