-- ==== Sys2Proof/Machine/Ops.lean ====
section
/-! DEFINITION. The shared operations: sparse stores, bit sequences (spec/00_scope.md R9), the BUF primitives
(spec/20_memory.md R62 to R64), NODE and CODE access (spec/10_state.md R36, R39), free draws (R10), and the acceptance and
completion of a command (spec/40_command_protocol.md R101, R104, R105). -/

namespace Sys2Proof.Machine

/-! ### Sparse stores -/

/-- What a store lists at key `k`. -/
def Ram.get? {α : Type} : Ram α → Nat → Option α
  | [], _ => none
  | (k', v) :: m, k => if k = k' then some v else Ram.get? m k

/-- List `v` at key `k`, keeping the keys strictly rising. -/
def Ram.put {α : Type} : Ram α → Nat → α → Ram α
  | [], k, v => [(k, v)]
  | (k', v') :: m, k, v =>
    if k < k' then (k, v) :: (k', v') :: m
    else if k = k' then (k, v) :: m
    else (k', v') :: Ram.put m k v

/-- List nothing at key `k`. -/
def Ram.erase {α : Type} : Ram α → Nat → Ram α
  | [], _ => []
  | (k', v') :: m, k => if k = k' then m else (k', v') :: Ram.erase m k

/-- List the values `vs` at the keys `a`, `a + 1`, ... -/
def Ram.store {α : Type} (m : Ram α) (a : Nat) : List α → Ram α
  | [] => m
  | v :: vs => Ram.store (Ram.put m a v) (a + 1) vs

/-- The canonical form of a store: strictly rising keys. -/
abbrev Ram.wf {α : Type} (m : Ram α) : Prop := m.Pairwise fun x y => x.1 < y.1

/-- BUF, the block's byte memory. -/
abbrev Memory := List Host.Cell

/-- The canonical form of BUF. What an unlisted byte reads as is no value of Lean's (`State.unlistedByte`, free), so no
entry can be shown equal to it, and equal memories are equal lists (notes/assumptions/4.md). -/
abbrev Memory.wf (m : Memory) : Prop := Ram.wf m

/-! ### Bit sequences (R7, R9) -/

/-- The unsigned number a bit sequence spells, most significant bit first. -/
def bitsToNat (p : List Bool) : Nat := p.foldl (fun acc b => 2 * acc + b.toNat) 0

/-- The `n` low bits of `v`, most significant first: `[v[n-1], ..., v[0]]`. -/
def natBits (n v : Nat) : List Bool := (List.range n).map fun k => v.testBit (n - 1 - k)

/-- R9: `bits16(s)`. -/
def bits16 (s : Word) : List Bool := natBits Config.SYM_BITS s.toNat

/-- R8: `ceil(x/8)`. -/
def ceilDiv8 (x : Nat) : Nat := (x + 7) / 8

/-- R64: byte k of the packing of p, whose bits beyond `p` are 0. -/
def packByte (p : List Bool) (k : Nat) : Byte :=
  BitVec.ofNat 8 (bitsToNat ((List.range 8).map fun m => p.getD (8 * k + m) false))

/-- R64: the bytes of the packing of p, MSB first, the last byte zero-padded at its low end. -/
def packBits (p : List Bool) : List Byte := (List.range (ceilDiv8 p.length)).map (packByte p)

/-- R62: the `n` bytes of `v`, big-endian: byte k is `(v div 2^(8·(n−1−k))) mod 256`. -/
def beBytes (n v : Nat) : List Byte :=
  (List.range n).map fun k => BitVec.ofNat 8 (v / 2 ^ (8 * (n - 1 - k)) % 256)

/-! ### BUF (R60 to R64) -/

/-- What a byte of BUF that nothing has written since power-on reads as: unspecified (R46), so a free value. -/
def State.unlistedByte (s : State) (k : Nat) : Byte := Config.powerOnByte s.epoch k

/-- `BUF[k]`. -/
def State.bufByte (s : State) (k : Nat) : Byte := (Ram.get? s.buf k).getD (s.unlistedByte k)

/-- R62: `MemRead(a, n)`, big-endian: `sum_k BUF[a+k]·2^(8·(n−1−k))`. -/
def State.memRead (s : State) (a n : Nat) : Nat :=
  ((List.range n).map fun k => (s.bufByte (a + k)).toNat * 2 ^ (8 * (n - 1 - k))).sum

/-- R62: `MemWrite(a, n, v)`. -/
def State.memWrite (s : State) (a n v : Nat) : State := { s with buf := Ram.store s.buf a (beBytes n v) }

/-- R62: the symbol word at byte offset `a`. -/
def State.readWord (s : State) (a : Nat) : Word := BitVec.ofNat 32 (s.memRead a 4)

/-- R62: write the symbol word `v` at byte offset `a`. -/
def State.writeWord (s : State) (a : Nat) (v : Word) : State := s.memWrite a 4 v.toNat

/-- Write symbol words one after the other from byte offset `a` (R160: `MemWrite(d + 4·j, 4, out[j])`). -/
def State.writeWords (s : State) (a : Nat) : List Word → State
  | [] => s
  | v :: vs => (s.writeWord a v).writeWords (a + 4) vs

/-- R63: `BitRead(a, i)`: bit 0 of a sequence is bit 7 of `BUF[a]`. -/
def State.bitRead (s : State) (a i : Nat) : Bool :=
  (s.bufByte (a + i / 8)).toNat / 2 ^ (7 - i % 8) % 2 == 1

/-- The bit sequence of length `n` packed at byte offset `a`: `BitRead(a, 0)` to `BitRead(a, n−1)` (R65). -/
def State.readBits (s : State) (a n : Nat) : List Bool := (List.range n).map fun i => s.bitRead a i

/-- R64: `BitStore(a, p)`. -/
def State.bitStore (s : State) (a : Nat) (p : List Bool) : State := { s with buf := Ram.store s.buf a (packBits p) }

/-- The symbol words at `a`, `a + 4`, ..., `n` of them. -/
def State.readWords (s : State) (a n : Nat) : List Word := (List.range n).map fun j => s.readWord (a + 4 * j)

/-! ### NODE (R36) and CODE (R39) -/

/-- What an entry of NODE that nothing has written since power-on holds: unspecified (R46), so free values. -/
def State.unlistedNode (s : State) (i : Nat) : Node where
  kind := Config.powerOnKind s.epoch i
  sym := Config.powerOnSym s.epoch i
  left := Config.powerOnLeft s.epoch i
  right := Config.powerOnRight s.epoch i

/-- `NODE[i]`. -/
def State.nodeAt (s : State) (i : Nat) : Node := (Ram.get? s.node i).getD (s.unlistedNode i)

/-- `CODE[k]`: its bits where `valid` is 1, `none` where it is 0 (R39: len and bits are then not observable). -/
def State.codeAt (s : State) (k : Nat) : Option Code := Ram.get? s.code k

/-! ### `any` (R10) -/

/-- The `d`-th draw of an entry of NODE. -/
def anyNode (d : Nat) : Node where
  kind := Config.anyKind d
  sym := Config.anySym d
  left := Config.anyLeft d
  right := Config.anyRight d

/-- How many bytes of `region(a, n)` exist (spec/20_memory.md R60: an offset at or beyond BUF_BYTES addresses nothing). -/
def bytesInBuf (p : Config.Params) (a n : Nat) : Nat := min n (p.bufBytes - a)

/-- Every byte of `region(a, n)` takes the value `any` (R105, R231). -/
def State.anyRegion (s : State) (a n : Nat) : State :=
  { s with
    buf := Ram.store s.buf a ((List.range (bytesInBuf s.params a n)).map fun k => Config.anyByte (s.draws + k))
    draws := s.draws + bytesInBuf s.params a n }

/-- The entries `NODE[a]` to `NODE[a + n − 1]` take the value `any` (R176, R231). -/
def State.anyNodes (s : State) (a n : Nat) : State :=
  { s with
    node := Ram.store s.node a ((List.range n).map fun k => anyNode (s.draws + k))
    draws := s.draws + n }

/-! ### Acceptance and completion -/

/-- STATUS.BUSY (R24): 1 from acceptance to completion. -/
def State.busy (s : State) : Bool := s.seq.isSome

/-- R38: TREE_VALID becomes 0, and with it NODE_COUNT and LEAF_COUNT. -/
def State.clearTree (s : State) : State := { s with treeValid := false, nodeCount := 0, leafCount := 0 }

/-- The live values of the registers R101 latches. -/
def State.liveOperands (s : State) : Operands where
  srcAddr := s.srcAddr
  srcLen := s.srcLen
  dstAddr := s.dstAddr
  dstCap := s.dstCap
  root := s.root
  nodeIdx := s.nodeIdx
  nodeKind := s.nodeKind
  nodeSym := s.nodeSym
  nodeLeft := s.nodeLeft
  nodeRight := s.nodeRight
  ctSym := s.ctSym
  ctLen := s.ctLen
  ctBits := s.ctBits
  treeValid := s.treeValid

/-- R101: NODE_WRITE, TREE_COMMIT and TREE_DESER clear TREE_VALID at their acceptance. -/
def clearsTree (w : Word) : Bool := w == 0x00000001#32 || w == 0x00000003#32 || w == 0x0000000B#32

/-- R101: the acceptance of word `w`, as one step. -/
def State.accept (s : State) (w : Word) : State :=
  let t := { s with
    seq := some { cmd := w, lat := s.liveOperands }
    done := false
    errcode := .ok
    outLen := 0
    errPos := 0 }
  if clearsTree w then t.clearTree else t

/-- R104, success: completion with result `r`. -/
def State.succeed (s : State) (r : Nat) : State :=
  { s with errcode := .ok, errPos := 0, outLen := BitVec.ofNat 32 r, seq := none, done := true }

/-- R104, failure: `fail E(pos)`. It is how HBC reports an error: R203, no trap is taken and no state is saved. -/
def State.fail (s : State) (e : ErrCode) (pos : Nat) : State :=
  { s with errcode := e, errPos := BitVec.ofNat 32 pos, outLen := 0, seq := none, done := true }

/-- An error found after the static checks: its code and its position (R109). -/
structure CmdError where
  code : ErrCode
  pos : Nat
deriving DecidableEq, Repr

/-- R105: a failure of ENCODE, DECODE or TREE_SER after the static checks leaves `any` in the destination region. -/
def State.failInto (s : State) (dst cap : Nat) (e : CmdError) : State := (s.anyRegion dst cap).fail e.code e.pos

/-- The outcome type of every meaning. -/
abbrev Result := Host.Outcome State Fault Refusal

end Sys2Proof.Machine
end

