-- ==== Sys2Proof/Machine/Operands.lean ====
section
/-! DEFINITION. The operands of a command and its static checks (spec/30_encoding.md R82, spec/20_memory.md R67, R68,
spec/40_command_protocol.md R101, R103). -/

namespace Sys2Proof.Machine

/-- R101: a running command reads its operands from `Lat`. (While the sequencer is idle no step runs a command; the live
registers then stand for `Lat`, as in a model that accepts and completes in one step, R42.) -/
def State.operands (s : State) : Operands :=
  match s.seq with
  | some r => r.lat
  | none => s.liveOperands

/-- R68: `region(a, n)`, by its first offset and its length. -/
structure Region where
  start : Nat
  size : Nat
deriving DecidableEq, Repr

/-- R68: a region is in range when `a + n ≤ BUF_BYTES`, computed exactly. -/
def Region.inRange (r : Region) (bufBytes : Nat) : Bool := r.start + r.size ≤ bufBytes

/-- R68: two regions overlap when they share at least one offset; an empty region overlaps nothing. -/
def Region.overlaps (r q : Region) : Bool :=
  0 < r.size && 0 < q.size && r.start < q.start + q.size && q.start < r.start + r.size

/-- R103, the table's source region. -/
def sourceRegion : Instr → Operands → Option Region
  | .encode, o => some ⟨o.srcAddr.toNat, 4 * o.srcLen.toNat⟩
  | .decode, o => some ⟨o.srcAddr.toNat, ceilDiv8 o.srcLen.toNat⟩
  | .treeDeser, o => some ⟨o.srcAddr.toNat, ceilDiv8 o.srcLen.toNat⟩
  | .treeSer, _ | .nop, _ | .nodeWrite, _ | .nodeRead, _ | .treeCommit, _ | .ctClear, _ | .ctWrite, _ | .ctRead, _
  | .ctGen, _ => none

/-- R103, the table's destination region. -/
def destRegion : Instr → Operands → Option Region
  | .encode, o => some ⟨o.dstAddr.toNat, o.dstCap.toNat⟩
  | .decode, o => some ⟨o.dstAddr.toNat, o.dstCap.toNat⟩
  | .treeSer, o => some ⟨o.dstAddr.toNat, o.dstCap.toNat⟩
  | .treeDeser, _ | .nop, _ | .nodeWrite, _ | .nodeRead, _ | .treeCommit, _ | .ctClear, _ | .ctWrite, _ | .ctRead, _
  | .ctGen, _ => none

/-- R67, R103: the table's alignment requirement. -/
def aligned : Instr → Operands → Bool
  | .encode, o => o.srcAddr.toNat % 4 == 0
  | .decode, o => o.dstAddr.toNat % 4 == 0
  | .treeSer, _ | .treeDeser, _ | .nop, _ | .nodeWrite, _ | .nodeRead, _ | .treeCommit, _ | .ctClear, _ | .ctWrite, _
  | .ctRead, _ | .ctGen, _ => true

/-- R103: the index check of NODE_WRITE and NODE_READ. -/
def indexInRange : Instr → Operands → Bool
  | .nodeWrite, o => o.nodeIdx.toNat < Config.NODE_CAP
  | .nodeRead, o => o.nodeIdx.toNat < Config.NODE_CAP
  | .nop, _ | .treeCommit, _ | .ctClear, _ | .ctWrite, _ | .ctRead, _ | .ctGen, _ | .encode, _ | .decode, _
  | .treeSer, _ | .treeDeser, _ => true

/-- R103: the commands that need TREE_VALID. -/
def needsTree : Instr → Bool
  | .ctGen | .decode | .treeSer => true
  | .nop | .nodeWrite | .nodeRead | .treeCommit | .ctClear | .ctWrite | .ctRead | .encode | .treeDeser => false

/-- An absent region is in range. -/
def regionOk (bufBytes : Nat) : Option Region → Bool
  | none => true
  | some r => r.inRange bufBytes

/-- Do the source and destination regions overlap? -/
def regionsOverlap : Option Region → Option Region → Bool
  | some r, some q => r.overlaps q
  | some _, none | none, some _ | none, none => false

/-- R103, check 2: no region out of range, no misalignment, no overlap, no index beyond NODE. -/
def rangesOk (i : Instr) (o : Operands) (bufBytes : Nat) : Bool :=
  regionOk bufBytes (sourceRegion i o) && regionOk bufBytes (destRegion i o) && aligned i o
    && !regionsOverlap (sourceRegion i o) (destRegion i o) && indexInRange i o

/-- R103: the static checks of a valid word, in order: BadRange, then NoTree. (Check 1, IllegalCommand, is the decoder's:
`completeIllegal`.) Each fails with ERR_POS = 0. -/
def State.staticError (s : State) (i : Instr) : Option ErrCode :=
  if !rangesOk i s.operands s.params.bufBytes then some .badRange
  else if needsTree i && !s.operands.treeValid then some .noTree
  else none

/-- Run a command's rule once its static checks have passed (R103: "The first check that fails ends the command at once
through `fail`, with ERR_POS = 0"). A failed check writes no state of the rule: CT_GEN's NoTree leaves CODE as it is
(DEDUCED, notes/assumptions/17.md). -/
def State.checked (s : State) (i : Instr) (rule : Result) : Result :=
  match s.staticError i with
  | some e => .next (s.fail e 0)
  | none => rule

end Sys2Proof.Machine
end

