-- ==== Sys2Proof/Machine/BitDecoder.lean ====
section
/-! DEFINITION. The bit decoder, DECODE (spec/43_bit_decoder.md R160 to R162). -/

namespace Sys2Proof.Machine

/-- R160, the loop of a single-leaf tree (R161): from bit index `i`, having put out `m` symbols, `n` bits left. -/
def decodeLeafLoop (sym : Word) (cap : Nat) : (i m n : Nat) → Except CmdError (List Word)
  | _, _, 0 => .ok []
  | i, m, n + 1 =>
    if cap < 4 * (m + 1) then .error ⟨.outputOverflow, i⟩
    else (decodeLeafLoop sym cap (i + 1) (m + 1) n).map (sym :: ·)

/-- R160: the cursor after one bit: 0 goes left, 1 goes right. -/
def stepCursor (nodeAt : Nat → Node) (cur : Nat) (b : Bool) : Nat :=
  if b then (nodeAt cur).right.toNat else (nodeAt cur).left.toNat

/-- R160, the loop of a tree with an internal root: from bit index `i` and cursor `cur`, having put out `m` symbols, over
the bits left. At the end of the bits `i` is D. -/
def decodeLoop (nodeAt : Nat → Node) (root cap : Nat) : (i m cur : Nat) → List Bool → Except CmdError (List Word)
  | i, _, cur, [] => if cur = root then .ok [] else .error ⟨.truncatedStream, i⟩
  | i, m, cur, b :: bs =>
    let next := stepCursor nodeAt cur b
    if (nodeAt next).kind then
      if cap < 4 * (m + 1) then .error ⟨.outputOverflow, i⟩
      else (decodeLoop nodeAt root cap (i + 1) (m + 1) root bs).map ((nodeAt next).sym :: ·)
    else decodeLoop nodeAt root cap (i + 1) m next bs

/-- R160: the symbols that the D bits at SRC_ADDR decode to. -/
def State.decodeSymbols (s : State) (o : Operands) : Except CmdError (List Word) :=
  if (s.nodeAt o.root.toNat).kind then
    decodeLeafLoop (s.nodeAt o.root.toNat).sym o.dstCap.toNat 0 0 o.srcLen.toNat
  else
    decodeLoop s.nodeAt o.root.toNat o.dstCap.toNat 0 0 o.root.toNat (s.readBits o.srcAddr.toNat o.srcLen.toNat)

/-- R160 after the static checks. -/
def State.decodeRule (s : State) (o : Operands) : State :=
  match s.decodeSymbols o with
  | .ok out => (s.writeWords o.dstAddr.toNat out).succeed out.length
  | .error e => s.failInto o.dstAddr.toNat o.dstCap.toNat e

/-- DECODE (R160). -/
def execDecode (s : State) : Result := s.checked .decode (.next (s.decodeRule s.operands))

end Sys2Proof.Machine
end

