-- ==== Sys2Proof/Machine/BitEncoder.lean ====
section
/-! DEFINITION. The bit encoder, ENCODE (spec/42_bit_encoder.md R150 to R152). -/

namespace Sys2Proof.Machine

/-- R150, the loop: from symbol index `j`, having put out `len` bits, over the symbol words left; the bits they give. -/
def encodeLoop (codeAt : Nat → Option Code) (capBits : Nat) : (j len : Nat) → List Word → Except CmdError (List Bool)
  | _, _, [] => .ok []
  | j, len, w :: ws =>
    if Config.MAX_SYM < w.toNat then .error ⟨.unsupportedSymbol, j⟩
    else
      match codeAt w.toNat with
      | none => .error ⟨.unknownSymbol, j⟩
      | some p =>
        if capBits < len + p.length then .error ⟨.outputOverflow, j⟩
        else (encodeLoop codeAt capBits (j + 1) (len + p.length) ws).map (p ++ ·)

/-- R150 after the static checks. -/
def State.encodeRule (s : State) (o : Operands) : State :=
  match encodeLoop s.codeAt (8 * o.dstCap.toNat) 0 0 (s.readWords o.srcAddr.toNat o.srcLen.toNat) with
  | .ok out => (s.bitStore o.dstAddr.toNat out).succeed out.length
  | .error e => s.failInto o.dstAddr.toNat o.dstCap.toNat e

/-- ENCODE (R150). -/
def execEncode (s : State) : Result := s.checked .encode (.next (s.encodeRule s.operands))

end Sys2Proof.Machine
end

