-- ==== Sys2Proof/Machine/Tree.lean ====
section
/-! DEFINITION. Walking the tree in NODE: the pre-order walk with its explicit stack (spec/10_state.md R37, R44;
spec/41_tree_and_code_table.md R122, R127). TREE_COMMIT, CT_GEN and TREE_SER share it. -/

namespace Sys2Proof.Machine

/-- A node the walk visits, with its path from ROOT (R127). -/
structure Visit where
  idx : Nat
  path : List Bool
deriving DecidableEq, Repr

/-- R122, R126: what the visit of an internal node pushes, the child popped first standing first. -/
def childVisits (n : Node) (path : List Bool) : List Visit :=
  [⟨n.left.toNat, path ++ [false]⟩, ⟨n.right.toNat, path ++ [true]⟩]

/-- The pre-order walk of R122 over NODE, from a stack whose top stands first, having visited `seen`. It gives the visits
in pre-order, or the pre-order index `v` that the first bad reference (an index ≥ NODE_CAP, or one already visited) would
have taken. `fuel` counts the entries of NODE not visited yet: when it is 0 every entry has been, so any reference left on
the stack is a bad one. -/
def walk (nodeAt : Nat → Node) : (fuel : Nat) → (stack : List Visit) → (seen : List Nat) → Except Nat (List Visit)
  | _, [], _ => .ok []
  | 0, _ :: _, seen => .error seen.length
  | fuel + 1, c :: stack, seen =>
    if Config.NODE_CAP ≤ c.idx ∨ c.idx ∈ seen then .error seen.length
    else if (nodeAt c.idx).kind then
      (walk nodeAt fuel stack (c.idx :: seen)).map (c :: ·)
    else
      (walk nodeAt fuel (childVisits (nodeAt c.idx) c.path ++ stack) (c.idx :: seen)).map (c :: ·)

/-- R37: the pre-order walk from index `r`. -/
def State.walkFrom (s : State) (r : Nat) : Except Nat (List Visit) :=
  walk s.nodeAt Config.NODE_CAP [⟨r, []⟩] []

/-- How many of the visited nodes are leaves (R31, R122). -/
def State.countLeaves (s : State) (vs : List Visit) : Nat := vs.countP fun c => (s.nodeAt c.idx).kind

/-- CT_GEN and TREE_SER walk the tree that TREE_VALID vouches for (R37). Where the walk is no tree's, which R37 excludes,
the machine is stuck. -/
def State.withTree (s : State) (rule : List Visit → State) : Result :=
  match s.walkFrom s.operands.root.toNat with
  | .ok vs => .next (rule vs)
  | .error _ => .fault .treeNotWellFormed

end Sys2Proof.Machine
end

