-- ==== Sys2Proof/Machine/CodeTable.lean ====
section
/-! DEFINITION. The code table commands CT_CLEAR, CT_WRITE, CT_READ and CT_GEN (spec/41_tree_and_code_table.md R123 to
R127). -/

namespace Sys2Proof.Machine

/-- Every entry of CODE becomes invalid. -/
def State.clearCode (s : State) : State := { s with code := [] }

/-- `CODE[k] <- (valid 1, bits p)`. -/
def State.putCode (s : State) (k : Nat) (p : Code) : State := { s with code := Ram.put s.code k p }

/-- `CODE[k].valid <- 0`. -/
def State.dropCode (s : State) (k : Nat) : State := { s with code := Ram.erase s.code k }

/-- R125: the window's code registers: the length and the right-aligned bits, 0 and 0 for an invalid entry. -/
def State.loadCode (s : State) (c : Option Code) : State :=
  let p := c.getD []
  { s with ctLen := BitVec.ofNat 32 p.length, ctBits := BitVec.ofNat 32 (bitsToNat p) }

/-- CT_CLEAR (R123). -/
def execCtClear (s : State) : Result := s.checked .ctClear (.next (s.clearCode.succeed 0))

/-- The rule of CT_WRITE (R124), with L = CT_LEN. -/
def State.ctWriteRule (s : State) (sym len bits : Nat) : State :=
  if Config.MAX_SYM < sym then s.fail .unsupportedSymbol 0
  else if Config.MAX_CODE_LEN < len then s.fail .capacityExceeded 0
  else if len = 0 then (s.dropCode sym).succeed 0
  else (s.putCode sym (natBits len bits)).succeed 0

/-- CT_WRITE (R124). -/
def execCtWrite (s : State) : Result :=
  s.checked .ctWrite
    (.next (s.ctWriteRule s.operands.ctSym.toNat s.operands.ctLen.toNat s.operands.ctBits.toNat))

/-- The rule of CT_READ (R125). -/
def State.ctReadRule (s : State) (sym : Nat) : State :=
  if Config.MAX_SYM < sym then s.fail .unsupportedSymbol 0
  else (s.loadCode (s.codeAt sym)).succeed 0

/-- CT_READ (R125). -/
def execCtRead (s : State) : Result := s.checked .ctRead (.next (s.ctReadRule s.operands.ctSym.toNat))

/-- R127: the code of a leaf at path p: p, or "0" for the root. -/
def codeOfPath (p : List Bool) : Code := if p = [] then [false] else p

/-- R126, the loop: from pre-order index `v`, having made `made` entries of `code`, over the visits left. -/
def genLoop (nodeAt : Nat → Node) : (v made : Nat) → (code : Ram Code) → List Visit →
    Except CmdError (Ram Code × Nat)
  | _, made, code, [] => .ok (code, made)
  | v, made, code, c :: cs =>
    if (nodeAt c.idx).kind then
      if Config.MAX_SYM < (nodeAt c.idx).sym.toNat then .error ⟨.unsupportedSymbol, v⟩
      else if (Ram.get? code (nodeAt c.idx).sym.toNat).isSome then .error ⟨.corruptTree, v⟩
      else if Config.MAX_CODE_LEN < (codeOfPath c.path).length then .error ⟨.capacityExceeded, v⟩
      else genLoop nodeAt (v + 1) (made + 1) (Ram.put code (nodeAt c.idx).sym.toNat (codeOfPath c.path)) cs
    else genLoop nodeAt (v + 1) made code cs

/-- R126: CT_GEN over the visits of its walk. A failure (`genfail`) leaves every entry invalid. -/
def State.genRule (s : State) (vs : List Visit) : State :=
  match genLoop s.nodeAt 0 0 [] vs with
  | .ok (code, made) => { s with code := code }.succeed made
  | .error e => s.clearCode.fail e.code e.pos

/-- CT_GEN (R126). Its static NoTree leaves CODE as it is (DEDUCED, notes/assumptions/17.md). -/
def execCtGen (s : State) : Result := s.checked .ctGen (s.withTree s.genRule)

end Sys2Proof.Machine
end

