-- ==== Sys2Proof/Machine/Protocol.lean ====
section
/-! DEFINITION. NOP, and the completion of an illegal word (spec/40_command_protocol.md R103, R110). -/

namespace Sys2Proof.Machine

/-- NOP (R110): completes with r = 0. -/
def execNop (s : State) : Result := s.checked .nop (.next (s.succeed 0))

/-- R83, R103 check 1: an accepted illegal word completes with IllegalCommand and ERR_POS = 0. -/
def completeIllegal (s : State) : Result := .next (s.fail .illegalCommand 0)

end Sys2Proof.Machine
end

