-- ==== Sys2Proof/Machine/TreeStore.lean ====
section
/-! DEFINITION. The tree store commands NODE_WRITE, NODE_READ and TREE_COMMIT (spec/41_tree_and_code_table.md R120 to
R122). -/

namespace Sys2Proof.Machine

/-- The node in the host's window (R30). -/
def Operands.windowNode (o : Operands) : Node where
  kind := o.nodeKind
  sym := o.nodeSym
  left := o.nodeLeft
  right := o.nodeRight

/-- R120: `NODE[i]` takes the window's four values. -/
def State.putNode (s : State) (i : Nat) (n : Node) : State := { s with node := Ram.put s.node i n }

/-- R121: the window takes an entry's four values. -/
def State.loadWindow (s : State) (n : Node) : State :=
  { s with nodeKind := n.kind, nodeSym := n.sym, nodeLeft := n.left, nodeRight := n.right }

/-- NODE_WRITE (R120). -/
def execNodeWrite (s : State) : Result :=
  s.checked .nodeWrite (.next ((s.putNode s.operands.nodeIdx.toNat s.operands.windowNode).succeed 0))

/-- NODE_READ (R121). -/
def execNodeRead (s : State) : Result :=
  s.checked .nodeRead (.next ((s.loadWindow (s.nodeAt s.operands.nodeIdx.toNat)).succeed 0))

/-- R122, R176, R31: the tree is valid, with its counts. -/
def State.setTree (s : State) (nodes leaves : Nat) : State :=
  { s with treeValid := true, nodeCount := BitVec.ofNat 32 nodes, leafCount := BitVec.ofNat 32 leaves }

/-- R122, the end of TREE_COMMIT's walk. -/
def State.commit (s : State) : Except Nat (List Visit) → State
  | .ok vs => (s.setTree vs.length (s.countLeaves vs)).succeed 0
  | .error v => s.fail .corruptTree v

/-- TREE_COMMIT (R122). -/
def execTreeCommit (s : State) : Result :=
  s.checked .treeCommit (.next (s.commit (s.walkFrom s.operands.root.toNat)))

end Sys2Proof.Machine
end

