-- ==== Sys2Proof/Machine/TreeCodec.lean ====
section
/-! DEFINITION. The tree codec, TREE_SER and TREE_DESER (spec/44_tree_codec.md R170 to R177; spec/30_encoding.md R86). -/

namespace Sys2Proof.Machine

/-- R170, the loop: from pre-order index `v`, having put out `len` bits, over the visits left; the bits they give. -/
def serLoop (nodeAt : Nat → Node) (capBits : Nat) : (v len : Nat) → List Visit → Except CmdError (List Bool)
  | _, _, [] => .ok []
  | v, len, c :: cs =>
    if (nodeAt c.idx).kind then
      if Config.MAX_SYM < (nodeAt c.idx).sym.toNat then .error ⟨.unsupportedSymbol, v⟩
      else if capBits < len + 17 then .error ⟨.outputOverflow, v⟩
      else (serLoop nodeAt capBits (v + 1) (len + 17) cs).map ((true :: bits16 (nodeAt c.idx).sym) ++ ·)
    else if capBits < len + 1 then .error ⟨.outputOverflow, v⟩
    else (serLoop nodeAt capBits (v + 1) (len + 1) cs).map (false :: ·)

/-- R170 after the static checks, over the visits of its walk. -/
def State.serRule (s : State) (o : Operands) (vs : List Visit) : State :=
  match serLoop s.nodeAt (8 * o.dstCap.toNat) 0 0 vs with
  | .ok out => (s.bitStore o.dstAddr.toNat out).succeed out.length
  | .error e => s.failInto o.dstAddr.toNat o.dstCap.toNat e

/-- TREE_SER (R170). -/
def execTreeSer (s : State) : Result := s.checked .treeSer (s.withTree (s.serRule s.operands))

/-- The state of TREE_DESER's parse (R176): the bits not read yet, the index `pos` of the next one, the nodes allocated,
the leaves among them, and NODE. -/
structure Parse where
  bits : List Bool
  pos : Nat
  n : Nat
  leaves : Nat
  node : Ram Node
deriving DecidableEq, Repr

/-- An error of the parse: the error, and how many nodes were allocated at the failure (R176). -/
structure ParseError where
  err : CmdError
  n : Nat
deriving DecidableEq, Repr

/-- R176: the leaf entry a 16-bit symbol gives. -/
def leafNode (sym : List Bool) : Node where
  kind := true
  sym := BitVec.ofNat 32 (bitsToNat sym)
  left := 0
  right := 0

/-- R176: the internal entry with children `l` and `r`. -/
def internalNode (l r : Nat) : Node where
  kind := false
  sym := 0
  left := BitVec.ofNat 32 l
  right := BitVec.ofNat 32 r

/-- R176, `node()`: parse one Tree (R86) of a stream of `total` bits, giving its index. `fuel` bounds the nesting: each
level reads a tag bit, so with as much fuel as bits are left, no fuel means no bit before a tag. -/
def parseNode (total : Nat) : (fuel : Nat) → Parse → Except ParseError (Nat × Parse)
  | 0, p => .error ⟨⟨.corruptTree, total⟩, p.n⟩
  | fuel + 1, p =>
    match p.bits with
    | [] => .error ⟨⟨.corruptTree, total⟩, p.n⟩
    | tag :: bits =>
      if p.n = Config.NODE_CAP then .error ⟨⟨.capacityExceeded, p.pos⟩, p.n⟩
      else if tag then
        if bits.length < Config.SYM_BITS then .error ⟨⟨.corruptTree, total⟩, p.n + 1⟩
        else .ok (p.n,
          { bits := bits.drop Config.SYM_BITS
            pos := p.pos + 1 + Config.SYM_BITS
            n := p.n + 1
            leaves := p.leaves + 1
            node := Ram.put p.node p.n (leafNode (bits.take Config.SYM_BITS)) })
      else
        match parseNode total fuel { p with bits := bits, pos := p.pos + 1, n := p.n + 1 } with
        | .error e => .error e
        | .ok (l, q) =>
          match parseNode total fuel q with
          | .error e => .error e
          | .ok (r, q') => .ok (p.n, { q' with node := Ram.put q'.node p.n (internalNode l r) })

/-- R176: the whole parse: one Tree, and no bit left over. -/
def parseTree (bits : List Bool) (node : Ram Node) : Except ParseError Parse :=
  match parseNode bits.length bits.length { bits := bits, pos := 0, n := 0, leaves := 0, node := node } with
  | .error e => .error e
  | .ok (_, q) => if q.pos < bits.length then .error ⟨⟨.corruptTree, q.pos⟩, q.n⟩ else .ok q

/-- R176 after the static checks: ROOT is 0 whatever follows; on a failure the nodes allocated hold `any`. -/
def State.deserRule (s : State) (o : Operands) : State :=
  let t := { s with root := 0 }
  match parseTree (s.readBits o.srcAddr.toNat o.srcLen.toNat) s.node with
  | .ok q => ({ t with node := q.node }.setTree q.n q.leaves).succeed o.srcLen.toNat
  | .error e => (t.anyNodes 0 e.n).fail e.err.code e.err.pos

/-- TREE_DESER (R176). -/
def execTreeDeser (s : State) : Result := s.checked .treeDeser (.next (s.deserRule s.operands))

end Sys2Proof.Machine
end

