-- ==== Sys2Proof/Machine/Dispatch.lean ====
section
/-! DEFINITION. The meaning of each command, one arm a constructor (spec/30_encoding.md R81). -/

namespace Sys2Proof.Machine

def exec (i : Instr) (s : State) : Host.Outcome State Fault Refusal :=
  match i with
  | .nop => Sys2Proof.Machine.execNop s
  | .nodeWrite => Sys2Proof.Machine.execNodeWrite s
  | .nodeRead => Sys2Proof.Machine.execNodeRead s
  | .treeCommit => Sys2Proof.Machine.execTreeCommit s
  | .ctClear => Sys2Proof.Machine.execCtClear s
  | .ctWrite => Sys2Proof.Machine.execCtWrite s
  | .ctRead => Sys2Proof.Machine.execCtRead s
  | .ctGen => Sys2Proof.Machine.execCtGen s
  | .encode => Sys2Proof.Machine.execEncode s
  | .decode => Sys2Proof.Machine.execDecode s
  | .treeSer => Sys2Proof.Machine.execTreeSer s
  | .treeDeser => Sys2Proof.Machine.execTreeDeser s

end Sys2Proof.Machine
end

