-- ==== Sys2Proof/Machine/Flags.lean ====
section
/-! DEFINITION. The flags: STATUS and CTRL as words, writes to them, the interrupt output (spec/10_state.md R23, R24, R43,
R45; spec/60_exceptions.md R200, R210). -/

namespace Sys2Proof.Machine

/-- R200: the numeric code of an error. -/
def ErrCode.toNat : ErrCode → Nat
  | .ok => 0
  | .illegalCommand => 1
  | .badRange => 2
  | .noTree => 3
  | .unknownSymbol => 4
  | .unsupportedSymbol => 5
  | .corruptTree => 6
  | .truncatedStream => 7
  | .outputOverflow => 8
  | .capacityExceeded => 9

/-- R24: STATUS as the host reads it: BUSY, DONE, TREE_VALID, DROP in bits 0 to 3, ERRCODE in bits [11:8]. -/
def State.statusWord (s : State) : Word :=
  BitVec.ofNat 32 (s.busy.toNat + 2 * s.done.toNat + 4 * s.treeValid.toNat + 8 * s.drop.toNat + 256 * s.errcode.toNat)

/-- R23: CTRL as the host reads it: IE in bit 0, SRST and the reserved bits 0. -/
def State.ctrlWord (s : State) : Word := BitVec.ofNat 32 s.ie.toNat

/-- R24: a host write to STATUS: bit 1 clears DONE, bit 3 clears DROP; the other bits are ignored. -/
def State.writeStatus (s : State) (v : Word) : State :=
  { s with done := s.done && !v.getLsbD 1, drop := s.drop && !v.getLsbD 3 }

/-- R45, R210: the level-sensitive interrupt output, `CTRL.IE AND STATUS.DONE`. -/
def State.irq (s : State) : Bool := s.ie && s.done

end Sys2Proof.Machine
end

