-- ==== Sys2Proof/Machine/Reset.lean ====
section
/-! DEFINITION. Power-on reset and soft reset (spec/70_reset_and_hazards.md R230 to R232, spec/10_state.md R46). -/

namespace Sys2Proof.Machine

/-- R230: the power-on column of R46. NODE and BUF are unspecified again, under a new epoch; the parameters are the
instance's, and what is still to happen stays. -/
def State.powerOn (s : State) : State :=
  { State.reset with
    params := s.params
    epoch := s.epoch + 1
    draws := s.draws
    resetIn := s.resetIn
    events := s.events }

/-- R231: what abandoning command `i` with latched operands `o` leaves unspecified. -/
def State.abandon (s : State) (o : Operands) : Instr → State
  | .encode => s.anyRegion o.dstAddr.toNat o.dstCap.toNat
  | .decode => s.anyRegion o.dstAddr.toNat o.dstCap.toNat
  | .treeSer => s.anyRegion o.dstAddr.toNat o.dstCap.toNat
  | .treeDeser => s.anyNodes 0 (min Config.NODE_CAP o.srcLen.toNat)
  | .nodeWrite => if o.nodeIdx.toNat < Config.NODE_CAP then s.anyNodes o.nodeIdx.toNat 1 else s
  | .nop | .nodeRead | .treeCommit | .ctClear | .ctWrite | .ctRead | .ctGen => s

/-- R231, its first part: a running command is abandoned. -/
def State.abandonRunning (s : State) : State :=
  match s.seq with
  | none => s
  | some r =>
    match decode r.cmd with
    | .ok i => s.abandon r.lat i
    | .error _ => s

/-- R231, its second part: every register other than ID, every flag, the sequencer and CODE's valid bits. -/
def State.clearForReset (s : State) : State :=
  { s with
    ie := false
    seq := none
    done := false
    treeValid := false
    drop := false
    errcode := .ok
    srcAddr := 0
    srcLen := 0
    dstAddr := 0
    dstCap := 0
    outLen := 0
    errPos := 0
    root := 0
    nodeIdx := 0
    nodeKind := false
    nodeSym := 0
    nodeLeft := 0
    nodeRight := 0
    nodeCount := 0
    leafCount := 0
    ctSym := 0
    ctLen := 0
    ctBits := 0
    code := [] }

/-- R231: the soft reset, as one step, whatever BUSY. -/
def State.softReset (s : State) : State := s.abandonRunning.clearForReset

end Sys2Proof.Machine
end

