-- ==== Sys2Proof/Machine/HostAccess.lean ====
section
/-! DEFINITION. What a host access does: the register map (spec/10_state.md R21 to R35), the BUF window and the refused
accesses (spec/20_memory.md R61, R66, R69, R70). -/

namespace Sys2Proof.Machine

/-- The registers of the map (R21). -/
inductive Reg where
  | id | ctrl | status | cmd
  | srcAddr | srcLen | dstAddr | dstCap
  | outLen | errPos
  | root | nodeIdx | nodeKind | nodeSym | nodeLeft | nodeRight | nodeCount | leafCount
  | ctSym | ctLen | ctBits
deriving DecidableEq, Repr

/-- The register map, offset by offset (R21). -/
def regAt : Nat → Option Reg
  | 0x000 => some .id
  | 0x004 => some .ctrl
  | 0x008 => some .status
  | 0x00C => some .cmd
  | 0x010 => some .srcAddr
  | 0x014 => some .srcLen
  | 0x018 => some .dstAddr
  | 0x01C => some .dstCap
  | 0x020 => some .outLen
  | 0x024 => some .errPos
  | 0x028 => some .root
  | 0x02C => some .nodeIdx
  | 0x030 => some .nodeKind
  | 0x034 => some .nodeSym
  | 0x038 => some .nodeLeft
  | 0x03C => some .nodeRight
  | 0x040 => some .nodeCount
  | 0x044 => some .leafCount
  | 0x048 => some .ctSym
  | 0x04C => some .ctLen
  | 0x050 => some .ctBits
  | _ => none

/-- What an offset of the block's window addresses (R60, R70). -/
inductive Place where
  | reg (r : Reg)
  | buf (k : Nat)
  | reserved
deriving DecidableEq, Repr

/-- R34, R61, R70: registers, then the BUF window, every other offset reserved. -/
def placeAt (bufBytes off : Nat) : Place :=
  match regAt off with
  | some r => .reg r
  | none =>
    if Config.BUF_BASE ≤ off ∧ off - Config.BUF_BASE + 4 ≤ bufBytes then .buf (off - Config.BUF_BASE)
    else .reserved

/-- R35: the places that are reached even while BUSY = 1. -/
def Place.openWhileBusy : Place → Bool
  | .reg .id | .reg .ctrl | .reg .status | .reserved => true
  | .reg _ | .buf _ => false

/-- R22: "HBC1". -/
def ID_VALUE : Word := 0x48424331#32

/-- R21 to R32: what a performed read of a register returns. -/
def State.readReg (s : State) : Reg → Word
  | .id => ID_VALUE
  | .ctrl => s.ctrlWord
  | .status => s.statusWord
  | .cmd => 0
  | .srcAddr => s.srcAddr
  | .srcLen => s.srcLen
  | .dstAddr => s.dstAddr
  | .dstCap => s.dstCap
  | .outLen => s.outLen
  | .errPos => s.errPos
  | .root => s.root
  | .nodeIdx => s.nodeIdx
  | .nodeKind => BitVec.ofNat 32 s.nodeKind.toNat
  | .nodeSym => s.nodeSym
  | .nodeLeft => s.nodeLeft
  | .nodeRight => s.nodeRight
  | .nodeCount => s.nodeCount
  | .leafCount => s.leafCount
  | .ctSym => s.ctSym
  | .ctLen => s.ctLen
  | .ctBits => s.ctBits

/-- What a performed read of a place returns (R34, R61). -/
def State.readPlace (s : State) : Place → Word
  | .reg r => s.readReg r
  | .buf k => s.readWord k
  | .reserved => 0

/-- R23: a host write to CTRL. With SRST = 1 it is the soft reset, after which IE is 0. -/
def State.writeCtrl (s : State) (v : Word) : State :=
  if v.getLsbD 1 then s.softReset else { s with ie := v.getLsbD 0 }

/-- R29: a host write to ROOT also clears TREE_VALID, whatever the value. -/
def State.writeRoot (s : State) (v : Word) : State := { s with root := v }.clearTree

/-- R21 to R32: a performed write of a register. Read-only registers ignore it; a CMD write while idle is an accepted
offer (spec/40_command_protocol.md R100). -/
def State.writeReg (s : State) (v : Word) : Reg → State
  | .id => s
  | .ctrl => s.writeCtrl v
  | .status => s.writeStatus v
  | .cmd => s.accept v
  | .srcAddr => { s with srcAddr := v }
  | .srcLen => { s with srcLen := v }
  | .dstAddr => { s with dstAddr := v }
  | .dstCap => { s with dstCap := v }
  | .outLen => s
  | .errPos => s
  | .root => s.writeRoot v
  | .nodeIdx => { s with nodeIdx := v }
  | .nodeKind => { s with nodeKind := v.getLsbD 0 }
  | .nodeSym => { s with nodeSym := v }
  | .nodeLeft => { s with nodeLeft := v }
  | .nodeRight => { s with nodeRight := v }
  | .nodeCount => s
  | .leafCount => s
  | .ctSym => { s with ctSym := v }
  | .ctLen => { s with ctLen := v }
  | .ctBits => { s with ctBits := v }

/-- What a performed write of a place does (R34, R61). -/
def State.writePlace (s : State) (v : Word) : Place → State
  | .reg r => s.writeReg v r
  | .buf k => s.writeWord k v
  | .reserved => s

/-- R35: does BUSY drop an access to this place? -/
def State.dropsAccess (s : State) (p : Place) : Bool := s.busy && !p.openWhileBusy

/-- A defined host access to a place: performed, or dropped with DROP set, a dropped read returning 0 (R35, R102). -/
def State.accessPlace (s : State) (p : Place) : Dir → State
  | .read =>
    if s.dropsAccess p then { s with drop := true, readData := some 0 }
    else { s with readData := some (s.readPlace p) }
  | .write v => if s.dropsAccess p then { s with drop := true } else s.writePlace v p

/-- Is a bus address in the window the platform gives this block (R70)? -/
def inWindow (p : Config.Params) (addr : Nat) : Bool := p.hbcBase ≤ addr && addr < p.hbcBase + p.windowBytes

/-- A host access. One that the window does not hold is not this block's; one the block does not define is refused (R66),
and so is one while the reset input is asserted (R230). -/
def hostAccess (a : Access) (s : State) : Result :=
  if !inWindow s.params a.addr then .next s
  else if s.resetIn then .refused .accessInReset
  else if a.wf (a.addr - s.params.hbcBase) then
    .next (s.accessPlace (placeAt s.params.bufBytes (a.addr - s.params.hbcBase)) a.dir)
  else .refused .undefinedAccess

/-- The host's read of STATUS. -/
def statusRead (p : Config.Params) : Access := { addr := p.hbcBase + 0x008, dir := .read }

/-- R88: bit 1 (DONE) of what the last host read returned. -/
def State.readDone (s : State) : Bool := s.readData.any fun v => v.getLsbD 1

end Sys2Proof.Machine
end

