-- ==== Sys2Proof/Machine/Sequencer.lean ====
section
/-! DEFINITION. What an event does at the block: the running command executes, the host accesses, both in one cycle, the host
waits, the reset input moves (spec/10_state.md R41, spec/20_memory.md R72, spec/30_encoding.md R89, spec/60_exceptions.md
R205). -/

namespace Sys2Proof.Machine

/-- The running command executes and completes (R101: `Exec(Cmd)`; R104). An illegal word completes with IllegalCommand
(R103). While the sequencer is idle nothing happens (R41). -/
def runCommand (s : State) : Host.Outcome State Fault Refusal :=
  match s.seq with
  | none => .next s
  | some r =>
    match Sys2Proof.decode r.cmd with
    | .ok i => exec i s
    | .error _ => completeIllegal s

/-- R205: the host access of the cycle in which the running command completes stands first, so that setting DONE wins over
a STATUS write, a drop and the completion both take effect, and a soft reset leaves nothing to complete. A command accepted
by this very access does not complete in its cycle (R6: at least one cycle). -/
def accessAndComplete (a : Access) (s : State) : Host.Outcome State Fault Refusal :=
  match hostAccess a s with
  | .next t => if s.busy then runCommand t else .next t
  | .fault f => .fault f
  | .refused r => .refused r

/-- One step of a WAIT (R88, R89), what the host does after it standing in `s`: when no poll is left before the completion,
the running command completes; else the host reads STATUS, and the WAIT ends exactly if that read returned DONE = 1. -/
def waitDone (polls : Nat) (s : State) : Host.Outcome State Fault Refusal :=
  if polls = 0 ∧ s.busy then runCommand { s with events := .wait 0 :: s.events }
  else
    match hostAccess (statusRead s.params) s with
    | .next t => .next { t with events := if t.readDone then t.events else .wait (polls - 1) :: t.events }
    | .fault f => .fault f
    | .refused r => .refused r

/-- What one event does, the events after it standing in `s`. -/
def applyEvent (s : State) : Event → Host.Outcome State Fault Refusal
  | .access a => hostAccess a s
  | .finish => runCommand s
  | .accessFinish a => accessAndComplete a s
  | .wait polls => waitDone polls s
  | .resetAssert => .next { s.powerOn with resetIn := true }
  | .resetRelease => .next (if s.resetIn then { s.powerOn with resetIn := false } else s)

end Sys2Proof.Machine
end

