-- ==== Sys2Proof/Machine/Step.lean ====
section
/-! DEFINITION. One step of the machine: the next event, at the block (spec/10_state.md R41, spec/20_memory.md R72). -/

namespace Sys2Proof.Machine

/-- One step. With no event to come the running command completes (R107), and an idle block waits (R230). -/
def step (s : State) : Host.Outcome State Fault Refusal :=
  match s.events with
  | [] => runCommand s
  | e :: es => applyEvent { s with events := es } e

/-- The command word `w` latched as accepted, its completion next: the block then runs exactly that command (R100, R101).
HBC fetches no command (R41, R75), so this is how a word comes to run (notes/assumptions/3.md). -/
def State.withFetchWord (s : State) (_nbits w : Nat) : State :=
  { ({ s with seq := none }.accept (BitVec.ofNat 32 w)) with resetIn := false, events := .finish :: s.events }

end Sys2Proof.Machine
end

