-- ==== Sys2Proof/Machine/HostProgram.lean ====
section
/-! DEFINITION. The notation of host programs (spec/30_encoding.md R88, R89) and the events a program puts at the block.
Nothing in a step depends on this file; it says how a program written in the spec's notation is given to the machine. -/

namespace Sys2Proof.Machine

/-- R21: the offset of a register. -/
def Reg.offset : Reg → Nat
  | .id => 0x000
  | .ctrl => 0x004
  | .status => 0x008
  | .cmd => 0x00C
  | .srcAddr => 0x010
  | .srcLen => 0x014
  | .dstAddr => 0x018
  | .dstCap => 0x01C
  | .outLen => 0x020
  | .errPos => 0x024
  | .root => 0x028
  | .nodeIdx => 0x02C
  | .nodeKind => 0x030
  | .nodeSym => 0x034
  | .nodeLeft => 0x038
  | .nodeRight => 0x03C
  | .nodeCount => 0x040
  | .leafCount => 0x044
  | .ctSym => 0x048
  | .ctLen => 0x04C
  | .ctBits => 0x050

/-- One line of a host program (R88): `W`, `R`, `WB`, `RB`, `WAIT`, `RUN`, `ACK`, `SRC`, `DST`, `NODE`, `CODEW`,
`EXPECT_OK`. -/
inductive Line where
  | write (reg : Reg) (v : Word)
  | read (reg : Reg)
  | writeBuf (k : Nat) (v : Word)
  | readBuf (k : Nat)
  | wait
  | run (op : Instr)
  | ack
  | src (a n : Word)
  | dst (a c : Word)
  | node (i kind sym l r : Word)
  | codew (s len bits : Word)
  | expectOk
deriving DecidableEq, Repr

/-- A host write at an offset of the block's window. -/
def writeAt (p : Config.Params) (off : Nat) (v : Word) : Event := .access { addr := p.hbcBase + off, dir := .write v }

/-- A host read at an offset of the block's window. -/
def readAt (p : Config.Params) (off : Nat) : Event := .access { addr := p.hbcBase + off, dir := .read }

/-- R88, R89: WAIT polls STATUS until a read returns DONE = 1. `polls` reads come before a running command completes. -/
def waitEvents (polls : Nat) : List Event := [.wait polls]

/-- R88: `RUN op`. -/
def runEvents (p : Config.Params) (polls : Nat) (op : Instr) : List Event :=
  writeAt p Reg.cmd.offset (Sys2Proof.encode op) :: waitEvents polls

/-- R88: the expansion of a line. `polls` is the number of STATUS reads a WAIT makes before the command completes. -/
def Line.expand (p : Config.Params) (polls : Nat) : Line → List Event
  | .write reg v => [writeAt p reg.offset v]
  | .read reg => [readAt p reg.offset]
  | .writeBuf k v => [writeAt p (Config.BUF_BASE + k) v]
  | .readBuf k => [readAt p (Config.BUF_BASE + k)]
  | .wait => waitEvents polls
  | .run op => runEvents p polls op
  | .ack => [writeAt p Reg.status.offset 0x0000000A#32]
  | .src a n => [writeAt p Reg.srcAddr.offset a, writeAt p Reg.srcLen.offset n]
  | .dst a c => [writeAt p Reg.dstAddr.offset a, writeAt p Reg.dstCap.offset c]
  | .node i kind sym l r =>
    [writeAt p Reg.nodeIdx.offset i, writeAt p Reg.nodeKind.offset kind, writeAt p Reg.nodeSym.offset sym,
      writeAt p Reg.nodeLeft.offset l, writeAt p Reg.nodeRight.offset r] ++ runEvents p polls .nodeWrite
  | .codew s len bits =>
    [writeAt p Reg.ctSym.offset s, writeAt p Reg.ctLen.offset len, writeAt p Reg.ctBits.offset bits]
      ++ runEvents p polls .ctWrite
  | .expectOk => [readAt p Reg.status.offset]

end Sys2Proof.Machine
end

