-- ==== Sys2Proof/Safety.lean ====
section
/-! DEFINITION. The terms that statements about the machine are written in: the tree a well-formed (ROOT, NODE) holds and
what the spec says of it (spec/10_state.md R37, spec/30_encoding.md R86, spec/41_tree_and_code_table.md R127), the static
checks spelled out (spec/40_command_protocol.md R103), the effect of a failure (R105), and the invariants. Nothing here is
used by a step. -/

namespace Sys2Proof.Machine

/-! ### Trees as values -/

/-- The tree of HCP §3: a leaf with its symbol, or an internal node with two children. -/
inductive HTree where
  | leaf (sym : Word)
  | node (l r : HTree)
deriving DecidableEq, Repr

namespace HTree

/-- The number of nodes. -/
def size : HTree → Nat
  | leaf _ => 1
  | node l r => 1 + l.size + r.size

/-- The number of leaves. -/
def leaves : HTree → Nat
  | leaf _ => 1
  | node l r => l.leaves + r.leaves

/-- The tree stream of R86 and R171: a leaf is 1 and its 16-bit symbol, an internal node is 0 and its two subtrees. -/
def stream : HTree → List Bool
  | leaf s => true :: bits16 s
  | node l r => false :: (l.stream ++ r.stream)

/-- The nodes in pre-order: `some (symbol, path)` for a leaf, `none` for an internal node. -/
def entries : HTree → (path : List Bool) → List (Option (Word × List Bool))
  | leaf s, p => [some (s, p)]
  | node l r, p => none :: (l.entries (p ++ [false]) ++ r.entries (p ++ [true]))

/-- The nodes in pre-order, from the root. -/
def preorder (t : HTree) : List (Option (Word × List Bool)) := t.entries []

/-- The subtree at a path. -/
def at? : HTree → List Bool → Option HTree
  | t, [] => some t
  | leaf _, _ :: _ => none
  | node l r, b :: p => if b then r.at? p else l.at? p

/-- The symbol of the leaf at a path; `none` where the path does not end at a leaf. -/
def symAt (t : HTree) (p : List Bool) : Option Word :=
  match t.at? p with
  | some (leaf s) => some s
  | some (node _ _) | none => none

/-- The leaves in pre-order, with their codes (R127): the path, or "0" for a root that is a leaf. -/
def codes : HTree → List (Word × Code)
  | leaf s => [(s, [false])]
  | node l r => (node l r).preorder.filterMap id

/-- Every leaf's symbol is a 16-bit one. -/
def symbolsFit (t : HTree) : Prop := ∀ x ∈ t.codes, x.1.toNat ≤ 0xFFFF

end HTree

/-- R86: how many bits of a tree stream the nodes listed take: 17 a leaf, 1 an internal node. -/
def streamBits (es : List (Option (Word × List Bool))) : Nat := (es.map fun x => if x.isSome then 17 else 1).sum

/-- R37: index `c` of NODE is the root of tree `t`, whose nodes in pre-order are the indices `ixs`. -/
inductive TreeAt (nodeAt : Nat → Node) : Nat → HTree → List Nat → Prop where
  | leaf (c : Nat) (h : (nodeAt c).kind = true) : TreeAt nodeAt c (.leaf (nodeAt c).sym) [c]
  | node (c : Nat) (l r : HTree) (il ir : List Nat) (h : (nodeAt c).kind = false)
      (hl : TreeAt nodeAt (nodeAt c).left.toNat l il) (hr : TreeAt nodeAt (nodeAt c).right.toNat r ir) :
      TreeAt nodeAt c (.node l r) (c :: (il ++ ir))

/-- R37, WF: from index `root` NODE holds the tree `t` at the indices `ixs`, all below NODE_CAP and none reached twice. -/
structure State.HasTree (s : State) (root : Nat) (t : HTree) (ixs : List Nat) : Prop where
  shape : TreeAt s.nodeAt root t ixs
  nodup : ixs.Nodup
  bound : ∀ i ∈ ixs, i < 131071

/-- One turn of the loop of R122 that does not fail: from (stack, seen), its top first. -/
inductive WalkStep (nodeAt : Nat → Node) : List Nat × List Nat → List Nat × List Nat → Prop where
  | leaf (c : Nat) (stack seen : List Nat) (hc : c < 131071) (hs : c ∉ seen) (hk : (nodeAt c).kind = true) :
      WalkStep nodeAt (c :: stack, seen) (stack, c :: seen)
  | node (c : Nat) (stack seen : List Nat) (hc : c < 131071) (hs : c ∉ seen) (hk : (nodeAt c).kind = false) :
      WalkStep nodeAt (c :: stack, seen) ((nodeAt c).left.toNat :: (nodeAt c).right.toNat :: stack, c :: seen)

/-! ### The static checks, spelled out (R67, R68, R103) -/

/-- `region(a, m)` and `region(b, n)` share no offset. -/
def RegionsApart (a m b n : Nat) : Prop := m = 0 ∨ n = 0 ∨ a + m ≤ b ∨ b + n ≤ a

/-- ENCODE's static checks pass. -/
def EncodeRangesOk (o : Operands) (bufBytes : Nat) : Prop :=
  o.srcAddr.toNat % 4 = 0 ∧ o.srcAddr.toNat + 4 * o.srcLen.toNat ≤ bufBytes ∧
  o.dstAddr.toNat + o.dstCap.toNat ≤ bufBytes ∧
  RegionsApart o.srcAddr.toNat (4 * o.srcLen.toNat) o.dstAddr.toNat o.dstCap.toNat

/-- DECODE's static check 2 passes. -/
def DecodeRangesOk (o : Operands) (bufBytes : Nat) : Prop :=
  o.dstAddr.toNat % 4 = 0 ∧ o.srcAddr.toNat + (o.srcLen.toNat + 7) / 8 ≤ bufBytes ∧
  o.dstAddr.toNat + o.dstCap.toNat ≤ bufBytes ∧
  RegionsApart o.srcAddr.toNat ((o.srcLen.toNat + 7) / 8) o.dstAddr.toNat o.dstCap.toNat

/-- TREE_SER's static check 2 passes. -/
def TreeSerRangesOk (o : Operands) (bufBytes : Nat) : Prop := o.dstAddr.toNat + o.dstCap.toNat ≤ bufBytes

/-- TREE_DESER's static check 2 passes. -/
def TreeDeserRangesOk (o : Operands) (bufBytes : Nat) : Prop :=
  o.srcAddr.toNat + (o.srcLen.toNat + 7) / 8 ≤ bufBytes

/-! ### What a command leaves -/

/-- R104, R105: `t` is `s` after a failure of ENCODE, DECODE or TREE_SER with error `e` at position `pos`: every byte
outside `region(dst, cap)` is unchanged, and so is everything else but the record of the error. -/
def FailedInto (s t : State) (e : ErrCode) (pos dst cap : Nat) : Prop :=
  t.errPos.toNat = pos ∧
  (∀ k, k < dst ∨ dst + cap ≤ k → t.bufByte k = s.bufByte k) ∧
  { t with buf := s.buf, draws := s.draws, errPos := 0 } =
    { s with seq := none, done := true, errcode := e, errPos := 0, outLen := 0 }

/-- R64, R104: `t` is `s` after a success that stores the bit sequence `p` at byte offset `dst`: its bits, the zero pad
bits, every other byte and everything else unchanged, OUT_LEN the length. -/
def StoredBits (s t : State) (dst : Nat) (p : List Bool) : Prop :=
  t.outLen.toNat = p.length ∧
  t.readBits dst p.length = p ∧
  (∀ i, p.length ≤ i → i < 8 * ((p.length + 7) / 8) → t.bitRead dst i = false) ∧
  (∀ k, k < dst ∨ dst + (p.length + 7) / 8 ≤ k → t.bufByte k = s.bufByte k) ∧
  { t with buf := s.buf, outLen := 0 } =
    { s with seq := none, done := true, errcode := .ok, errPos := 0, outLen := 0 }

/-- R62, R104: `t` is `s` after a success that stores the symbol words `ws` at byte offset `dst`: every other byte and
everything else unchanged, OUT_LEN their number. -/
def StoredWords (s t : State) (dst : Nat) (ws : List Word) : Prop :=
  t.outLen.toNat = ws.length ∧
  (∀ j (h : j < ws.length), t.readWord (dst + 4 * j) = ws[j]) ∧
  (∀ k, k < dst ∨ dst + 4 * ws.length ≤ k → t.bufByte k = s.bufByte k) ∧
  { t with buf := s.buf, outLen := 0 } =
    { s with seq := none, done := true, errcode := .ok, errPos := 0, outLen := 0 }

/-- Two states a command cannot tell apart (R106): the same operands and the same contents of BUF, NODE and CODE. -/
def SameInputs (s t : State) : Prop :=
  s.operands = t.operands ∧ s.params = t.params ∧ (∀ k, s.bufByte k = t.bufByte k) ∧
  (∀ i, s.nodeAt i = t.nodeAt i) ∧ s.code = t.code

/-! ### Invariants -/

/-- The stores keep their form: the parameters are admissible, keys rise strictly and stay inside BUF and NODE, and CODE
holds non-empty codes of at most 32 bits for 16-bit symbols (R6, R36, R39, R60). -/
structure State.StoresOk (s : State) : Prop where
  params : s.params.wf = true
  buf : Memory.wf s.buf
  bufBound : ∀ c ∈ s.buf, c.1 < s.params.bufBytes
  node : Ram.wf s.node
  nodeBound : ∀ c ∈ s.node, c.1 < 131071
  code : Ram.wf s.code
  codeBound : ∀ c ∈ s.code, c.1 ≤ 0xFFFF ∧ 1 ≤ c.2.length ∧ c.2.length ≤ 32

/-- The latched operands are the live registers' values (R101: "the latched values equal the live register values
throughout execution"), TREE_VALID apart, whose latched value precedes the acceptance's clearing. -/
def LatchedAre (s : State) (r : Running) : Prop := r.lat = { s.liveOperands with treeValid := r.lat.treeValid }

/-- The sequencer's record (R101): while a command runs, the result registers stand cleared, the latch holds the live
registers' values, and TREE_VALID is 0 for the three commands that clear it and its latched value for the others. Its last
clause, that the sequencer is idle while the reset input is asserted, is the model's choice (notes/assumptions/7.md): R230
fixes the state only at the deassertion. -/
structure State.SequencerOk (s : State) : Prop where
  cleared : ∀ r, s.seq = some r → s.done = false ∧ s.errcode = .ok ∧ s.outLen = 0 ∧ s.errPos = 0
  latched : ∀ r, s.seq = some r → LatchedAre s r
  treeCleared : ∀ r, s.seq = some r → r.cmd = 1#32 ∨ r.cmd = 3#32 ∨ r.cmd = 11#32 → s.treeValid = false
  treeLatched : ∀ r, s.seq = some r → ¬(r.cmd = 1#32 ∨ r.cmd = 3#32 ∨ r.cmd = 11#32) → r.lat.treeValid = s.treeValid
  inReset : s.resetIn = true → s.seq = none

/-- R31, R37, R38: TREE_VALID = 1 means that ROOT and NODE hold a well-formed tree, with its counts in NODE_COUNT and
LEAF_COUNT; while it is 0 both read 0. -/
structure State.TreeOk (s : State) : Prop where
  valid : s.treeValid = true → ∃ t ixs, s.HasTree s.root.toNat t ixs ∧
    s.nodeCount.toNat = ixs.length ∧ s.leafCount.toNat = t.leaves
  invalid : s.treeValid = false → s.nodeCount = 0 ∧ s.leafCount = 0

end Sys2Proof.Machine
end

