-- ==== Sys2Proof/Certificates/Slice0/Obligations.lean ====
section
/-! DEFINITION. The statements about the machine, for the provers: what the spec's numbered rules say, over all states.
`OBLIGATIONS.json` lists each with the rule it formalises. -/

open Sys2Proof Sys2Proof.Machine

/-! ### Encoding (spec/30_encoding.md R80 to R83) -/

/-- R81: the twelve words of the opcode map decode to their commands. -/
def Obligations.OpcodeMapWordsDecode : Prop :=
  decode 0x00000000#32 = .ok .nop ∧ decode 0x00000001#32 = .ok .nodeWrite ∧ decode 0x00000002#32 = .ok .nodeRead ∧
  decode 0x00000003#32 = .ok .treeCommit ∧ decode 0x00000004#32 = .ok .ctClear ∧ decode 0x00000005#32 = .ok .ctWrite ∧
  decode 0x00000006#32 = .ok .ctRead ∧ decode 0x00000007#32 = .ok .ctGen ∧ decode 0x00000008#32 = .ok .encode ∧
  decode 0x00000009#32 = .ok .decode ∧ decode 0x0000000A#32 = .ok .treeSer ∧ decode 0x0000000B#32 = .ok .treeDeser

/-- R81: each command has exactly one word, its opcode zero-extended to 32 bits: a word decodes to a command only if it is
that word, and that word does. -/
def Obligations.DecodeInvertsEncodeUniquely : Prop :=
  ∀ (i : Instr) (w : Word), (decode w = .ok i ↔ w = encode i) ∧
    (encode i).extractLsb' 8 24 = 0#24 ∧ (encode i).toNat ≤ 0x0B

/-- R83: a word is valid exactly when C[31:8] = 0 and C[7:0] ≤ 0x0B; every other word, offered to an idle block, is
accepted, completes with IllegalCommand and ERR_POS = 0, and changes no other state. -/
def Obligations.IllegalWordsCompleteWithIllegalCommand : Prop :=
  ∀ w : Word,
    ((∃ i, decode w = .ok i) ↔ w.extractLsb' 8 24 = 0#24 ∧ (w.extractLsb' 0 8).toNat ≤ 0x0B) ∧
    ∀ (s : State) (es : List Event),
      s.params.wf = true → s.resetIn = false → s.seq = none →
      (w.extractLsb' 8 24 ≠ 0#24 ∨ 0x0B < (w.extractLsb' 0 8).toNat) →
      s.events = writeAt s.params 0x00C w :: .finish :: es →
      ∃ t, step s = .next t ∧ t.busy = true ∧
        step t = .next { s with events := es, done := true, errcode := .illegalCommand, errPos := 0, outLen := 0 }

/-! ### The step and the command protocol (spec/40_command_protocol.md) -/

/-- R101: the sequencer executes `Exec(Cmd)`: at the event of completion, and when no event is left, a step is `exec` of
the command the latched word decodes to; so it is where a WAIT has no poll left before the completion. While the sequencer
is idle the event of completion, and a step with no event left, do nothing. That a step with no event left completes the
command is the model's choice (log entry 11), and so is the number of polls a WAIT names (log entry 16). -/
def Obligations.StepRunsTheLatchedCommand : Prop :=
  ∀ (s : State) (r : Running) (i : Instr), s.seq = some r → decode r.cmd = .ok i →
    (∀ es, s.events = .finish :: es → step s = exec i { s with events := es }) ∧
    (s.events = [] → step s = exec i s) ∧
    (∀ es, s.events = .wait 0 :: es → step s = exec i s) ∧
    (∀ u : State, u.seq = none → u.events = [] → step u = .next u) ∧
    (∀ (u : State) (es : List Event), u.seq = none → u.events = .finish :: es → step u = .next { u with events := es })

/-- R81, R100, R101: a state given a command word to run (`withFetchWord`: the word accepted by an idle block, its completion
next) runs in its next step exactly the command the word decodes to. `withFetchWord` is the model's own (log entry 3). -/
def Obligations.FetchedWordRunsNext : Prop :=
  ∀ (s : State) (w : Nat) (i : Instr), decodeTableWord 32 w = some i →
    step (s.withFetchWord 32 w) =
      exec i { ({ s with seq := none }.accept (BitVec.ofNat 32 w)) with resetIn := false, events := s.events }

/-- R100, R101: a performed write of `w` to CMD while BUSY = 0 is accepted. -/
def Obligations.IdleOfferIsAccepted : Prop :=
  ∀ (s : State) (w : Word) (es : List Event),
    s.params.wf = true → s.resetIn = false → s.seq = none → s.events = writeAt s.params 0x00C w :: es →
    step s = .next { s with
      events := es
      seq := some
        { cmd := w
          lat :=
            { srcAddr := s.srcAddr, srcLen := s.srcLen, dstAddr := s.dstAddr, dstCap := s.dstCap, root := s.root,
              nodeIdx := s.nodeIdx, nodeKind := s.nodeKind, nodeSym := s.nodeSym, nodeLeft := s.nodeLeft,
              nodeRight := s.nodeRight, ctSym := s.ctSym, ctLen := s.ctLen, ctBits := s.ctBits,
              treeValid := s.treeValid } }
      done := false
      errcode := .ok
      outLen := 0
      errPos := 0
      treeValid := if w = 1#32 ∨ w = 3#32 ∨ w = 11#32 then false else s.treeValid
      nodeCount := if w = 1#32 ∨ w = 3#32 ∨ w = 11#32 then 0 else s.nodeCount
      leafCount := if w = 1#32 ∨ w = 3#32 ∨ w = 11#32 then 0 else s.leafCount }

/-- R35, R102: while BUSY = 1 a defined host access to any offset other than ID, CTRL, STATUS and the reserved offsets is
dropped: a read returns 0, a write (an offer to CMD too) changes nothing, and either sets DROP. -/
def Obligations.BusyDropsAccess : Prop :=
  ∀ (s : State) (off : Nat) (es : List Event),
    s.params.wf = true → s.resetIn = false → s.seq ≠ none → off % 4 = 0 →
    (off = 0x00C ∨ (0x010 ≤ off ∧ off ≤ 0x050) ∨ (0x10000 ≤ off ∧ off < 0x10000 + s.params.bufBytes)) →
    (s.events = readAt s.params off :: es →
      step s = .next { s with events := es, drop := true, readData := some 0 }) ∧
    (∀ v, s.events = writeAt s.params off v :: es → step s = .next { s with events := es, drop := true })

/-- R22, R23, R24, R35, R200: reads of ID, CTRL and STATUS are performed whatever BUSY, change nothing, and return
0x48424331, IE, and the flags with the numeric code of ERRCODE; a write to ID is ignored whatever BUSY. -/
def Obligations.IdentityAndStatusReadAtAnyTime : Prop :=
  ∀ (s : State) (es : List Event), s.params.wf = true → s.resetIn = false →
    (s.events = readAt s.params 0x000 :: es →
      step s = .next { s with events := es, readData := some 0x48424331#32 }) ∧
    (∀ v, s.events = writeAt s.params 0x000 v :: es → step s = .next { s with events := es }) ∧
    (s.events = readAt s.params 0x004 :: es →
      step s = .next { s with events := es, readData := some (if s.ie then 1#32 else 0#32) }) ∧
    (s.events = readAt s.params 0x008 :: es →
      ∃ v : Word, step s = .next { s with events := es, readData := some v } ∧
        v.getLsbD 0 = s.busy ∧ v.getLsbD 1 = s.done ∧ v.getLsbD 2 = s.treeValid ∧ v.getLsbD 3 = s.drop ∧
        v.extractLsb' 4 4 = 0#4 ∧ v.extractLsb' 12 20 = 0#20 ∧
        (s.errcode, v.extractLsb' 8 4) ∈ [(ErrCode.ok, 0#4), (.illegalCommand, 1#4), (.badRange, 2#4), (.noTree, 3#4),
          (.unknownSymbol, 4#4), (.unsupportedSymbol, 5#4), (.corruptTree, 6#4), (.truncatedStream, 7#4),
          (.outputOverflow, 8#4), (.capacityExceeded, 9#4)])

/-- R34: a read of a reserved offset returns 0 and a write to one is ignored; neither changes state or sets DROP, whatever
BUSY. -/
def Obligations.ReservedOffsetsReadZeroIgnoreWrites : Prop :=
  ∀ (s : State) (off : Nat) (es : List Event), s.params.wf = true → s.resetIn = false → off % 4 = 0 →
    off < s.params.windowBytes →
    ((0x054 ≤ off ∧ off < 0x10000) ∨ 0x10000 + s.params.bufBytes ≤ off) →
    (s.events = readAt s.params off :: es → step s = .next { s with events := es, readData := some 0 }) ∧
    (∀ v, s.events = writeAt s.params off v :: es → step s = .next { s with events := es })

/-- R66, R230: an access to the block's window of another width, with partial byte enables or at a misaligned offset is
refused, and so is any access while the reset input is asserted. -/
def Obligations.UndefinedAccessesAreRefused : Prop :=
  ∀ (s : State) (a : Access) (es : List Event),
    s.params.hbcBase ≤ a.addr → a.addr < s.params.hbcBase + s.params.windowBytes → s.events = .access a :: es →
    (s.resetIn = true → step s = .refused .accessInReset) ∧
    (s.resetIn = false → a.width ≠ 32 ∨ a.lanes ≠ 0xF#4 ∨ (a.addr - s.params.hbcBase) % 4 ≠ 0 →
      step s = .refused .undefinedAccess)

/-- R23: a CTRL write with SRST = 0 sets IE to bit 0 and nothing else, whatever BUSY. -/
def Obligations.CtrlWriteSetsInterruptEnable : Prop :=
  ∀ (s : State) (v : Word) (es : List Event), s.params.wf = true → s.resetIn = false → v.getLsbD 1 = false →
    s.events = writeAt s.params 0x004 v :: es → step s = .next { s with events := es, ie := v.getLsbD 0 }

/-- R24: a STATUS write clears DONE where bit 1 is 1 and DROP where bit 3 is 1, and changes nothing else, whatever BUSY. -/
def Obligations.StatusWriteClearsDoneAndDrop : Prop :=
  ∀ (s : State) (v : Word) (es : List Event), s.params.wf = true → s.resetIn = false →
    s.events = writeAt s.params 0x008 v :: es →
    step s = .next { s with
      events := es
      done := if v.getLsbD 1 then false else s.done
      drop := if v.getLsbD 3 then false else s.drop }

/-- R26, R30, R32: while BUSY = 0 a write of an operand or window register stores the value (of NODE_KIND only bit 0) and
changes nothing else. -/
def Obligations.IdleRegisterWritesStore : Prop :=
  ∀ (s : State) (v : Word) (es : List Event), s.params.wf = true → s.resetIn = false → s.seq = none →
    (s.events = writeAt s.params 0x010 v :: es → step s = .next { s with events := es, srcAddr := v }) ∧
    (s.events = writeAt s.params 0x014 v :: es → step s = .next { s with events := es, srcLen := v }) ∧
    (s.events = writeAt s.params 0x018 v :: es → step s = .next { s with events := es, dstAddr := v }) ∧
    (s.events = writeAt s.params 0x01C v :: es → step s = .next { s with events := es, dstCap := v }) ∧
    (s.events = writeAt s.params 0x02C v :: es → step s = .next { s with events := es, nodeIdx := v }) ∧
    (s.events = writeAt s.params 0x030 v :: es → step s = .next { s with events := es, nodeKind := v.getLsbD 0 }) ∧
    (s.events = writeAt s.params 0x034 v :: es → step s = .next { s with events := es, nodeSym := v }) ∧
    (s.events = writeAt s.params 0x038 v :: es → step s = .next { s with events := es, nodeLeft := v }) ∧
    (s.events = writeAt s.params 0x03C v :: es → step s = .next { s with events := es, nodeRight := v }) ∧
    (s.events = writeAt s.params 0x048 v :: es → step s = .next { s with events := es, ctSym := v }) ∧
    (s.events = writeAt s.params 0x04C v :: es → step s = .next { s with events := es, ctLen := v }) ∧
    (s.events = writeAt s.params 0x050 v :: es → step s = .next { s with events := es, ctBits := v })

/-- R29, R38: a write to ROOT while BUSY = 0 stores the value and clears TREE_VALID, NODE_COUNT and LEAF_COUNT, whatever
the value. -/
def Obligations.RootWriteInvalidatesTheTree : Prop :=
  ∀ (s : State) (v : Word) (es : List Event), s.params.wf = true → s.resetIn = false → s.seq = none →
    s.events = writeAt s.params 0x028 v :: es →
    step s = .next { s with events := es, root := v, treeValid := false, nodeCount := 0, leafCount := 0 }

/-- R21: OUT_LEN, ERR_POS, NODE_COUNT and LEAF_COUNT ignore a write while BUSY = 0. -/
def Obligations.ReadOnlyRegistersIgnoreWrites : Prop :=
  ∀ (s : State) (off : Nat) (v : Word) (es : List Event), s.params.wf = true → s.resetIn = false → s.seq = none →
    off = 0x020 ∨ off = 0x024 ∨ off = 0x040 ∨ off = 0x044 →
    s.events = writeAt s.params off v :: es → step s = .next { s with events := es }

/-- R21, R25 to R32: while BUSY = 0 a read returns the register at its offset and changes nothing; CMD reads 0 and
NODE_KIND's bits [31:1] read 0. -/
def Obligations.IdleRegisterReadsReturnTheRegister : Prop :=
  ∀ (s : State) (es : List Event), s.params.wf = true → s.resetIn = false → s.seq = none →
    ∀ x ∈ [(0x00C, 0#32), (0x010, s.srcAddr), (0x014, s.srcLen), (0x018, s.dstAddr), (0x01C, s.dstCap),
        (0x020, s.outLen), (0x024, s.errPos), (0x028, s.root), (0x02C, s.nodeIdx),
        (0x030, if s.nodeKind then 1#32 else 0#32), (0x034, s.nodeSym), (0x038, s.nodeLeft), (0x03C, s.nodeRight),
        (0x040, s.nodeCount), (0x044, s.leafCount), (0x048, s.ctSym), (0x04C, s.ctLen), (0x050, s.ctBits)],
      s.events = readAt s.params x.1 :: es → step s = .next { s with events := es, readData := some x.2 }

/-- R61: while BUSY = 0 a write at offset 0x10000 + k sets `BUF[k]` to `BUF[k+3]` to the value's bytes, most significant
first, and leaves every other byte and everything else; a read there returns the four bytes, `BUF[k]` in bits [31:24], and
changes nothing. While BUSY = 1 both are dropped. -/
def Obligations.BufWindowIsBigEndian : Prop :=
  ∀ (s : State) (k : Nat) (es : List Event), s.params.wf = true → s.resetIn = false →
    k % 4 = 0 → k + 4 ≤ s.params.bufBytes →
    (∀ v, s.seq = none → s.events = writeAt s.params (0x10000 + k) v :: es →
      ∃ t, step s = .next t ∧
        t.bufByte k = v.extractLsb' 24 8 ∧ t.bufByte (k + 1) = v.extractLsb' 16 8 ∧
        t.bufByte (k + 2) = v.extractLsb' 8 8 ∧ t.bufByte (k + 3) = v.extractLsb' 0 8 ∧
        (∀ j, j < k ∨ k + 4 ≤ j → t.bufByte j = s.bufByte j) ∧
        { t with buf := s.buf } = { s with events := es }) ∧
    (s.seq = none → s.events = readAt s.params (0x10000 + k) :: es →
      ∃ v : Word, step s = .next { s with events := es, readData := some v } ∧
        v.toNat = (s.bufByte k).toNat * 2 ^ 24 + (s.bufByte (k + 1)).toNat * 2 ^ 16
          + (s.bufByte (k + 2)).toNat * 2 ^ 8 + (s.bufByte (k + 3)).toNat) ∧
    (∀ v, s.seq ≠ none → s.events = writeAt s.params (0x10000 + k) v :: es →
      step s = .next { s with events := es, drop := true }) ∧
    (s.seq ≠ none → s.events = readAt s.params (0x10000 + k) :: es →
      step s = .next { s with events := es, drop := true, readData := some 0 })

/-- R104, R45, R33: whatever the command, a completion sets DONE and clears BUSY, so that the interrupt output is then IE; a
success leaves ERR_POS 0 and a failure leaves OUT_LEN 0. What it writes stays within R33's bounds: OUT_LEN at most
8·BUF_BYTES bits, or BUF_BYTES/4 symbols after DECODE, and at most NODE_CAP, a number of entries, after CT_GEN; ERR_POS at
most SRC_LEN or NODE_CAP − 1, whichever is more; NODE_COUNT after a success of TREE_COMMIT or TREE_DESER at most NODE_CAP;
CT_LEN after a success of CT_READ at most MAX_CODE_LEN, where CODE holds no longer code. ERR_POS after TREE_COMMIT is at
most NODE_CAP: its rule R122 is followed (log entry 15). -/
def Obligations.EveryCompletionSetsDone : Prop :=
  ∀ (i : Instr) (s t : State), exec i s = .next t →
    t.seq = none ∧ t.done = true ∧ t.irq = s.ie ∧ (t.errcode = .ok → t.errPos = 0) ∧
    (t.errcode ≠ .ok → t.outLen = 0) ∧ (i ≠ .ctGen → t.outLen.toNat ≤ 8 * s.params.bufBytes) ∧
    (i = .decode → 4 * t.outLen.toNat ≤ s.params.bufBytes) ∧ (i = .ctGen → t.outLen.toNat ≤ 131071) ∧
    (i ≠ .treeCommit → t.errPos.toNat ≤ max s.operands.srcLen.toNat 131070) ∧
    (i = .treeCommit → t.errPos.toNat ≤ 131071) ∧
    (i = .treeCommit ∨ i = .treeDeser → t.errcode = .ok → t.nodeCount.toNat ≤ 131071) ∧
    (i = .ctRead → s.StoresOk → t.errcode = .ok → t.ctLen.toNat ≤ 32)

/-- R21's column "HW writes it", R23, R26, R35, R38, R45: no command writes CTRL, the parameter registers, NODE_IDX, CT_SYM or
DROP; and each of the other pieces of state is written only by the commands the rules name. -/
def Obligations.CommandsWriteOnlyWhatTheirRulesName : Prop :=
  ∀ (i : Instr) (s t : State), exec i s = .next t →
    (t.params = s.params ∧ t.ie = s.ie ∧ t.drop = s.drop ∧ t.srcAddr = s.srcAddr ∧ t.srcLen = s.srcLen ∧
      t.dstAddr = s.dstAddr ∧ t.dstCap = s.dstCap ∧ t.nodeIdx = s.nodeIdx ∧ t.ctSym = s.ctSym ∧ t.epoch = s.epoch ∧
      t.resetIn = s.resetIn ∧ t.readData = s.readData ∧ t.events = s.events) ∧
    (i ≠ .treeDeser → t.root = s.root) ∧
    (i ≠ .nodeRead → t.nodeKind = s.nodeKind ∧ t.nodeSym = s.nodeSym ∧ t.nodeLeft = s.nodeLeft ∧
      t.nodeRight = s.nodeRight) ∧
    (i ≠ .ctRead → t.ctLen = s.ctLen ∧ t.ctBits = s.ctBits) ∧
    (i ≠ .treeCommit → i ≠ .treeDeser → t.treeValid = s.treeValid ∧ t.nodeCount = s.nodeCount ∧
      t.leafCount = s.leafCount) ∧
    (i ≠ .nodeWrite → i ≠ .treeDeser → ∀ k, t.nodeAt k = s.nodeAt k) ∧
    (i ≠ .ctClear → i ≠ .ctWrite → i ≠ .ctGen → t.code = s.code) ∧
    (i ≠ .encode → i ≠ .decode → i ≠ .treeSer → ∀ k, t.bufByte k = s.bufByte k)

/-- R105: ENCODE, DECODE and TREE_SER, however they end, leave every byte outside `region(DST_ADDR, DST_CAP)`. -/
def Obligations.StoringCommandsKeepToTheirDestination : Prop :=
  ∀ (i : Instr) (s t : State), i = .encode ∨ i = .decode ∨ i = .treeSer → exec i s = .next t →
    ∀ k, k < s.operands.dstAddr.toNat ∨ s.operands.dstAddr.toNat + s.operands.dstCap.toNat ≤ k →
      t.bufByte k = s.bufByte k

/-- R201, R33: the errors each command can report, and how large ERR_POS can be: at most SRC_LEN or NODE_CAP − 1, whichever is
more. TREE_COMMIT can report NODE_CAP: its rule R122 numbers the bad reference after NODE_CAP visited nodes so, and is
followed where R33's derived bound is one less (log entry 15). -/
def Obligations.ErrorMatrix : Prop :=
  ∀ (i : Instr) (s t : State), exec i s = .next t →
    (i ≠ .treeCommit → t.errPos.toNat ≤ max s.operands.srcLen.toNat 131070) ∧
    (i = .treeCommit → t.errPos.toNat ≤ 131071) ∧
    t.errcode ∈ (match i with
      | .nop => [ErrCode.ok]
      | .nodeWrite => [.ok, .badRange]
      | .nodeRead => [.ok, .badRange]
      | .treeCommit => [.ok, .corruptTree]
      | .ctClear => [.ok]
      | .ctWrite => [.ok, .unsupportedSymbol, .capacityExceeded]
      | .ctRead => [.ok, .unsupportedSymbol]
      | .ctGen => [.ok, .noTree, .unsupportedSymbol, .corruptTree, .capacityExceeded]
      | .encode => [.ok, .badRange, .unknownSymbol, .unsupportedSymbol, .outputOverflow]
      | .decode => [.ok, .badRange, .noTree, .truncatedStream, .outputOverflow]
      | .treeSer => [.ok, .badRange, .noTree, .unsupportedSymbol, .outputOverflow]
      | .treeDeser => [.ok, .badRange, .corruptTree, .capacityExceeded])

/-- R103, R67, R68: a command whose regions are out of range, misaligned or overlapping ends with BadRange and ERR_POS = 0
and reads and writes nothing else. -/
def Obligations.BadRangeEndsTheCommandAtOnce : Prop :=
  ∀ (i : Instr) (s : State),
    (i = .encode ∧ ¬EncodeRangesOk s.operands s.params.bufBytes) ∨
    (i = .decode ∧ ¬DecodeRangesOk s.operands s.params.bufBytes) ∨
    (i = .treeSer ∧ ¬TreeSerRangesOk s.operands s.params.bufBytes) ∨
    (i = .treeDeser ∧ ¬TreeDeserRangesOk s.operands s.params.bufBytes) →
    exec i s = .next { s with seq := none, done := true, errcode := .badRange, errPos := 0, outLen := 0 }

/-- R103 check 3: with TREE_VALID = 0 at acceptance CT_GEN, and DECODE and TREE_SER whose ranges are right, end with NoTree
and ERR_POS = 0 and read and write nothing else. That CODE is unchanged after CT_GEN's NoTree follows R103 and V-CT-7, where
a sentence of R126 can be read otherwise (log entry 17). -/
def Obligations.NoTreeEndsTheCommandAtOnce : Prop :=
  ∀ (i : Instr) (s : State), s.operands.treeValid = false →
    i = .ctGen ∨ (i = .decode ∧ DecodeRangesOk s.operands s.params.bufBytes) ∨
      (i = .treeSer ∧ TreeSerRangesOk s.operands s.params.bufBytes) →
    exec i s = .next { s with seq := none, done := true, errcode := .noTree, errPos := 0, outLen := 0 }

/-! ### Tree store and code table (spec/41_tree_and_code_table.md) -/

/-- R110, R123: NOP changes nothing but the completion record; CT_CLEAR also makes every entry of CODE invalid. -/
def Obligations.NopAndCtClearComplete : Prop :=
  ∀ s : State,
    exec .nop s = .next { s with seq := none, done := true, errcode := .ok, errPos := 0, outLen := 0 } ∧
    ∃ t, exec .ctClear s = .next t ∧ (∀ k, t.codeAt k = none) ∧
      { t with code := s.code } = { s with seq := none, done := true, errcode := .ok, errPos := 0, outLen := 0 }

/-- R120: with NODE_IDX < NODE_CAP, NODE_WRITE stores the window in that entry; every other entry and everything else is
unchanged. With NODE_IDX ≥ NODE_CAP it ends with BadRange and no entry changes. -/
def Obligations.NodeWriteStoresTheWindow : Prop :=
  ∀ s : State,
    (131071 ≤ s.operands.nodeIdx.toNat →
      exec .nodeWrite s = .next { s with seq := none, done := true, errcode := .badRange, errPos := 0, outLen := 0 }) ∧
    (s.operands.nodeIdx.toNat < 131071 → ∃ t, exec .nodeWrite s = .next t ∧
      t.nodeAt s.operands.nodeIdx.toNat =
        { kind := s.operands.nodeKind, sym := s.operands.nodeSym, left := s.operands.nodeLeft,
          right := s.operands.nodeRight } ∧
      (∀ k, k ≠ s.operands.nodeIdx.toNat → t.nodeAt k = s.nodeAt k) ∧
      { t with node := s.node } = { s with seq := none, done := true, errcode := .ok, errPos := 0, outLen := 0 })

/-- R121: with NODE_IDX < NODE_CAP, NODE_READ loads that entry into the window; everything else is unchanged. With
NODE_IDX ≥ NODE_CAP it ends with BadRange and the window is unchanged. -/
def Obligations.NodeReadLoadsTheWindow : Prop :=
  ∀ s : State,
    (131071 ≤ s.operands.nodeIdx.toNat →
      exec .nodeRead s = .next { s with seq := none, done := true, errcode := .badRange, errPos := 0, outLen := 0 }) ∧
    (s.operands.nodeIdx.toNat < 131071 →
      exec .nodeRead s = .next { s with
        seq := none, done := true, errcode := .ok, errPos := 0, outLen := 0
        nodeKind := (s.nodeAt s.operands.nodeIdx.toNat).kind
        nodeSym := (s.nodeAt s.operands.nodeIdx.toNat).sym
        nodeLeft := (s.nodeAt s.operands.nodeIdx.toNat).left
        nodeRight := (s.nodeAt s.operands.nodeIdx.toNat).right })

/-- R37, R122: where ROOT and NODE hold a well-formed tree, TREE_COMMIT sets TREE_VALID and the counts; everything else is
unchanged. -/
def Obligations.TreeCommitAcceptsWellFormedTrees : Prop :=
  ∀ (s : State) (t : HTree) (ixs : List Nat), s.HasTree s.operands.root.toNat t ixs →
    exec .treeCommit s = .next { s with
      seq := none, done := true, errcode := .ok, errPos := 0, outLen := 0, treeValid := true
      nodeCount := BitVec.ofNat 32 t.size, leafCount := BitVec.ofNat 32 t.leaves }

/-- R37, R122: TREE_COMMIT succeeds only where ROOT and NODE hold a well-formed tree. -/
def Obligations.TreeCommitAcceptsOnlyWellFormedTrees : Prop :=
  ∀ s u : State, exec .treeCommit s = .next u → u.errcode = .ok →
    ∃ t ixs, s.HasTree s.operands.root.toNat t ixs

/-- R122: the first reference of the walk that is at or beyond NODE_CAP or already visited ends TREE_COMMIT with
CorruptTree, at the pre-order index it would have taken; nothing else changes. -/
def Obligations.TreeCommitReportsTheFirstBadReference : Prop :=
  ∀ (s : State) (c : Nat) (stack seen : List Nat),
    Relation.ReflTransGen (WalkStep s.nodeAt) ([s.operands.root.toNat], []) (c :: stack, seen) →
    131071 ≤ c ∨ c ∈ seen →
    exec .treeCommit s = .next { s with
      seq := none, done := true, errcode := .corruptTree, errPos := BitVec.ofNat 32 seen.length, outLen := 0 }

/-- R124: CT_WRITE, by its four cases. -/
def Obligations.CtWriteSetsOneEntry : Prop :=
  ∀ s : State,
    (0xFFFF < s.operands.ctSym.toNat →
      exec .ctWrite s =
        .next { s with seq := none, done := true, errcode := .unsupportedSymbol, errPos := 0, outLen := 0 }) ∧
    (s.operands.ctSym.toNat ≤ 0xFFFF → 32 < s.operands.ctLen.toNat →
      exec .ctWrite s =
        .next { s with seq := none, done := true, errcode := .capacityExceeded, errPos := 0, outLen := 0 }) ∧
    (Ram.wf s.code → s.operands.ctSym.toNat ≤ 0xFFFF → s.operands.ctLen.toNat ≤ 32 →
      ∃ t, exec .ctWrite s = .next t ∧
        (s.operands.ctLen = 0 → t.codeAt s.operands.ctSym.toNat = none) ∧
        (s.operands.ctLen ≠ 0 → ∃ p : Code, t.codeAt s.operands.ctSym.toNat = some p ∧
          p.length = s.operands.ctLen.toNat ∧
          ∀ k (h : k < p.length), p[k] = s.operands.ctBits.getLsbD (s.operands.ctLen.toNat - 1 - k)) ∧
        (∀ k, k ≠ s.operands.ctSym.toNat → t.codeAt k = s.codeAt k) ∧
        { t with code := s.code } = { s with seq := none, done := true, errcode := .ok, errPos := 0, outLen := 0 })

/-- R125: CT_READ of a symbol above 0xFFFF fails; of an invalid entry it gives 0 and 0; of a valid one its length and its
bits, the first bit in bit CT_LEN − 1. Nothing else changes. -/
def Obligations.CtReadReportsTheEntry : Prop :=
  ∀ s : State,
    (0xFFFF < s.operands.ctSym.toNat →
      exec .ctRead s =
        .next { s with seq := none, done := true, errcode := .unsupportedSymbol, errPos := 0, outLen := 0 }) ∧
    (s.operands.ctSym.toNat ≤ 0xFFFF → s.codeAt s.operands.ctSym.toNat = none →
      exec .ctRead s =
        .next { s with seq := none, done := true, errcode := .ok, errPos := 0, outLen := 0, ctLen := 0, ctBits := 0 }) ∧
    (∀ p : Code, s.operands.ctSym.toNat ≤ 0xFFFF → s.codeAt s.operands.ctSym.toNat = some p → p.length ≤ 32 →
      ∃ t, exec .ctRead s = .next t ∧ t.ctLen.toNat = p.length ∧
        (∀ k (h : k < p.length), t.ctBits.getLsbD (p.length - 1 - k) = p[k]) ∧
        (∀ k, p.length ≤ k → t.ctBits.getLsbD k = false) ∧
        { t with ctLen := s.ctLen, ctBits := s.ctBits } =
          { s with seq := none, done := true, errcode := .ok, errPos := 0, outLen := 0 })

/-- R126, R127: on a tree whose leaf symbols are distinct 16-bit ones and whose codes have at most 32 bits, CT_GEN leaves
exactly the tree's code table in CODE and its size in OUT_LEN; nothing else changes. -/
def Obligations.CtGenDerivesTheCodeTable : Prop :=
  ∀ (s : State) (t : HTree) (ixs : List Nat),
    s.operands.treeValid = true → s.HasTree s.operands.root.toNat t ixs →
    t.symbolsFit → (t.codes.map (·.1)).Nodup → (∀ x ∈ t.codes, x.2.length ≤ 32) →
    ∃ u, exec .ctGen s = .next u ∧ u.outLen.toNat = t.leaves ∧
      (∀ k p, u.codeAt k = some p ↔ ∃ w, (w, p) ∈ t.codes ∧ w.toNat = k) ∧
      { u with code := s.code, outLen := 0 } =
        { s with seq := none, done := true, errcode := .ok, errPos := 0, outLen := 0 }

/-- R126: the first leaf in pre-order whose symbol is above 0xFFFF, repeats an earlier leaf's, or whose code is longer than
32 bits, in this order, ends CT_GEN with its error at its pre-order index, and every entry of CODE is invalid
afterwards. -/
def Obligations.CtGenReportsTheFirstBadLeaf : Prop :=
  ∀ (s : State) (t : HTree) (ixs : List Nat) (pre post : List (Option (Word × List Bool))) (w : Word) (p : List Bool),
    s.operands.treeValid = true → s.HasTree s.operands.root.toNat t ixs → t.preorder = pre ++ some (w, p) :: post →
    (∀ x ∈ pre.filterMap id, x.1.toNat ≤ 0xFFFF ∧ x.2.length ≤ 32) → ((pre.filterMap id).map (·.1)).Nodup →
    ∀ e : ErrCode,
      (e = .unsupportedSymbol ∧ 0xFFFF < w.toNat) ∨
      (e = .corruptTree ∧ w.toNat ≤ 0xFFFF ∧ w ∈ (pre.filterMap id).map (·.1)) ∨
      (e = .capacityExceeded ∧ w.toNat ≤ 0xFFFF ∧ w ∉ (pre.filterMap id).map (·.1) ∧ 32 < p.length) →
      ∃ u, exec .ctGen s = .next u ∧ u.errcode = e ∧ u.errPos.toNat = pre.length ∧ (∀ k, u.codeAt k = none) ∧
        { u with code := s.code, errPos := 0 } =
          { s with seq := none, done := true, errcode := e, errPos := 0, outLen := 0 }

/-- R128: the table CT_GEN makes is prefix-free, and where ROOT is an internal node every code has between 1 and
NODE_COUNT − 1 bits. -/
def Obligations.CtGenTablesArePrefixFree : Prop :=
  ∀ (s u : State) (l r : HTree) (ixs : List Nat),
    s.operands.treeValid = true → s.HasTree s.operands.root.toNat (.node l r) ixs →
    exec .ctGen s = .next u → u.errcode = .ok →
    (∀ k c, u.codeAt k = some c → 1 ≤ c.length ∧ c.length ≤ ixs.length - 1) ∧
    (∀ k k' c c', k ≠ k' → u.codeAt k = some c → u.codeAt k' = some c' → ¬c <+: c')

/-! ### The bit encoder (spec/42_bit_encoder.md) -/

/-- R150, R151: where every symbol has a code and the codes fit, ENCODE stores their concatenation in input order, its
length D in OUT_LEN, the pad bits 0; with codes of 1 to 32 bits (R39), n ≤ D ≤ 32·n. -/
def Obligations.EncodeConcatenatesTheCodes : Prop :=
  ∀ (s : State) (codes : List Code),
    s.params.wf = true → EncodeRangesOk s.operands s.params.bufBytes → codes.length = s.operands.srcLen.toNat →
    (∀ j (h : j < codes.length), (s.readWord (s.operands.srcAddr.toNat + 4 * j)).toNat ≤ 0xFFFF ∧
      s.codeAt (s.readWord (s.operands.srcAddr.toNat + 4 * j)).toNat = some codes[j]) →
    codes.flatten.length ≤ 8 * s.operands.dstCap.toNat →
    ∃ t, exec .encode s = .next t ∧ StoredBits s t s.operands.dstAddr.toNat codes.flatten ∧
      ((∀ c ∈ codes, 1 ≤ c.length ∧ c.length ≤ 32) →
        s.operands.srcLen.toNat ≤ t.outLen.toNat ∧ t.outLen.toNat ≤ 32 * s.operands.srcLen.toNat)

/-- R150, R152, R109: the first symbol that is above 0xFFFF, has no code, or whose code does not fit, in this order, ends
ENCODE with its error at its index. -/
def Obligations.EncodeReportsTheFirstBadSymbol : Prop :=
  ∀ (s : State) (codes : List Code) (e : ErrCode),
    EncodeRangesOk s.operands s.params.bufBytes → codes.length < s.operands.srcLen.toNat →
    (∀ j (h : j < codes.length), (s.readWord (s.operands.srcAddr.toNat + 4 * j)).toNat ≤ 0xFFFF ∧
      s.codeAt (s.readWord (s.operands.srcAddr.toNat + 4 * j)).toNat = some codes[j]) →
    codes.flatten.length ≤ 8 * s.operands.dstCap.toNat →
    (let w := s.readWord (s.operands.srcAddr.toNat + 4 * codes.length)
     (e = .unsupportedSymbol ∧ 0xFFFF < w.toNat) ∨
     (e = .unknownSymbol ∧ w.toNat ≤ 0xFFFF ∧ s.codeAt w.toNat = none) ∨
     (e = .outputOverflow ∧ w.toNat ≤ 0xFFFF ∧ ∃ c, s.codeAt w.toNat = some c ∧
       8 * s.operands.dstCap.toNat < codes.flatten.length + c.length)) →
    ∃ t, exec .encode s = .next t ∧
      FailedInto s t e codes.length s.operands.dstAddr.toNat s.operands.dstCap.toNat

/-! ### The bit decoder (spec/43_bit_decoder.md) -/

/-- R160: where the D bits are the paths of leaves one after the other, and the symbols fit, DECODE stores those leaves'
symbols as words, their number in OUT_LEN. -/
def Obligations.DecodeWalksTheTree : Prop :=
  ∀ (s : State) (l r : HTree) (ixs : List Nat) (out : List (Word × List Bool)),
    s.params.wf = true → DecodeRangesOk s.operands s.params.bufBytes → s.operands.treeValid = true →
    s.HasTree s.operands.root.toNat (.node l r) ixs →
    s.readBits s.operands.srcAddr.toNat s.operands.srcLen.toNat = (out.map (·.2)).flatten →
    (∀ x ∈ out, (HTree.node l r).symAt x.2 = some x.1) → 4 * out.length ≤ s.operands.dstCap.toNat →
    ∃ t, exec .decode s = .next t ∧ StoredWords s t s.operands.dstAddr.toNat (out.map (·.1))

/-- R162: where the D bits are paths of leaves and then end inside the tree, DECODE ends with TruncatedStream at D. -/
def Obligations.DecodeReportsTruncatedStream : Prop :=
  ∀ (s : State) (l r l' r' : HTree) (ixs : List Nat) (out : List (Word × List Bool)) (q : List Bool),
    DecodeRangesOk s.operands s.params.bufBytes → s.operands.treeValid = true →
    s.HasTree s.operands.root.toNat (.node l r) ixs →
    s.readBits s.operands.srcAddr.toNat s.operands.srcLen.toNat = (out.map (·.2)).flatten ++ q →
    (∀ x ∈ out, (HTree.node l r).symAt x.2 = some x.1) → 4 * out.length ≤ s.operands.dstCap.toNat →
    q ≠ [] → (HTree.node l r).at? q = some (.node l' r') →
    ∃ t, exec .decode s = .next t ∧
      FailedInto s t .truncatedStream s.operands.srcLen.toNat s.operands.dstAddr.toNat s.operands.dstCap.toNat

/-- R160: the first symbol that does not fit in DST_CAP bytes ends DECODE with OutputOverflow at the index of its code's
last bit. -/
def Obligations.DecodeReportsOutputOverflow : Prop :=
  ∀ (s : State) (l r : HTree) (ixs : List Nat) (out : List (Word × List Bool)) (w : Word) (p rest : List Bool),
    DecodeRangesOk s.operands s.params.bufBytes → s.operands.treeValid = true →
    s.HasTree s.operands.root.toNat (.node l r) ixs →
    s.readBits s.operands.srcAddr.toNat s.operands.srcLen.toNat = (out.map (·.2)).flatten ++ p ++ rest →
    (∀ x ∈ out, (HTree.node l r).symAt x.2 = some x.1) → (HTree.node l r).symAt p = some w →
    4 * out.length ≤ s.operands.dstCap.toNat → s.operands.dstCap.toNat < 4 * (out.length + 1) →
    ∃ t, exec .decode s = .next t ∧
      FailedInto s t .outputOverflow ((out.map (·.2)).flatten.length + p.length - 1) s.operands.dstAddr.toNat
        s.operands.dstCap.toNat

/-- R161: on a single-leaf tree every input bit, whatever its value, decodes to the leaf's symbol; the first that does not
fit ends DECODE with OutputOverflow at its index. -/
def Obligations.DecodeOnSingleLeafTree : Prop :=
  ∀ (s : State) (w : Word) (ixs : List Nat),
    s.params.wf = true → DecodeRangesOk s.operands s.params.bufBytes → s.operands.treeValid = true →
    s.HasTree s.operands.root.toNat (.leaf w) ixs →
    (4 * s.operands.srcLen.toNat ≤ s.operands.dstCap.toNat →
      ∃ t, exec .decode s = .next t ∧
        StoredWords s t s.operands.dstAddr.toNat (List.replicate s.operands.srcLen.toNat w)) ∧
    (s.operands.dstCap.toNat < 4 * s.operands.srcLen.toNat →
      ∃ t, exec .decode s = .next t ∧
        FailedInto s t .outputOverflow (s.operands.dstCap.toNat / 4) s.operands.dstAddr.toNat s.operands.dstCap.toNat)

/-- R163: the round trip. What DECODE makes of the bits that ENCODE put out, under the table CT_GEN derived from the same
tree, is the symbols ENCODE read. -/
def Obligations.EncodeDecodeRoundTrip : Prop :=
  ∀ (g g' e e' d : State) (t : HTree) (ixs : List Nat),
    g.operands.treeValid = true → g.HasTree g.operands.root.toNat t ixs →
    exec .ctGen g = .next g' → g'.errcode = .ok →
    e.params.wf = true → e.code = g'.code → exec .encode e = .next e' → e'.errcode = .ok →
    d.params.wf = true → d.operands.treeValid = true → d.operands.root = g.operands.root →
    (∀ i, d.nodeAt i = g.nodeAt i) →
    d.operands.srcLen = e'.outLen →
    d.readBits d.operands.srcAddr.toNat e'.outLen.toNat = e'.readBits e.operands.dstAddr.toNat e'.outLen.toNat →
    DecodeRangesOk d.operands d.params.bufBytes → 4 * e.operands.srcLen.toNat ≤ d.operands.dstCap.toNat →
    ∃ d', exec .decode d = .next d' ∧ d'.errcode = .ok ∧ d'.outLen = e.operands.srcLen ∧
      ∀ j, j < e.operands.srcLen.toNat →
        d'.readWord (d.operands.dstAddr.toNat + 4 * j) = e.readWord (e.operands.srcAddr.toNat + 4 * j)

/-! ### The tree codec (spec/44_tree_codec.md) -/

/-- R170, R171, R86: on a tree of 16-bit symbols whose stream fits, TREE_SER stores the tree's stream, 18·LEAF_COUNT − 1 bits
long, the pad bits 0. -/
def Obligations.TreeSerStoresTheStream : Prop :=
  ∀ (s : State) (t : HTree) (ixs : List Nat),
    s.params.wf = true → TreeSerRangesOk s.operands s.params.bufBytes → s.operands.treeValid = true →
    s.HasTree s.operands.root.toNat t ixs → t.symbolsFit → 18 * t.leaves - 1 ≤ 8 * s.operands.dstCap.toNat →
    ∃ u, exec .treeSer s = .next u ∧ StoredBits s u s.operands.dstAddr.toNat t.stream ∧
      u.outLen.toNat = 18 * t.leaves - 1

/-- R170: the first node in pre-order that is a leaf with a symbol above 0xFFFF, or whose bits do not fit, ends TREE_SER with
its error at its pre-order index; at a leaf the symbol comes first. -/
def Obligations.TreeSerReportsTheFirstBadNode : Prop :=
  ∀ (s : State) (t : HTree) (ixs : List Nat) (pre post : List (Option (Word × List Bool)))
    (x : Option (Word × List Bool)) (e : ErrCode),
    TreeSerRangesOk s.operands s.params.bufBytes → s.operands.treeValid = true →
    s.HasTree s.operands.root.toNat t ixs → t.preorder = pre ++ x :: post →
    (∀ y ∈ pre.filterMap id, y.1.toNat ≤ 0xFFFF) → streamBits pre ≤ 8 * s.operands.dstCap.toNat →
    (e = .unsupportedSymbol ∧ ∃ w p, x = some (w, p) ∧ 0xFFFF < w.toNat) ∨
      (e = .outputOverflow ∧ (∀ w p, x = some (w, p) → w.toNat ≤ 0xFFFF) ∧
        8 * s.operands.dstCap.toNat < streamBits pre + streamBits [x]) →
    ∃ u, exec .treeSer s = .next u ∧
      FailedInto s u e pre.length s.operands.dstAddr.toNat s.operands.dstCap.toNat

/-- R176: on the stream of a tree of at most NODE_CAP nodes TREE_DESER succeeds: the tree stands at ROOT = 0, the node with
pre-order index i in `NODE[i]`, the fields its kind does not use 0, the counts and OUT_LEN as the rule says; every other
entry of NODE and everything else is unchanged. -/
def Obligations.TreeDeserRebuildsTheTree : Prop :=
  ∀ (s : State) (t : HTree),
    TreeDeserRangesOk s.operands s.params.bufBytes → t.symbolsFit → t.size ≤ 131071 →
    s.readBits s.operands.srcAddr.toNat s.operands.srcLen.toNat = t.stream →
    ∃ u, exec .treeDeser s = .next u ∧ u.HasTree 0 t (List.range t.size) ∧
      (∀ i, i < t.size → ((u.nodeAt i).kind = true → (u.nodeAt i).left = 0 ∧ (u.nodeAt i).right = 0) ∧
        ((u.nodeAt i).kind = false → (u.nodeAt i).sym = 0)) ∧
      (∀ i, t.size ≤ i → u.nodeAt i = s.nodeAt i) ∧
      { u with node := s.node } =
        { s with
          seq := none, done := true, errcode := .ok, errPos := 0, outLen := s.operands.srcLen, root := 0
          treeValid := true, nodeCount := BitVec.ofNat 32 t.size, leafCount := BitVec.ofNat 32 t.leaves }

/-- R176, R177: TREE_DESER's failures after its static check. A stream that ends before its tree is complete gives
CorruptTree at T; bits left over after a complete tree give CorruptTree at the first of them; a tag of a node beyond
NODE_CAP gives CapacityExceeded at that tag, whatever follows the tag. ROOT is 0, the entries of the nodes not allocated
are unchanged, and so is everything else but NODE and the record of the error. -/
def Obligations.TreeDeserReportsBadStreams : Prop :=
  ∀ (s : State) (t : HTree) (rest : List Bool) (e : ErrCode) (pos n : Nat),
    TreeDeserRangesOk s.operands s.params.bufBytes → t.symbolsFit →
    (let bits := s.readBits s.operands.srcAddr.toNat s.operands.srcLen.toNat
     (e = .corruptTree ∧ pos = s.operands.srcLen.toNat ∧ bits ++ rest = t.stream ∧ rest ≠ [] ∧
       n ≤ 131071 ∧ bits.length ≤ streamBits (t.preorder.take n)) ∨
     (e = .corruptTree ∧ pos = t.stream.length ∧ bits = t.stream ++ rest ∧ rest ≠ [] ∧ n = t.size ∧ n ≤ 131071) ∨
     (e = .capacityExceeded ∧ pos = streamBits (t.preorder.take 131071) ∧ (∃ more, bits ++ rest = t.stream ++ more) ∧
       n = 131071 ∧ n < t.size ∧ pos < bits.length)) →
    ∃ u, exec .treeDeser s = .next u ∧ u.errPos.toNat = pos ∧
      (∀ i, n ≤ i → u.nodeAt i = s.nodeAt i) ∧
      { u with node := s.node, draws := s.draws, errPos := 0 } =
        { s with seq := none, done := true, errcode := e, errPos := 0, outLen := 0, root := 0 }

/-- R178: the round trip. TREE_DESER of the bits that TREE_SER put out succeeds, and the new tree has the same leaf symbols
at the same paths, ROOT = 0, its nodes numbered in pre-order. -/
def Obligations.TreeCodecRoundTrip : Prop :=
  ∀ (a a' b : State) (t : HTree) (ixs : List Nat),
    a.params.wf = true → a.operands.treeValid = true → a.HasTree a.operands.root.toNat t ixs →
    exec .treeSer a = .next a' → a'.errcode = .ok →
    b.params.wf = true → b.operands.srcLen = a'.outLen →
    b.readBits b.operands.srcAddr.toNat a'.outLen.toNat = a'.readBits a.operands.dstAddr.toNat a'.outLen.toNat →
    TreeDeserRangesOk b.operands b.params.bufBytes →
    ∃ b' t', exec .treeDeser b = .next b' ∧ b'.errcode = .ok ∧ b'.treeValid = true ∧ b'.root = 0 ∧
      b'.HasTree 0 t' (List.range t'.size) ∧ (∀ p, t'.symAt p = t.symAt p)

/-! ### Errors, interrupt, reset (spec/60_exceptions.md, spec/70_reset_and_hazards.md) -/

/-- R205: in the cycle in which a command completes, a soft reset wins; a dropped access, read or write, and the completion
both take effect; a STATUS write that clears DONE leaves DONE = 1. That the access is applied before the completion is how
the model says this (log entry 6). -/
def Obligations.SimultaneousEvents : Prop :=
  ∀ (s : State) (off : Nat) (d : Dir) (es : List Event),
    s.params.wf = true → s.resetIn = false → s.seq ≠ none →
    s.events = .accessFinish { addr := s.params.hbcBase + off, dir := d } :: es →
    (∀ v, d = .write v → off = 0x004 → v.getLsbD 1 = true →
      ∃ t, step s = .next t ∧ t.seq = none ∧ t.done = false ∧ t.errcode = .ok ∧ t.ie = false ∧
        step { s with events := .access { addr := s.params.hbcBase + off, dir := d } :: es } = .next t) ∧
    (off % 4 = 0 →
      (off = 0x00C ∨ (0x010 ≤ off ∧ off ≤ 0x050) ∨ (0x10000 ≤ off ∧ off < 0x10000 + s.params.bufBytes)) →
      ∀ t, step s = .next t → t.drop = true ∧ t.done = true ∧ t.seq = none ∧ (d = .read → t.readData = some 0)) ∧
    (off = 0x008 → ∀ t, step s = .next t → t.done = true ∧ t.seq = none)

/-- R45, R203, R210: the interrupt output is 1 exactly when IE and DONE are, and it rises in a step only because a command
completes while IE = 1, or because a host write to CTRL sets IE while DONE = 1. -/
def Obligations.InterruptRisesOnlyOnCompletionOrEnable : Prop :=
  (∀ s : State, s.irq = true ↔ s.ie = true ∧ s.done = true) ∧
  ∀ s t : State, step s = .next t → s.irq = false → t.irq = true →
    (s.busy = true ∧ t.busy = false ∧ t.done = true) ∨
    (∃ a es v, (s.events = .access a :: es ∨ s.events = .accessFinish a :: es) ∧ a.dir = .write v ∧
      a.addr = s.params.hbcBase + 4 ∧ v.getLsbD 0 = true ∧ v.getLsbD 1 = false)

/-- R35, R43, R102: DROP is set only by a host access dropped while BUSY = 1, to an offset other than ID, CTRL, STATUS and
the reserved offsets. -/
def Obligations.DropRisesOnlyOnADroppedAccess : Prop :=
  ∀ s t : State, step s = .next t → s.drop = false → t.drop = true →
    s.busy = true ∧ ∃ a es off, (s.events = .access a :: es ∨ s.events = .accessFinish a :: es) ∧
      a.addr = s.params.hbcBase + off ∧
      (off = 0x00C ∨ (0x010 ≤ off ∧ off ≤ 0x050) ∨ (0x10000 ≤ off ∧ off < 0x10000 + s.params.bufBytes))

/-- R38, R37: only a successful TREE_COMMIT or TREE_DESER sets TREE_VALID. -/
def Obligations.OnlyTreeCommandsSetTreeValid : Prop :=
  ∀ s t : State, step s = .next t → s.treeValid = false → t.treeValid = true →
    ∃ r, s.seq = some r ∧ (decode r.cmd = .ok .treeCommit ∨ decode r.cmd = .ok .treeDeser) ∧ t.errcode = .ok ∧
      t.seq = none

/-- R46, R230: the state right after power-on reset, and the state each deassertion of the reset input leaves: registers and
flags 0, CODE with no valid entry, nothing listed in NODE and BUF, the sequencer idle. The parameters that `State.reset`
carries and the model's own fields are design choices (log entries 2, 4, 5, 7, 10). -/
def Obligations.PowerOnResetState : Prop :=
  (State.reset.ie = false ∧ State.reset.seq = none ∧ State.reset.done = false ∧ State.reset.treeValid = false ∧
    State.reset.drop = false ∧ State.reset.irq = false ∧ State.reset.statusWord = 0 ∧ State.reset.code = [] ∧
    State.reset.node = [] ∧ State.reset.buf = [] ∧ State.reset.errcode = .ok ∧
    State.reset.srcAddr = 0 ∧ State.reset.srcLen = 0 ∧ State.reset.dstAddr = 0 ∧ State.reset.dstCap = 0 ∧
    State.reset.outLen = 0 ∧ State.reset.errPos = 0 ∧ State.reset.root = 0 ∧ State.reset.nodeIdx = 0 ∧
    State.reset.nodeKind = false ∧ State.reset.nodeSym = 0 ∧ State.reset.nodeLeft = 0 ∧ State.reset.nodeRight = 0 ∧
    State.reset.nodeCount = 0 ∧ State.reset.leafCount = 0 ∧ State.reset.ctSym = 0 ∧ State.reset.ctLen = 0 ∧
    State.reset.ctBits = 0 ∧ State.reset.readReg .id = 0x48424331#32 ∧ State.reset.readReg .ctrl = 0 ∧
    State.reset.readReg .cmd = 0) ∧
  ∀ (s : State) (es : List Event), s.resetIn = true → s.events = .resetRelease :: es →
    step s = .next { State.reset with
      params := s.params, epoch := s.epoch + 1, draws := s.draws, resetIn := false, events := es }

/-- R231, R232: a CTRL write with SRST = 1 while BUSY = 0 clears every register and flag and invalidates CODE; NODE and BUF
are unchanged. -/
def Obligations.IdleSoftReset : Prop :=
  ∀ (s : State) (v : Word) (es : List Event), s.params.wf = true → s.resetIn = false → s.seq = none →
    v.getLsbD 1 = true → s.events = writeAt s.params 0x004 v :: es →
    step s = .next { State.reset with
      params := s.params, node := s.node, buf := s.buf, epoch := s.epoch, draws := s.draws, readData := s.readData,
      events := es }

/-- R231: a CTRL write with SRST = 1 is the soft reset, whatever BUSY: every register and flag is 0, CODE has no valid
entry, and a command that runs is abandoned (BUSY and DONE 0, no ERRCODE, irq 0). BUF changes only in the destination region
of an abandoned ENCODE, DECODE or TREE_SER, NODE only in the entries i < min(NODE_CAP, SRC_LEN) of an abandoned TREE_DESER
and in the entry NODE_IDX < NODE_CAP of an abandoned NODE_WRITE. -/
def Obligations.SoftResetAbandonsTheCommand : Prop :=
  ∀ (s : State) (v : Word) (es : List Event), s.params.wf = true → s.resetIn = false →
    v.getLsbD 1 = true → s.events = writeAt s.params 0x004 v :: es →
    ∃ t, step s = .next t ∧ t.irq = false ∧
      { t with node := s.node, buf := s.buf, draws := s.draws } = { State.reset with
        params := s.params, node := s.node, buf := s.buf, epoch := s.epoch, draws := s.draws, readData := s.readData,
        events := es } ∧
      (∀ k, t.bufByte k = s.bufByte k ∨
        ∃ r, s.seq = some r ∧ (r.cmd = 8#32 ∨ r.cmd = 9#32 ∨ r.cmd = 10#32) ∧ r.lat.dstAddr.toNat ≤ k ∧
          k < r.lat.dstAddr.toNat + r.lat.dstCap.toNat) ∧
      (∀ i, t.nodeAt i = s.nodeAt i ∨
        ∃ r, s.seq = some r ∧ i < 131071 ∧
          ((r.cmd = 11#32 ∧ i < r.lat.srcLen.toNat) ∨ (r.cmd = 1#32 ∧ i = r.lat.nodeIdx.toNat)))

/-- R106: the outcome of a command is a function of the state latched at its acceptance. From two states with the same
operands and the same BUF, NODE and CODE a command ends alike: the same ERRCODE, ERR_POS and OUT_LEN, the same writes to the
result registers, to CODE, to BUF and to NODE, but for the values the spec names `any` (the destination region after a
failure, NODE after a failing TREE_DESER). The `any` draws, the interrupt enable, DROP and what is still to come make no
difference. -/
def Obligations.OutcomeDependsOnLatchedStateOnly : Prop :=
  ∀ (i : Instr) (s₁ s₂ t₁ t₂ : State), SameInputs s₁ s₂ → exec i s₁ = .next t₁ → exec i s₂ = .next t₂ →
    t₁.errcode = t₂.errcode ∧ t₁.errPos = t₂.errPos ∧ t₁.outLen = t₂.outLen ∧ t₁.code = t₂.code ∧
    (t₁.errcode = .ok → i = .treeCommit ∨ i = .treeDeser →
      t₁.nodeCount = t₂.nodeCount ∧ t₁.leafCount = t₂.leafCount ∧ t₁.treeValid = t₂.treeValid) ∧
    (t₁.errcode = .ok → i = .treeDeser → t₁.root = t₂.root) ∧
    (t₁.errcode = .ok → i = .nodeRead → t₁.nodeKind = t₂.nodeKind ∧ t₁.nodeSym = t₂.nodeSym ∧
      t₁.nodeLeft = t₂.nodeLeft ∧ t₁.nodeRight = t₂.nodeRight) ∧
    (t₁.errcode = .ok → i = .ctRead → t₁.ctLen = t₂.ctLen ∧ t₁.ctBits = t₂.ctBits) ∧
    (∀ k, t₁.errcode = .ok ∨ k < s₁.operands.dstAddr.toNat ∨
      s₁.operands.dstAddr.toNat + s₁.operands.dstCap.toNat ≤ k → t₁.bufByte k = t₂.bufByte k) ∧
    (∀ k, t₁.errcode = .ok ∨ i ≠ .treeDeser → t₁.nodeAt k = t₂.nodeAt k)

/-! ### Invariants -/

/-- The canonical form of BUF, NODE and CODE (the model's, log entry 4) and the bounds of R6, R36, R39 and R60 are kept by
every step. -/
def Obligations.StepKeepsStoresOk : Prop := ∀ s t : State, s.StoresOk → step s = .next t → t.StoresOk

/-- R101: the sequencer's record (cleared results, latched operands equal to the live registers) is kept by every step. Its
last clause, that the sequencer is idle while the reset input is asserted, is the model's choice (log entry 7): R230 fixes
the state only at the deassertion. -/
def Obligations.StepKeepsSequencerOk : Prop := ∀ s t : State, s.SequencerOk → step s = .next t → t.SequencerOk

/-- R37, R31, R38: "TREE_VALID = 1 implies WF(ROOT, NODE)", with the counts, is kept by every step. -/
def Obligations.StepKeepsTreeOk : Prop :=
  ∀ s t : State, s.SequencerOk → s.TreeOk → step s = .next t → t.TreeOk

/-- The three invariants hold right after reset. -/
def Obligations.ResetMeetsTheInvariants : Prop :=
  State.reset.StoresOk ∧ State.reset.SequencerOk ∧ State.reset.TreeOk

/-- R107, R240: where the invariants hold a running command completes: a step that lets it complete answers a next state
with BUSY = 0 and DONE = 1. In particular no step faults. That a step with no event left completes the command is the
model's choice (log entry 11), and so is the number of polls a WAIT names, here none left (log entry 16). -/
def Obligations.RunningCommandsComplete : Prop :=
  ∀ s : State, s.SequencerOk → s.TreeOk →
    (∀ f, step s ≠ .fault f) ∧
    (s.busy = true → (s.events = [] ∨ ∃ es, s.events = .finish :: es ∨ s.events = .wait 0 :: es) →
      ∃ t, step s = .next t ∧ t.busy = false ∧ t.done = true)

/-- R88, R89, R107, R240, R241: a host that polls STATUS sees an accepted command complete. After n reads of STATUS, the
completion and one read more, that last read has returned DONE = 1; so has the last read of a WAIT whose command completes
after n polls, which then is over. Whatever the block does, a WAIT is over only after a STATUS read that returned DONE = 1, and
goes on after one that did not. The number of polls is the model's choice (log entry 16). -/
def Obligations.PollingSeesCompletion : Prop :=
  ∀ (s : State) (n : Nat) (es : List Event), s.params.wf = true → s.resetIn = false →
    (s.SequencerOk → s.TreeOk → s.busy = true →
      s.events = List.replicate n (readAt s.params 0x008) ++ .finish :: readAt s.params 0x008 :: es ∨
        s.events = waitEvents n ++ es →
      ∃ t v, Host.Core.run Sys2Proof.core (n + 2) s = .next t ∧ t.events = es ∧ t.busy = false ∧ t.done = true ∧
        t.drop = s.drop ∧ t.readData = some v ∧ v.getLsbD 1 = true) ∧
    (s.events = waitEvents n ++ es → ∀ t, step s = .next t →
      (t.events = es ∧ ∃ v : Word, t.readData = some v ∧ v.getLsbD 1 = true) ∨
      (t.events = waitEvents (n - 1) ++ es ∧ (s.busy = true ∧ n = 0 ∨ t.readData = some s.statusWord ∧ s.done = false)))
end

