-- ==== Sys2Proof/Laws/Bits.lean ====
section
/-! SUPPORT. The laws of bit sequences: a number and its bits, most significant first, determine each other (R9); a packed
byte holds the bits it was packed from (R63, R64); big-endian bytes give the number back (R62). -/

namespace Sys2Proof.Machine

@[simp] theorem bitsToNat_nil : bitsToNat [] = 0 := rfl

theorem bitsToNat_concat (p : List Bool) (b : Bool) : bitsToNat (p ++ [b]) = 2 * bitsToNat p + b.toNat := by
  simp [bitsToNat, List.foldl_append]

theorem bitsToNat_lt (p : List Bool) : bitsToNat p < 2 ^ p.length := by
  induction p using List.reverseRecOn with
  | nil => simp
  | append_singleton p b ih =>
    rw [bitsToNat_concat, List.length_append, List.length_singleton, Nat.pow_succ]
    cases b <;> simp <;> omega

/-- Bit i of the number a sequence spells is the sequence's bit len − 1 − i. -/
theorem testBit_bitsToNat (p : List Bool) (i : Nat) :
    (bitsToNat p).testBit i = (decide (i < p.length) && p.getD (p.length - 1 - i) false) := by
  induction p using List.reverseRecOn generalizing i with
  | nil => simp
  | append_singleton p b ih =>
    rw [bitsToNat_concat]
    cases i with
    | zero =>
      rw [Nat.testBit_zero]
      cases b <;> simp [List.getD]
    | succ i =>
      have hdiv : (2 * bitsToNat p + b.toNat) / 2 = bitsToNat p := by
        have := b.toNat_le; omega
      rw [Nat.testBit_succ, hdiv, ih]
      simp only [List.length_append, List.length_singleton]
      by_cases h : i < p.length
      · have h1 : p.length + 1 - 1 - (i + 1) = p.length - 1 - i := by omega
        rw [h1, List.getD_append _ _ _ _ (by omega)]
        simp [h]
      · simp [h]

@[simp] theorem length_natBits (n v : Nat) : (natBits n v).length = n := by simp [natBits]

@[simp] theorem length_bits16 (s : Word) : (bits16 s).length = 16 := length_natBits _ _

theorem getElem_natBits (n v k : Nat) (h : k < (natBits n v).length) : (natBits n v)[k] = v.testBit (n - 1 - k) := by
  simp [natBits]

/-- The bits of a number spell it, modulo 2^n. -/
theorem bitsToNat_natBits (n v : Nat) : bitsToNat (natBits n v) = v % 2 ^ n := by
  refine Nat.eq_of_testBit_eq fun i => ?_
  rw [testBit_bitsToNat, Nat.testBit_mod_two_pow, length_natBits]
  by_cases h : i < n
  · have hk : n - 1 - i < (natBits n v).length := by simp; omega
    rw [List.getD_eq_getElem _ _ hk, getElem_natBits]
    have : n - 1 - (n - 1 - i) = i := by omega
    simp [h, this]
  · simp [h]

/-- A sequence is the bits of the number it spells. -/
theorem natBits_bitsToNat (p : List Bool) : natBits p.length (bitsToNat p) = p := by
  refine List.ext_getElem (by simp) fun k h1 h2 => ?_
  rw [getElem_natBits, testBit_bitsToNat]
  have h3 : p.length - 1 - k < p.length := by omega
  have h4 : p.length - 1 - (p.length - 1 - k) = k := by omega
  rw [h4, List.getD_eq_getElem _ _ h2]
  simp [h3]

/-- A 16-bit symbol is what its tree-stream bits spell. -/
theorem bitsToNat_bits16 (s : Word) (h : s.toNat ≤ 0xFFFF) : bitsToNat (bits16 s) = s.toNat := by
  rw [bits16, bitsToNat_natBits]
  exact Nat.mod_eq_of_lt (by simp [Config.SYM_BITS]; omega)

@[simp] theorem length_packBits (p : List Bool) : (packBits p).length = ceilDiv8 p.length := by simp [packBits]

/-- Bit i (from the top) of byte k of a packing is bit 8k + i of the sequence, 0 beyond its end. -/
theorem packByte_bit (p : List Bool) (k i : Nat) (hi : i < 8) :
    ((packByte p k).toNat / 2 ^ (7 - i) % 2 == 1) = p.getD (8 * k + i) false := by
  let q := (List.range 8).map fun m => p.getD (8 * k + m) false
  have hq : q.length = 8 := by simp [q]
  have hlt : bitsToNat q < 2 ^ 8 := hq ▸ bitsToNat_lt q
  have hto : (packByte p k).toNat = bitsToNat q := by
    simp only [packByte, BitVec.toNat_ofNat]
    exact Nat.mod_eq_of_lt hlt
  have htb : (bitsToNat q).testBit (7 - i) = p.getD (8 * k + i) false := by
    rw [testBit_bitsToNat, hq]
    have h1 : 8 - 1 - (7 - i) = i := by omega
    rw [h1, List.getD_eq_getElem _ _ (by omega)]
    have : 7 - i < 8 := by omega
    simp [q, this]
  rw [hto, ← htb, Nat.testBit_eq_decide_div_mod_eq]
  simp [BEq.beq]

@[simp] theorem length_beBytes (n v : Nat) : (beBytes n v).length = n := by simp [beBytes]

theorem getElem?_beBytes (n v k : Nat) (h : k < n) :
    (beBytes n v)[k]? = some (BitVec.ofNat 8 (v / 2 ^ (8 * (n - 1 - k)) % 256)) := by
  simp [beBytes, h]

end Sys2Proof.Machine
end

