-- ==== Sys2Proof/Laws/Ram.lean ====
section
/-! SUPPORT. The laws of the sparse stores: a read after a write, and every write keeps the canonical form. -/

namespace Sys2Proof.Machine.Ram

variable {α : Type}

@[simp] theorem get?_nil (k : Nat) : Ram.get? ([] : Ram α) k = none := rfl

theorem get?_cons (a : Nat) (v : α) (m : Ram α) (k : Nat) :
    Ram.get? ((a, v) :: m) k = if k = a then some v else Ram.get? m k := rfl

/-- Reading after writing: the written key gives the value, every other key what it gave. -/
theorem get?_put (m : Ram α) (a : Nat) (v : α) (k : Nat) :
    Ram.get? (Ram.put m a v) k = if k = a then some v else Ram.get? m k := by
  induction m with
  | nil => rfl
  | cons x m ih =>
    obtain ⟨b, w⟩ := x
    unfold Ram.put
    split
    · rfl
    · split
      · subst_vars
        simp only [get?_cons]
        split <;> rfl
      · simp only [get?_cons, ih]
        split
        · subst_vars; rw [if_neg (by omega)]
        · rfl

@[simp] theorem get?_put_self (m : Ram α) (a : Nat) (v : α) : Ram.get? (Ram.put m a v) a = some v := by
  simp [get?_put]

theorem get?_put_ne (m : Ram α) {a k : Nat} (v : α) (h : k ≠ a) : Ram.get? (Ram.put m a v) k = Ram.get? m k := by
  simp [get?_put, h]

/-- Reading after storing a list of values from `a` on. -/
theorem get?_store (vs : List α) (m : Ram α) (a k : Nat) :
    Ram.get? (Ram.store m a vs) k = if a ≤ k ∧ k < a + vs.length then vs[k - a]? else Ram.get? m k := by
  induction vs generalizing m a with
  | nil => simp [Ram.store]
  | cons v vs ih =>
    simp only [Ram.store, ih, get?_put, List.length_cons]
    by_cases hk : k = a
    · subst hk; simp
    · by_cases h : a + 1 ≤ k ∧ k < a + 1 + vs.length
      · rw [if_pos h, if_pos (by omega)]
        obtain ⟨j, hj⟩ : ∃ j, k - a = j + 1 := ⟨k - a - 1, by omega⟩
        rw [hj, List.getElem?_cons_succ, show k - (a + 1) = j by omega]
      · rw [if_neg h, if_neg hk, if_neg (by omega)]

theorem get?_store_outside (vs : List α) (m : Ram α) {a k : Nat} (h : k < a ∨ a + vs.length ≤ k) :
    Ram.get? (Ram.store m a vs) k = Ram.get? m k := by
  rw [get?_store, if_neg (by omega)]

/-- A listed value is listed at its key. -/
theorem mem_of_get? {m : Ram α} {k : Nat} {v : α} (h : Ram.get? m k = some v) : (k, v) ∈ m := by
  induction m with
  | nil => simp at h
  | cons x m ih =>
    obtain ⟨a, w⟩ := x
    rw [get?_cons] at h
    split at h
    · cases h; subst_vars; exact List.mem_cons_self
    · exact List.mem_cons_of_mem _ (ih h)

theorem get?_eq_none_of_lt {m : Ram α} {k : Nat} (h : ∀ x ∈ m, k < x.1) : Ram.get? m k = none := by
  cases hg : Ram.get? m k with
  | none => rfl
  | some v => exact absurd (h _ (mem_of_get? hg)) (Nat.lt_irrefl _)

/-- What a store lists after a write: the written pair and entries it listed before. -/
theorem mem_put {m : Ram α} {a : Nat} {v : α} {x : Nat × α} (h : x ∈ Ram.put m a v) : x = (a, v) ∨ x ∈ m := by
  induction m with
  | nil => simpa [Ram.put] using h
  | cons y m ih =>
    obtain ⟨b, w⟩ := y
    unfold Ram.put at h
    split at h
    · simpa using h
    · split at h
      · rcases List.mem_cons.1 h with h | h
        · exact .inl h
        · exact .inr (List.mem_cons_of_mem _ h)
      · rcases List.mem_cons.1 h with h | h
        · exact .inr (h ▸ List.mem_cons_self)
        · exact (ih h).imp id (List.mem_cons_of_mem _)

theorem mem_store {vs : List α} {m : Ram α} {a : Nat} {x : Nat × α} (h : x ∈ Ram.store m a vs) :
    (a ≤ x.1 ∧ x.1 < a + vs.length) ∨ x ∈ m := by
  induction vs generalizing m a with
  | nil => exact .inr h
  | cons v vs ih =>
    rcases ih h with h | h
    · left; simp only [List.length_cons]; omega
    · rcases mem_put h with rfl | h
      · left; simp
      · exact .inr h

theorem mem_erase {m : Ram α} {a : Nat} {x : Nat × α} (h : x ∈ Ram.erase m a) : x ∈ m := by
  induction m with
  | nil => exact h
  | cons y m ih =>
    obtain ⟨b, w⟩ := y
    unfold Ram.erase at h
    split at h
    · exact List.mem_cons_of_mem _ h
    · rcases List.mem_cons.1 h with h | h
      · exact h ▸ List.mem_cons_self
      · exact List.mem_cons_of_mem _ (ih h)

/-- A write keeps the canonical form. -/
theorem wf_put {m : Ram α} (hm : Ram.wf m) (a : Nat) (v : α) : Ram.wf (Ram.put m a v) := by
  induction m with
  | nil => exact List.pairwise_singleton _ _
  | cons y m ih =>
    obtain ⟨b, w⟩ := y
    have hb := List.pairwise_cons.1 hm
    unfold Ram.put
    split
    · rename_i hlt
      refine List.pairwise_cons.2 ⟨fun x hx => ?_, hm⟩
      rcases List.mem_cons.1 hx with rfl | hx
      · exact hlt
      · exact Nat.lt_trans hlt (hb.1 x hx)
    · split
      · subst_vars
        exact List.pairwise_cons.2 ⟨fun x hx => hb.1 x hx, hb.2⟩
      · refine List.pairwise_cons.2 ⟨fun x hx => ?_, ih hb.2⟩
        rcases mem_put hx with rfl | hx
        · show b < a; omega
        · exact hb.1 x hx

/-- Storing a list of values keeps the canonical form. -/
theorem wf_store {m : Ram α} (hm : Ram.wf m) (a : Nat) (vs : List α) : Ram.wf (Ram.store m a vs) := by
  induction vs generalizing m a with
  | nil => exact hm
  | cons v vs ih => exact ih (wf_put hm a v) (a + 1)

/-- Erasing keeps the canonical form. -/
theorem wf_erase {m : Ram α} (hm : Ram.wf m) (a : Nat) : Ram.wf (Ram.erase m a) := by
  induction m with
  | nil => exact hm
  | cons y m ih =>
    obtain ⟨b, w⟩ := y
    have hb := List.pairwise_cons.1 hm
    unfold Ram.erase
    split
    · exact hb.2
    · exact List.pairwise_cons.2 ⟨fun x hx => hb.1 x (mem_erase hx), ih hb.2⟩

/-- Reading after erasing, in canonical form. -/
theorem get?_erase {m : Ram α} (hm : Ram.wf m) (a k : Nat) :
    Ram.get? (Ram.erase m a) k = if k = a then none else Ram.get? m k := by
  induction m with
  | nil => simp [Ram.erase]
  | cons y m ih =>
    obtain ⟨b, w⟩ := y
    have hb := List.pairwise_cons.1 hm
    unfold Ram.erase
    split
    · subst_vars
      rw [get?_cons]
      split
      · subst_vars; exact get?_eq_none_of_lt fun x hx => hb.1 x hx
      · rfl
    · simp only [get?_cons, ih hb.2]
      split
      · subst_vars; rw [if_neg (by omega)]
      · rfl

/-- Two stores in canonical form that read alike are equal: equal contents are equal data. -/
theorem ext_of_get? {m n : Ram α} (hm : Ram.wf m) (hn : Ram.wf n) (h : ∀ k, Ram.get? m k = Ram.get? n k) : m = n := by
  induction m generalizing n with
  | nil =>
    cases n with
    | nil => rfl
    | cons y n => obtain ⟨b, w⟩ := y; have := h b; simp [get?_cons] at this
  | cons x m ih =>
    obtain ⟨a, v⟩ := x
    have ha := List.pairwise_cons.1 hm
    cases n with
    | nil => have := h a; simp [get?_cons] at this
    | cons y n =>
      obtain ⟨b, w⟩ := y
      have hb := List.pairwise_cons.1 hn
      have hab : a = b := by
        have h1 := h a
        have h2 := h b
        simp only [get?_cons, if_true] at h1 h2
        by_contra hne
        rw [if_neg hne] at h1
        rw [if_neg (Ne.symm hne)] at h2
        have l1 := hb.1 _ (mem_of_get? h1.symm)
        have l2 := ha.1 _ (mem_of_get? h2)
        simp only at l1 l2
        omega
      subst hab
      have hv : v = w := by simpa [get?_cons] using h a
      subst hv
      congr 1
      refine ih ha.2 hb.2 fun k => ?_
      by_cases hk : k = a
      · subst hk
        rw [get?_eq_none_of_lt fun x hx => ha.1 x hx, get?_eq_none_of_lt fun x hx => hb.1 x hx]
      · simpa [get?_cons, hk] using h k

end Sys2Proof.Machine.Ram
end

