-- ==== Sys2Proof/Laws/Memory.lean ====
section
/-! SUPPORT. The laws of BUF: what the primitives of spec/20_memory.md R61 to R64 read after they write, and what they
leave. -/

namespace Sys2Proof.Machine

theorem ceilDiv8_mul (n : Nat) : n ≤ 8 * ceilDiv8 n := by unfold ceilDiv8; omega

/-- A byte of BUF after storing the bytes `bs` at `a`. -/
theorem bufByte_store (s : State) (a : Nat) (bs : List Byte) (k : Nat) :
    State.bufByte { s with buf := Ram.store s.buf a bs } k =
      if a ≤ k ∧ k < a + bs.length then bs.getD (k - a) 0 else s.bufByte k := by
  simp only [State.bufByte, State.unlistedByte, Ram.get?_store]
  split
  · rename_i h
    rw [List.getElem?_eq_getElem (show k - a < bs.length by omega), List.getD_eq_getElem _ _ (show k - a < bs.length by omega)]
    rfl
  · rfl

/-- BitStore writes the bytes of the packing and no other byte (R64). -/
theorem bufByte_bitStore (s : State) (a : Nat) (p : List Bool) (k : Nat) :
    (s.bitStore a p).bufByte k =
      if a ≤ k ∧ k < a + ceilDiv8 p.length then packByte p (k - a) else s.bufByte k := by
  rw [State.bitStore, bufByte_store, length_packBits]
  split
  · rename_i h
    rw [List.getD_eq_getElem _ _ (by simp; omega)]
    simp [packBits]
  · rfl

/-- BitRead after BitStore, within the bytes written: the sequence's bit, 0 in the padding (R63, R64). -/
theorem bitRead_bitStore (s : State) (a : Nat) (p : List Bool) (i : Nat) (h : i < 8 * ceilDiv8 p.length) :
    (s.bitStore a p).bitRead a i = p.getD i false := by
  rw [State.bitRead, bufByte_bitStore, if_pos (by omega)]
  have h1 : a + i / 8 - a = i / 8 := by omega
  rw [h1, packByte_bit p (i / 8) (i % 8) (Nat.mod_lt _ (by omega)), Nat.div_add_mod]

/-- HCP §8's packing law: the bits stored are the bits read back. -/
theorem readBits_bitStore (s : State) (a : Nat) (p : List Bool) : (s.bitStore a p).readBits a p.length = p := by
  refine List.ext_getElem (by simp [State.readBits]) fun i h1 h2 => ?_
  have := ceilDiv8_mul p.length
  simp only [State.readBits, List.getElem_map, List.getElem_range]
  rw [bitRead_bitStore s a p i (by omega), List.getD_eq_getElem _ _ h2]

@[simp] theorem length_readBits (s : State) (a n : Nat) : (s.readBits a n).length = n := by simp [State.readBits]

@[simp] theorem length_readWords (s : State) (a n : Nat) : (s.readWords a n).length = n := by simp [State.readWords]

/-- MemRead of four bytes, spelled out (R61, R62). -/
theorem memRead_four (s : State) (a : Nat) :
    s.memRead a 4 = (s.bufByte a).toNat * 2 ^ 24 + (s.bufByte (a + 1)).toNat * 2 ^ 16
      + (s.bufByte (a + 2)).toNat * 2 ^ 8 + (s.bufByte (a + 3)).toNat := by
  have h : List.range 4 = [0, 1, 2, 3] := rfl
  simp only [State.memRead, h, List.map_cons, List.map_nil, List.sum_cons, List.sum_nil, Nat.add_zero]
  omega

theorem memRead_four_lt (s : State) (a : Nat) : s.memRead a 4 < 2 ^ 32 := by
  rw [memRead_four]
  have h0 := (s.bufByte a).isLt
  have h1 := (s.bufByte (a + 1)).isLt
  have h2 := (s.bufByte (a + 2)).isLt
  have h3 := (s.bufByte (a + 3)).isLt
  omega

/-- The symbol word read is the big-endian number of its four bytes. -/
theorem toNat_readWord (s : State) (a : Nat) :
    (s.readWord a).toNat = (s.bufByte a).toNat * 2 ^ 24 + (s.bufByte (a + 1)).toNat * 2 ^ 16
      + (s.bufByte (a + 2)).toNat * 2 ^ 8 + (s.bufByte (a + 3)).toNat := by
  rw [State.readWord, BitVec.toNat_ofNat, Nat.mod_eq_of_lt (memRead_four_lt s a), memRead_four]

/-- A symbol word depends on its four bytes only. -/
theorem readWord_congr {s t : State} {a b : Nat} (h : ∀ k, k < 4 → s.bufByte (a + k) = t.bufByte (b + k)) :
    s.readWord a = t.readWord b := by
  apply BitVec.eq_of_toNat_eq
  rw [toNat_readWord, toNat_readWord]
  have h0 := h 0 (by omega)
  rw [Nat.add_zero, Nat.add_zero] at h0
  rw [h0, h 1 (by omega), h 2 (by omega), h 3 (by omega)]

/-- Byte k of a symbol word written at `a`; every other byte as before (R62). -/
theorem bufByte_writeWord (s : State) (a : Nat) (v : Word) (k : Nat) :
    (s.writeWord a v).bufByte k =
      if a ≤ k ∧ k < a + 4 then BitVec.ofNat 8 (v.toNat / 2 ^ (8 * (3 - (k - a)))) else s.bufByte k := by
  rw [State.writeWord, State.memWrite, bufByte_store, length_beBytes]
  split
  · rename_i h
    have hk : k - a < 4 := by omega
    rw [List.getD_eq_getElem?_getD, getElem?_beBytes _ _ _ hk]
    simp only [Option.getD_some]
    apply BitVec.eq_of_toNat_eq
    simp only [BitVec.toNat_ofNat]
    exact Nat.mod_mod _ _
  · rfl

theorem readWord_writeWord (s : State) (a : Nat) (v : Word) : (s.writeWord a v).readWord a = v := by
  apply BitVec.eq_of_toNat_eq
  rw [toNat_readWord]
  simp only [bufByte_writeWord]
  rw [if_pos (by omega), if_pos (by omega), if_pos (by omega), if_pos (by omega)]
  have e1 : a + 1 - a = 1 := by omega
  have e2 : a + 2 - a = 2 := by omega
  have e3 : a + 3 - a = 3 := by omega
  have hv := v.isLt
  simp only [Nat.sub_self, e1, e2, e3, BitVec.toNat_ofNat]
  omega

theorem readWord_writeWord_ne (s : State) (a b : Nat) (v : Word) (h : b + 4 ≤ a ∨ a + 4 ≤ b) :
    (s.writeWord a v).readWord b = s.readWord b := by
  refine readWord_congr fun k hk => ?_
  rw [bufByte_writeWord, if_neg (by omega)]

theorem bufByte_writeWords_outside (ws : List Word) (s : State) (a k : Nat) (h : k < a ∨ a + 4 * ws.length ≤ k) :
    (s.writeWords a ws).bufByte k = s.bufByte k := by
  induction ws generalizing s a with
  | nil => rfl
  | cons w ws ih =>
    simp only [List.length_cons] at h
    rw [State.writeWords, ih _ _ (by omega), bufByte_writeWord, if_neg (by omega)]

theorem readWord_writeWords_outside (ws : List Word) (s : State) (a b : Nat)
    (h : b + 4 ≤ a ∨ a + 4 * ws.length ≤ b) : (s.writeWords a ws).readWord b = s.readWord b :=
  readWord_congr fun k hk => bufByte_writeWords_outside ws s a (b + k) (by omega)

/-- The words written one after the other are the words read back. -/
theorem readWord_writeWords (ws : List Word) (s : State) (a j : Nat) (h : j < ws.length) :
    (s.writeWords a ws).readWord (a + 4 * j) = ws[j] := by
  induction ws generalizing s a j with
  | nil => simp at h
  | cons w ws ih =>
    cases j with
    | zero =>
      rw [State.writeWords, readWord_writeWords_outside ws _ _ _ (by omega)]
      exact readWord_writeWord s a w
    | succ j =>
      have := ih (s.writeWord a w) (a + 4) j (by simpa using h)
      rw [State.writeWords, show a + 4 * (j + 1) = a + 4 + 4 * j by omega, this]
      rfl

/-- The words written are bytes stored: nothing but BUF changes. -/
theorem writeWords_eq (ws : List Word) (s : State) (a : Nat) :
    s.writeWords a ws = { s with buf := (s.writeWords a ws).buf } := by
  induction ws generalizing s a with
  | nil => rfl
  | cons w ws ih => rw [State.writeWords, ih]; rfl

/-- `any` in a region: the bytes outside it are unchanged (R105). -/
theorem bufByte_anyRegion_outside (s : State) (a n k : Nat) (h : k < a ∨ a + n ≤ k) :
    (s.anyRegion a n).bufByte k = s.bufByte k := by
  simp only [State.bufByte, State.unlistedByte, State.anyRegion]
  rw [Ram.get?_store_outside]
  simp only [List.length_map, List.length_range, bytesInBuf]
  omega

/-- `any` in entries of NODE: the others are unchanged (R176). -/
theorem nodeAt_anyNodes_outside (s : State) (a n k : Nat) (h : k < a ∨ a + n ≤ k) :
    (s.anyNodes a n).nodeAt k = s.nodeAt k := by
  simp only [State.nodeAt, State.unlistedNode, State.anyNodes]
  rw [Ram.get?_store_outside]
  simp only [List.length_map, List.length_range]
  omega

/-! ### Every memory operation keeps the canonical form of BUF -/

/-- BUF right after power-on reset, nothing listed, is in canonical form. -/
theorem wf_reset : Memory.wf State.reset.buf := List.Pairwise.nil

theorem wf_memWrite {s : State} (h : Memory.wf s.buf) (a n v : Nat) : Memory.wf (s.memWrite a n v).buf :=
  Ram.wf_store h a _

theorem wf_writeWord {s : State} (h : Memory.wf s.buf) (a : Nat) (v : Word) : Memory.wf (s.writeWord a v).buf :=
  wf_memWrite h a 4 v.toNat

theorem wf_writeWords (ws : List Word) {s : State} (h : Memory.wf s.buf) (a : Nat) :
    Memory.wf (s.writeWords a ws).buf := by
  induction ws generalizing s a with
  | nil => exact h
  | cons w ws ih => exact ih (wf_writeWord h a w) (a + 4)

theorem wf_bitStore {s : State} (h : Memory.wf s.buf) (a : Nat) (p : List Bool) : Memory.wf (s.bitStore a p).buf :=
  Ram.wf_store h a _

theorem wf_anyRegion {s : State} (h : Memory.wf s.buf) (a n : Nat) : Memory.wf (s.anyRegion a n).buf :=
  Ram.wf_store h a _

/-- No operation lists a byte outside the bytes it writes. -/
theorem mem_writeWords {ws : List Word} {s : State} {a : Nat} {c : Host.Cell} (h : c ∈ (s.writeWords a ws).buf) :
    (a ≤ c.1 ∧ c.1 < a + 4 * ws.length) ∨ c ∈ s.buf := by
  induction ws generalizing s a with
  | nil => exact .inr h
  | cons w ws ih =>
    simp only [List.length_cons]
    rcases ih h with h | h
    · left; omega
    · rcases Ram.mem_store h with h | h
      · left; rw [length_beBytes] at h; omega
      · exact .inr h

theorem mem_bitStore {p : List Bool} {s : State} {a : Nat} {c : Host.Cell} (h : c ∈ (s.bitStore a p).buf) :
    (a ≤ c.1 ∧ c.1 < a + ceilDiv8 p.length) ∨ c ∈ s.buf := by
  rcases Ram.mem_store h with h | h
  · left; rwa [length_packBits] at h
  · exact .inr h

/-- An `any` region lists bytes of BUF only (R60). -/
theorem mem_anyRegion {s : State} {a n : Nat} {c : Host.Cell} (h : c ∈ (s.anyRegion a n).buf) :
    (a ≤ c.1 ∧ c.1 < a + n ∧ c.1 < s.params.bufBytes) ∨ c ∈ s.buf := by
  rcases Ram.mem_store h with h | h
  · left; simp only [List.length_map, List.length_range, bytesInBuf] at h; omega
  · exact .inr h

end Sys2Proof.Machine
end

