-- ==== Sys2Proof/Laws/State.lean ====
section
/-! SUPPORT. What each update of State does to each field: one lemma a field an update, so that no proof unfolds a record
update. A field an update does not name is unchanged. -/

namespace Sys2Proof.Machine.State

variable (s : State)

/-! ### `succeed` (R104) -/

@[simp] theorem succeed_params (r : Nat) : (s.succeed r).params = s.params := rfl
@[simp] theorem succeed_ie (r : Nat) : (s.succeed r).ie = s.ie := rfl
@[simp] theorem succeed_seq (r : Nat) : (s.succeed r).seq = none := rfl
@[simp] theorem succeed_done (r : Nat) : (s.succeed r).done = true := rfl
@[simp] theorem succeed_treeValid (r : Nat) : (s.succeed r).treeValid = s.treeValid := rfl
@[simp] theorem succeed_drop (r : Nat) : (s.succeed r).drop = s.drop := rfl
@[simp] theorem succeed_errcode (r : Nat) : (s.succeed r).errcode = .ok := rfl
@[simp] theorem succeed_srcAddr (r : Nat) : (s.succeed r).srcAddr = s.srcAddr := rfl
@[simp] theorem succeed_srcLen (r : Nat) : (s.succeed r).srcLen = s.srcLen := rfl
@[simp] theorem succeed_dstAddr (r : Nat) : (s.succeed r).dstAddr = s.dstAddr := rfl
@[simp] theorem succeed_dstCap (r : Nat) : (s.succeed r).dstCap = s.dstCap := rfl
@[simp] theorem succeed_outLen (r : Nat) : (s.succeed r).outLen = BitVec.ofNat 32 r := rfl
@[simp] theorem succeed_errPos (r : Nat) : (s.succeed r).errPos = 0 := rfl
@[simp] theorem succeed_root (r : Nat) : (s.succeed r).root = s.root := rfl
@[simp] theorem succeed_nodeIdx (r : Nat) : (s.succeed r).nodeIdx = s.nodeIdx := rfl
@[simp] theorem succeed_nodeKind (r : Nat) : (s.succeed r).nodeKind = s.nodeKind := rfl
@[simp] theorem succeed_nodeSym (r : Nat) : (s.succeed r).nodeSym = s.nodeSym := rfl
@[simp] theorem succeed_nodeLeft (r : Nat) : (s.succeed r).nodeLeft = s.nodeLeft := rfl
@[simp] theorem succeed_nodeRight (r : Nat) : (s.succeed r).nodeRight = s.nodeRight := rfl
@[simp] theorem succeed_nodeCount (r : Nat) : (s.succeed r).nodeCount = s.nodeCount := rfl
@[simp] theorem succeed_leafCount (r : Nat) : (s.succeed r).leafCount = s.leafCount := rfl
@[simp] theorem succeed_ctSym (r : Nat) : (s.succeed r).ctSym = s.ctSym := rfl
@[simp] theorem succeed_ctLen (r : Nat) : (s.succeed r).ctLen = s.ctLen := rfl
@[simp] theorem succeed_ctBits (r : Nat) : (s.succeed r).ctBits = s.ctBits := rfl
@[simp] theorem succeed_node (r : Nat) : (s.succeed r).node = s.node := rfl
@[simp] theorem succeed_code (r : Nat) : (s.succeed r).code = s.code := rfl
@[simp] theorem succeed_buf (r : Nat) : (s.succeed r).buf = s.buf := rfl
@[simp] theorem succeed_epoch (r : Nat) : (s.succeed r).epoch = s.epoch := rfl
@[simp] theorem succeed_draws (r : Nat) : (s.succeed r).draws = s.draws := rfl
@[simp] theorem succeed_resetIn (r : Nat) : (s.succeed r).resetIn = s.resetIn := rfl
@[simp] theorem succeed_readData (r : Nat) : (s.succeed r).readData = s.readData := rfl
@[simp] theorem succeed_events (r : Nat) : (s.succeed r).events = s.events := rfl
@[simp] theorem succeed_bufByte (r : Nat) (k : Nat) : (s.succeed r).bufByte k = s.bufByte k := rfl
@[simp] theorem succeed_nodeAt (r : Nat) (k : Nat) : (s.succeed r).nodeAt k = s.nodeAt k := rfl
@[simp] theorem succeed_codeAt (r : Nat) (k : Nat) : (s.succeed r).codeAt k = s.codeAt k := rfl

/-! ### `fail` (R104) -/

@[simp] theorem fail_params (e : ErrCode) (p : Nat) : (s.fail e p).params = s.params := rfl
@[simp] theorem fail_ie (e : ErrCode) (p : Nat) : (s.fail e p).ie = s.ie := rfl
@[simp] theorem fail_seq (e : ErrCode) (p : Nat) : (s.fail e p).seq = none := rfl
@[simp] theorem fail_done (e : ErrCode) (p : Nat) : (s.fail e p).done = true := rfl
@[simp] theorem fail_treeValid (e : ErrCode) (p : Nat) : (s.fail e p).treeValid = s.treeValid := rfl
@[simp] theorem fail_drop (e : ErrCode) (p : Nat) : (s.fail e p).drop = s.drop := rfl
@[simp] theorem fail_errcode (e : ErrCode) (p : Nat) : (s.fail e p).errcode = e := rfl
@[simp] theorem fail_srcAddr (e : ErrCode) (p : Nat) : (s.fail e p).srcAddr = s.srcAddr := rfl
@[simp] theorem fail_srcLen (e : ErrCode) (p : Nat) : (s.fail e p).srcLen = s.srcLen := rfl
@[simp] theorem fail_dstAddr (e : ErrCode) (p : Nat) : (s.fail e p).dstAddr = s.dstAddr := rfl
@[simp] theorem fail_dstCap (e : ErrCode) (p : Nat) : (s.fail e p).dstCap = s.dstCap := rfl
@[simp] theorem fail_outLen (e : ErrCode) (p : Nat) : (s.fail e p).outLen = 0 := rfl
@[simp] theorem fail_errPos (e : ErrCode) (p : Nat) : (s.fail e p).errPos = BitVec.ofNat 32 p := rfl
@[simp] theorem fail_root (e : ErrCode) (p : Nat) : (s.fail e p).root = s.root := rfl
@[simp] theorem fail_nodeIdx (e : ErrCode) (p : Nat) : (s.fail e p).nodeIdx = s.nodeIdx := rfl
@[simp] theorem fail_nodeKind (e : ErrCode) (p : Nat) : (s.fail e p).nodeKind = s.nodeKind := rfl
@[simp] theorem fail_nodeSym (e : ErrCode) (p : Nat) : (s.fail e p).nodeSym = s.nodeSym := rfl
@[simp] theorem fail_nodeLeft (e : ErrCode) (p : Nat) : (s.fail e p).nodeLeft = s.nodeLeft := rfl
@[simp] theorem fail_nodeRight (e : ErrCode) (p : Nat) : (s.fail e p).nodeRight = s.nodeRight := rfl
@[simp] theorem fail_nodeCount (e : ErrCode) (p : Nat) : (s.fail e p).nodeCount = s.nodeCount := rfl
@[simp] theorem fail_leafCount (e : ErrCode) (p : Nat) : (s.fail e p).leafCount = s.leafCount := rfl
@[simp] theorem fail_ctSym (e : ErrCode) (p : Nat) : (s.fail e p).ctSym = s.ctSym := rfl
@[simp] theorem fail_ctLen (e : ErrCode) (p : Nat) : (s.fail e p).ctLen = s.ctLen := rfl
@[simp] theorem fail_ctBits (e : ErrCode) (p : Nat) : (s.fail e p).ctBits = s.ctBits := rfl
@[simp] theorem fail_node (e : ErrCode) (p : Nat) : (s.fail e p).node = s.node := rfl
@[simp] theorem fail_code (e : ErrCode) (p : Nat) : (s.fail e p).code = s.code := rfl
@[simp] theorem fail_buf (e : ErrCode) (p : Nat) : (s.fail e p).buf = s.buf := rfl
@[simp] theorem fail_epoch (e : ErrCode) (p : Nat) : (s.fail e p).epoch = s.epoch := rfl
@[simp] theorem fail_draws (e : ErrCode) (p : Nat) : (s.fail e p).draws = s.draws := rfl
@[simp] theorem fail_resetIn (e : ErrCode) (p : Nat) : (s.fail e p).resetIn = s.resetIn := rfl
@[simp] theorem fail_readData (e : ErrCode) (p : Nat) : (s.fail e p).readData = s.readData := rfl
@[simp] theorem fail_events (e : ErrCode) (p : Nat) : (s.fail e p).events = s.events := rfl
@[simp] theorem fail_bufByte (e : ErrCode) (p : Nat) (k : Nat) : (s.fail e p).bufByte k = s.bufByte k := rfl
@[simp] theorem fail_nodeAt (e : ErrCode) (p : Nat) (k : Nat) : (s.fail e p).nodeAt k = s.nodeAt k := rfl
@[simp] theorem fail_codeAt (e : ErrCode) (p : Nat) (k : Nat) : (s.fail e p).codeAt k = s.codeAt k := rfl

/-! ### `clearTree` (R38) -/

@[simp] theorem clearTree_params : s.clearTree.params = s.params := rfl
@[simp] theorem clearTree_ie : s.clearTree.ie = s.ie := rfl
@[simp] theorem clearTree_seq : s.clearTree.seq = s.seq := rfl
@[simp] theorem clearTree_done : s.clearTree.done = s.done := rfl
@[simp] theorem clearTree_treeValid : s.clearTree.treeValid = false := rfl
@[simp] theorem clearTree_drop : s.clearTree.drop = s.drop := rfl
@[simp] theorem clearTree_errcode : s.clearTree.errcode = s.errcode := rfl
@[simp] theorem clearTree_srcAddr : s.clearTree.srcAddr = s.srcAddr := rfl
@[simp] theorem clearTree_srcLen : s.clearTree.srcLen = s.srcLen := rfl
@[simp] theorem clearTree_dstAddr : s.clearTree.dstAddr = s.dstAddr := rfl
@[simp] theorem clearTree_dstCap : s.clearTree.dstCap = s.dstCap := rfl
@[simp] theorem clearTree_outLen : s.clearTree.outLen = s.outLen := rfl
@[simp] theorem clearTree_errPos : s.clearTree.errPos = s.errPos := rfl
@[simp] theorem clearTree_root : s.clearTree.root = s.root := rfl
@[simp] theorem clearTree_nodeIdx : s.clearTree.nodeIdx = s.nodeIdx := rfl
@[simp] theorem clearTree_nodeKind : s.clearTree.nodeKind = s.nodeKind := rfl
@[simp] theorem clearTree_nodeSym : s.clearTree.nodeSym = s.nodeSym := rfl
@[simp] theorem clearTree_nodeLeft : s.clearTree.nodeLeft = s.nodeLeft := rfl
@[simp] theorem clearTree_nodeRight : s.clearTree.nodeRight = s.nodeRight := rfl
@[simp] theorem clearTree_nodeCount : s.clearTree.nodeCount = 0 := rfl
@[simp] theorem clearTree_leafCount : s.clearTree.leafCount = 0 := rfl
@[simp] theorem clearTree_ctSym : s.clearTree.ctSym = s.ctSym := rfl
@[simp] theorem clearTree_ctLen : s.clearTree.ctLen = s.ctLen := rfl
@[simp] theorem clearTree_ctBits : s.clearTree.ctBits = s.ctBits := rfl
@[simp] theorem clearTree_node : s.clearTree.node = s.node := rfl
@[simp] theorem clearTree_code : s.clearTree.code = s.code := rfl
@[simp] theorem clearTree_buf : s.clearTree.buf = s.buf := rfl
@[simp] theorem clearTree_epoch : s.clearTree.epoch = s.epoch := rfl
@[simp] theorem clearTree_draws : s.clearTree.draws = s.draws := rfl
@[simp] theorem clearTree_resetIn : s.clearTree.resetIn = s.resetIn := rfl
@[simp] theorem clearTree_readData : s.clearTree.readData = s.readData := rfl
@[simp] theorem clearTree_events : s.clearTree.events = s.events := rfl
@[simp] theorem clearTree_bufByte (k : Nat) : s.clearTree.bufByte k = s.bufByte k := rfl
@[simp] theorem clearTree_nodeAt (k : Nat) : s.clearTree.nodeAt k = s.nodeAt k := rfl
@[simp] theorem clearTree_codeAt (k : Nat) : s.clearTree.codeAt k = s.codeAt k := rfl
@[simp] theorem clearTree_busy : s.clearTree.busy = s.busy := rfl

/-! ### `setTree` (R122) -/

@[simp] theorem setTree_params (n l : Nat) : (s.setTree n l).params = s.params := rfl
@[simp] theorem setTree_ie (n l : Nat) : (s.setTree n l).ie = s.ie := rfl
@[simp] theorem setTree_seq (n l : Nat) : (s.setTree n l).seq = s.seq := rfl
@[simp] theorem setTree_done (n l : Nat) : (s.setTree n l).done = s.done := rfl
@[simp] theorem setTree_treeValid (n l : Nat) : (s.setTree n l).treeValid = true := rfl
@[simp] theorem setTree_drop (n l : Nat) : (s.setTree n l).drop = s.drop := rfl
@[simp] theorem setTree_errcode (n l : Nat) : (s.setTree n l).errcode = s.errcode := rfl
@[simp] theorem setTree_srcAddr (n l : Nat) : (s.setTree n l).srcAddr = s.srcAddr := rfl
@[simp] theorem setTree_srcLen (n l : Nat) : (s.setTree n l).srcLen = s.srcLen := rfl
@[simp] theorem setTree_dstAddr (n l : Nat) : (s.setTree n l).dstAddr = s.dstAddr := rfl
@[simp] theorem setTree_dstCap (n l : Nat) : (s.setTree n l).dstCap = s.dstCap := rfl
@[simp] theorem setTree_outLen (n l : Nat) : (s.setTree n l).outLen = s.outLen := rfl
@[simp] theorem setTree_errPos (n l : Nat) : (s.setTree n l).errPos = s.errPos := rfl
@[simp] theorem setTree_root (n l : Nat) : (s.setTree n l).root = s.root := rfl
@[simp] theorem setTree_nodeIdx (n l : Nat) : (s.setTree n l).nodeIdx = s.nodeIdx := rfl
@[simp] theorem setTree_nodeKind (n l : Nat) : (s.setTree n l).nodeKind = s.nodeKind := rfl
@[simp] theorem setTree_nodeSym (n l : Nat) : (s.setTree n l).nodeSym = s.nodeSym := rfl
@[simp] theorem setTree_nodeLeft (n l : Nat) : (s.setTree n l).nodeLeft = s.nodeLeft := rfl
@[simp] theorem setTree_nodeRight (n l : Nat) : (s.setTree n l).nodeRight = s.nodeRight := rfl
@[simp] theorem setTree_nodeCount (n l : Nat) : (s.setTree n l).nodeCount = BitVec.ofNat 32 n := rfl
@[simp] theorem setTree_leafCount (n l : Nat) : (s.setTree n l).leafCount = BitVec.ofNat 32 l := rfl
@[simp] theorem setTree_ctSym (n l : Nat) : (s.setTree n l).ctSym = s.ctSym := rfl
@[simp] theorem setTree_ctLen (n l : Nat) : (s.setTree n l).ctLen = s.ctLen := rfl
@[simp] theorem setTree_ctBits (n l : Nat) : (s.setTree n l).ctBits = s.ctBits := rfl
@[simp] theorem setTree_node (n l : Nat) : (s.setTree n l).node = s.node := rfl
@[simp] theorem setTree_code (n l : Nat) : (s.setTree n l).code = s.code := rfl
@[simp] theorem setTree_buf (n l : Nat) : (s.setTree n l).buf = s.buf := rfl
@[simp] theorem setTree_epoch (n l : Nat) : (s.setTree n l).epoch = s.epoch := rfl
@[simp] theorem setTree_draws (n l : Nat) : (s.setTree n l).draws = s.draws := rfl
@[simp] theorem setTree_resetIn (n l : Nat) : (s.setTree n l).resetIn = s.resetIn := rfl
@[simp] theorem setTree_readData (n l : Nat) : (s.setTree n l).readData = s.readData := rfl
@[simp] theorem setTree_events (n l : Nat) : (s.setTree n l).events = s.events := rfl
@[simp] theorem setTree_bufByte (n l : Nat) (k : Nat) : (s.setTree n l).bufByte k = s.bufByte k := rfl
@[simp] theorem setTree_nodeAt (n l : Nat) (k : Nat) : (s.setTree n l).nodeAt k = s.nodeAt k := rfl
@[simp] theorem setTree_codeAt (n l : Nat) (k : Nat) : (s.setTree n l).codeAt k = s.codeAt k := rfl
@[simp] theorem setTree_busy (n l : Nat) : (s.setTree n l).busy = s.busy := rfl

/-! ### `putNode` (R120) -/

@[simp] theorem putNode_params (i : Nat) (n : Node) : (s.putNode i n).params = s.params := rfl
@[simp] theorem putNode_ie (i : Nat) (n : Node) : (s.putNode i n).ie = s.ie := rfl
@[simp] theorem putNode_seq (i : Nat) (n : Node) : (s.putNode i n).seq = s.seq := rfl
@[simp] theorem putNode_done (i : Nat) (n : Node) : (s.putNode i n).done = s.done := rfl
@[simp] theorem putNode_treeValid (i : Nat) (n : Node) : (s.putNode i n).treeValid = s.treeValid := rfl
@[simp] theorem putNode_drop (i : Nat) (n : Node) : (s.putNode i n).drop = s.drop := rfl
@[simp] theorem putNode_errcode (i : Nat) (n : Node) : (s.putNode i n).errcode = s.errcode := rfl
@[simp] theorem putNode_srcAddr (i : Nat) (n : Node) : (s.putNode i n).srcAddr = s.srcAddr := rfl
@[simp] theorem putNode_srcLen (i : Nat) (n : Node) : (s.putNode i n).srcLen = s.srcLen := rfl
@[simp] theorem putNode_dstAddr (i : Nat) (n : Node) : (s.putNode i n).dstAddr = s.dstAddr := rfl
@[simp] theorem putNode_dstCap (i : Nat) (n : Node) : (s.putNode i n).dstCap = s.dstCap := rfl
@[simp] theorem putNode_outLen (i : Nat) (n : Node) : (s.putNode i n).outLen = s.outLen := rfl
@[simp] theorem putNode_errPos (i : Nat) (n : Node) : (s.putNode i n).errPos = s.errPos := rfl
@[simp] theorem putNode_root (i : Nat) (n : Node) : (s.putNode i n).root = s.root := rfl
@[simp] theorem putNode_nodeIdx (i : Nat) (n : Node) : (s.putNode i n).nodeIdx = s.nodeIdx := rfl
@[simp] theorem putNode_nodeKind (i : Nat) (n : Node) : (s.putNode i n).nodeKind = s.nodeKind := rfl
@[simp] theorem putNode_nodeSym (i : Nat) (n : Node) : (s.putNode i n).nodeSym = s.nodeSym := rfl
@[simp] theorem putNode_nodeLeft (i : Nat) (n : Node) : (s.putNode i n).nodeLeft = s.nodeLeft := rfl
@[simp] theorem putNode_nodeRight (i : Nat) (n : Node) : (s.putNode i n).nodeRight = s.nodeRight := rfl
@[simp] theorem putNode_nodeCount (i : Nat) (n : Node) : (s.putNode i n).nodeCount = s.nodeCount := rfl
@[simp] theorem putNode_leafCount (i : Nat) (n : Node) : (s.putNode i n).leafCount = s.leafCount := rfl
@[simp] theorem putNode_ctSym (i : Nat) (n : Node) : (s.putNode i n).ctSym = s.ctSym := rfl
@[simp] theorem putNode_ctLen (i : Nat) (n : Node) : (s.putNode i n).ctLen = s.ctLen := rfl
@[simp] theorem putNode_ctBits (i : Nat) (n : Node) : (s.putNode i n).ctBits = s.ctBits := rfl
@[simp] theorem putNode_node (i : Nat) (n : Node) : (s.putNode i n).node = Ram.put s.node i n := rfl
@[simp] theorem putNode_code (i : Nat) (n : Node) : (s.putNode i n).code = s.code := rfl
@[simp] theorem putNode_buf (i : Nat) (n : Node) : (s.putNode i n).buf = s.buf := rfl
@[simp] theorem putNode_epoch (i : Nat) (n : Node) : (s.putNode i n).epoch = s.epoch := rfl
@[simp] theorem putNode_draws (i : Nat) (n : Node) : (s.putNode i n).draws = s.draws := rfl
@[simp] theorem putNode_resetIn (i : Nat) (n : Node) : (s.putNode i n).resetIn = s.resetIn := rfl
@[simp] theorem putNode_readData (i : Nat) (n : Node) : (s.putNode i n).readData = s.readData := rfl
@[simp] theorem putNode_events (i : Nat) (n : Node) : (s.putNode i n).events = s.events := rfl
@[simp] theorem putNode_bufByte (i : Nat) (n : Node) (k : Nat) : (s.putNode i n).bufByte k = s.bufByte k := rfl
@[simp] theorem putNode_codeAt (i : Nat) (n : Node) (k : Nat) : (s.putNode i n).codeAt k = s.codeAt k := rfl
@[simp] theorem putNode_busy (i : Nat) (n : Node) : (s.putNode i n).busy = s.busy := rfl
@[simp] theorem putNode_operands (i : Nat) (n : Node) : (s.putNode i n).operands = s.operands := rfl

/-! ### `loadWindow` (R121) -/

@[simp] theorem loadWindow_params (n : Node) : (s.loadWindow n).params = s.params := rfl
@[simp] theorem loadWindow_ie (n : Node) : (s.loadWindow n).ie = s.ie := rfl
@[simp] theorem loadWindow_seq (n : Node) : (s.loadWindow n).seq = s.seq := rfl
@[simp] theorem loadWindow_done (n : Node) : (s.loadWindow n).done = s.done := rfl
@[simp] theorem loadWindow_treeValid (n : Node) : (s.loadWindow n).treeValid = s.treeValid := rfl
@[simp] theorem loadWindow_drop (n : Node) : (s.loadWindow n).drop = s.drop := rfl
@[simp] theorem loadWindow_errcode (n : Node) : (s.loadWindow n).errcode = s.errcode := rfl
@[simp] theorem loadWindow_srcAddr (n : Node) : (s.loadWindow n).srcAddr = s.srcAddr := rfl
@[simp] theorem loadWindow_srcLen (n : Node) : (s.loadWindow n).srcLen = s.srcLen := rfl
@[simp] theorem loadWindow_dstAddr (n : Node) : (s.loadWindow n).dstAddr = s.dstAddr := rfl
@[simp] theorem loadWindow_dstCap (n : Node) : (s.loadWindow n).dstCap = s.dstCap := rfl
@[simp] theorem loadWindow_outLen (n : Node) : (s.loadWindow n).outLen = s.outLen := rfl
@[simp] theorem loadWindow_errPos (n : Node) : (s.loadWindow n).errPos = s.errPos := rfl
@[simp] theorem loadWindow_root (n : Node) : (s.loadWindow n).root = s.root := rfl
@[simp] theorem loadWindow_nodeIdx (n : Node) : (s.loadWindow n).nodeIdx = s.nodeIdx := rfl
@[simp] theorem loadWindow_nodeKind (n : Node) : (s.loadWindow n).nodeKind = n.kind := rfl
@[simp] theorem loadWindow_nodeSym (n : Node) : (s.loadWindow n).nodeSym = n.sym := rfl
@[simp] theorem loadWindow_nodeLeft (n : Node) : (s.loadWindow n).nodeLeft = n.left := rfl
@[simp] theorem loadWindow_nodeRight (n : Node) : (s.loadWindow n).nodeRight = n.right := rfl
@[simp] theorem loadWindow_nodeCount (n : Node) : (s.loadWindow n).nodeCount = s.nodeCount := rfl
@[simp] theorem loadWindow_leafCount (n : Node) : (s.loadWindow n).leafCount = s.leafCount := rfl
@[simp] theorem loadWindow_ctSym (n : Node) : (s.loadWindow n).ctSym = s.ctSym := rfl
@[simp] theorem loadWindow_ctLen (n : Node) : (s.loadWindow n).ctLen = s.ctLen := rfl
@[simp] theorem loadWindow_ctBits (n : Node) : (s.loadWindow n).ctBits = s.ctBits := rfl
@[simp] theorem loadWindow_node (n : Node) : (s.loadWindow n).node = s.node := rfl
@[simp] theorem loadWindow_code (n : Node) : (s.loadWindow n).code = s.code := rfl
@[simp] theorem loadWindow_buf (n : Node) : (s.loadWindow n).buf = s.buf := rfl
@[simp] theorem loadWindow_epoch (n : Node) : (s.loadWindow n).epoch = s.epoch := rfl
@[simp] theorem loadWindow_draws (n : Node) : (s.loadWindow n).draws = s.draws := rfl
@[simp] theorem loadWindow_resetIn (n : Node) : (s.loadWindow n).resetIn = s.resetIn := rfl
@[simp] theorem loadWindow_readData (n : Node) : (s.loadWindow n).readData = s.readData := rfl
@[simp] theorem loadWindow_events (n : Node) : (s.loadWindow n).events = s.events := rfl
@[simp] theorem loadWindow_bufByte (n : Node) (k : Nat) : (s.loadWindow n).bufByte k = s.bufByte k := rfl
@[simp] theorem loadWindow_nodeAt (n : Node) (k : Nat) : (s.loadWindow n).nodeAt k = s.nodeAt k := rfl
@[simp] theorem loadWindow_codeAt (n : Node) (k : Nat) : (s.loadWindow n).codeAt k = s.codeAt k := rfl
@[simp] theorem loadWindow_busy (n : Node) : (s.loadWindow n).busy = s.busy := rfl

/-! ### `clearCode` (R123) -/

@[simp] theorem clearCode_params : s.clearCode.params = s.params := rfl
@[simp] theorem clearCode_ie : s.clearCode.ie = s.ie := rfl
@[simp] theorem clearCode_seq : s.clearCode.seq = s.seq := rfl
@[simp] theorem clearCode_done : s.clearCode.done = s.done := rfl
@[simp] theorem clearCode_treeValid : s.clearCode.treeValid = s.treeValid := rfl
@[simp] theorem clearCode_drop : s.clearCode.drop = s.drop := rfl
@[simp] theorem clearCode_errcode : s.clearCode.errcode = s.errcode := rfl
@[simp] theorem clearCode_srcAddr : s.clearCode.srcAddr = s.srcAddr := rfl
@[simp] theorem clearCode_srcLen : s.clearCode.srcLen = s.srcLen := rfl
@[simp] theorem clearCode_dstAddr : s.clearCode.dstAddr = s.dstAddr := rfl
@[simp] theorem clearCode_dstCap : s.clearCode.dstCap = s.dstCap := rfl
@[simp] theorem clearCode_outLen : s.clearCode.outLen = s.outLen := rfl
@[simp] theorem clearCode_errPos : s.clearCode.errPos = s.errPos := rfl
@[simp] theorem clearCode_root : s.clearCode.root = s.root := rfl
@[simp] theorem clearCode_nodeIdx : s.clearCode.nodeIdx = s.nodeIdx := rfl
@[simp] theorem clearCode_nodeKind : s.clearCode.nodeKind = s.nodeKind := rfl
@[simp] theorem clearCode_nodeSym : s.clearCode.nodeSym = s.nodeSym := rfl
@[simp] theorem clearCode_nodeLeft : s.clearCode.nodeLeft = s.nodeLeft := rfl
@[simp] theorem clearCode_nodeRight : s.clearCode.nodeRight = s.nodeRight := rfl
@[simp] theorem clearCode_nodeCount : s.clearCode.nodeCount = s.nodeCount := rfl
@[simp] theorem clearCode_leafCount : s.clearCode.leafCount = s.leafCount := rfl
@[simp] theorem clearCode_ctSym : s.clearCode.ctSym = s.ctSym := rfl
@[simp] theorem clearCode_ctLen : s.clearCode.ctLen = s.ctLen := rfl
@[simp] theorem clearCode_ctBits : s.clearCode.ctBits = s.ctBits := rfl
@[simp] theorem clearCode_node : s.clearCode.node = s.node := rfl
@[simp] theorem clearCode_code : s.clearCode.code = [] := rfl
@[simp] theorem clearCode_buf : s.clearCode.buf = s.buf := rfl
@[simp] theorem clearCode_epoch : s.clearCode.epoch = s.epoch := rfl
@[simp] theorem clearCode_draws : s.clearCode.draws = s.draws := rfl
@[simp] theorem clearCode_resetIn : s.clearCode.resetIn = s.resetIn := rfl
@[simp] theorem clearCode_readData : s.clearCode.readData = s.readData := rfl
@[simp] theorem clearCode_events : s.clearCode.events = s.events := rfl
@[simp] theorem clearCode_bufByte (k : Nat) : s.clearCode.bufByte k = s.bufByte k := rfl
@[simp] theorem clearCode_nodeAt (k : Nat) : s.clearCode.nodeAt k = s.nodeAt k := rfl
@[simp] theorem clearCode_busy : s.clearCode.busy = s.busy := rfl
@[simp] theorem clearCode_operands : s.clearCode.operands = s.operands := rfl

/-! ### `putCode` (R124) -/

@[simp] theorem putCode_params (k : Nat) (p : Code) : (s.putCode k p).params = s.params := rfl
@[simp] theorem putCode_ie (k : Nat) (p : Code) : (s.putCode k p).ie = s.ie := rfl
@[simp] theorem putCode_seq (k : Nat) (p : Code) : (s.putCode k p).seq = s.seq := rfl
@[simp] theorem putCode_done (k : Nat) (p : Code) : (s.putCode k p).done = s.done := rfl
@[simp] theorem putCode_treeValid (k : Nat) (p : Code) : (s.putCode k p).treeValid = s.treeValid := rfl
@[simp] theorem putCode_drop (k : Nat) (p : Code) : (s.putCode k p).drop = s.drop := rfl
@[simp] theorem putCode_errcode (k : Nat) (p : Code) : (s.putCode k p).errcode = s.errcode := rfl
@[simp] theorem putCode_srcAddr (k : Nat) (p : Code) : (s.putCode k p).srcAddr = s.srcAddr := rfl
@[simp] theorem putCode_srcLen (k : Nat) (p : Code) : (s.putCode k p).srcLen = s.srcLen := rfl
@[simp] theorem putCode_dstAddr (k : Nat) (p : Code) : (s.putCode k p).dstAddr = s.dstAddr := rfl
@[simp] theorem putCode_dstCap (k : Nat) (p : Code) : (s.putCode k p).dstCap = s.dstCap := rfl
@[simp] theorem putCode_outLen (k : Nat) (p : Code) : (s.putCode k p).outLen = s.outLen := rfl
@[simp] theorem putCode_errPos (k : Nat) (p : Code) : (s.putCode k p).errPos = s.errPos := rfl
@[simp] theorem putCode_root (k : Nat) (p : Code) : (s.putCode k p).root = s.root := rfl
@[simp] theorem putCode_nodeIdx (k : Nat) (p : Code) : (s.putCode k p).nodeIdx = s.nodeIdx := rfl
@[simp] theorem putCode_nodeKind (k : Nat) (p : Code) : (s.putCode k p).nodeKind = s.nodeKind := rfl
@[simp] theorem putCode_nodeSym (k : Nat) (p : Code) : (s.putCode k p).nodeSym = s.nodeSym := rfl
@[simp] theorem putCode_nodeLeft (k : Nat) (p : Code) : (s.putCode k p).nodeLeft = s.nodeLeft := rfl
@[simp] theorem putCode_nodeRight (k : Nat) (p : Code) : (s.putCode k p).nodeRight = s.nodeRight := rfl
@[simp] theorem putCode_nodeCount (k : Nat) (p : Code) : (s.putCode k p).nodeCount = s.nodeCount := rfl
@[simp] theorem putCode_leafCount (k : Nat) (p : Code) : (s.putCode k p).leafCount = s.leafCount := rfl
@[simp] theorem putCode_ctSym (k : Nat) (p : Code) : (s.putCode k p).ctSym = s.ctSym := rfl
@[simp] theorem putCode_ctLen (k : Nat) (p : Code) : (s.putCode k p).ctLen = s.ctLen := rfl
@[simp] theorem putCode_ctBits (k : Nat) (p : Code) : (s.putCode k p).ctBits = s.ctBits := rfl
@[simp] theorem putCode_node (k : Nat) (p : Code) : (s.putCode k p).node = s.node := rfl
@[simp] theorem putCode_code (k : Nat) (p : Code) : (s.putCode k p).code = Ram.put s.code k p := rfl
@[simp] theorem putCode_buf (k : Nat) (p : Code) : (s.putCode k p).buf = s.buf := rfl
@[simp] theorem putCode_epoch (k : Nat) (p : Code) : (s.putCode k p).epoch = s.epoch := rfl
@[simp] theorem putCode_draws (k : Nat) (p : Code) : (s.putCode k p).draws = s.draws := rfl
@[simp] theorem putCode_resetIn (k : Nat) (p : Code) : (s.putCode k p).resetIn = s.resetIn := rfl
@[simp] theorem putCode_readData (k : Nat) (p : Code) : (s.putCode k p).readData = s.readData := rfl
@[simp] theorem putCode_events (k : Nat) (p : Code) : (s.putCode k p).events = s.events := rfl
@[simp] theorem putCode_bufByte (k : Nat) (p : Code) (j : Nat) : (s.putCode k p).bufByte j = s.bufByte j := rfl
@[simp] theorem putCode_nodeAt (k : Nat) (p : Code) (j : Nat) : (s.putCode k p).nodeAt j = s.nodeAt j := rfl
@[simp] theorem putCode_busy (k : Nat) (p : Code) : (s.putCode k p).busy = s.busy := rfl
@[simp] theorem putCode_operands (k : Nat) (p : Code) : (s.putCode k p).operands = s.operands := rfl

/-! ### `dropCode` (R124) -/

@[simp] theorem dropCode_params (k : Nat) : (s.dropCode k).params = s.params := rfl
@[simp] theorem dropCode_ie (k : Nat) : (s.dropCode k).ie = s.ie := rfl
@[simp] theorem dropCode_seq (k : Nat) : (s.dropCode k).seq = s.seq := rfl
@[simp] theorem dropCode_done (k : Nat) : (s.dropCode k).done = s.done := rfl
@[simp] theorem dropCode_treeValid (k : Nat) : (s.dropCode k).treeValid = s.treeValid := rfl
@[simp] theorem dropCode_drop (k : Nat) : (s.dropCode k).drop = s.drop := rfl
@[simp] theorem dropCode_errcode (k : Nat) : (s.dropCode k).errcode = s.errcode := rfl
@[simp] theorem dropCode_srcAddr (k : Nat) : (s.dropCode k).srcAddr = s.srcAddr := rfl
@[simp] theorem dropCode_srcLen (k : Nat) : (s.dropCode k).srcLen = s.srcLen := rfl
@[simp] theorem dropCode_dstAddr (k : Nat) : (s.dropCode k).dstAddr = s.dstAddr := rfl
@[simp] theorem dropCode_dstCap (k : Nat) : (s.dropCode k).dstCap = s.dstCap := rfl
@[simp] theorem dropCode_outLen (k : Nat) : (s.dropCode k).outLen = s.outLen := rfl
@[simp] theorem dropCode_errPos (k : Nat) : (s.dropCode k).errPos = s.errPos := rfl
@[simp] theorem dropCode_root (k : Nat) : (s.dropCode k).root = s.root := rfl
@[simp] theorem dropCode_nodeIdx (k : Nat) : (s.dropCode k).nodeIdx = s.nodeIdx := rfl
@[simp] theorem dropCode_nodeKind (k : Nat) : (s.dropCode k).nodeKind = s.nodeKind := rfl
@[simp] theorem dropCode_nodeSym (k : Nat) : (s.dropCode k).nodeSym = s.nodeSym := rfl
@[simp] theorem dropCode_nodeLeft (k : Nat) : (s.dropCode k).nodeLeft = s.nodeLeft := rfl
@[simp] theorem dropCode_nodeRight (k : Nat) : (s.dropCode k).nodeRight = s.nodeRight := rfl
@[simp] theorem dropCode_nodeCount (k : Nat) : (s.dropCode k).nodeCount = s.nodeCount := rfl
@[simp] theorem dropCode_leafCount (k : Nat) : (s.dropCode k).leafCount = s.leafCount := rfl
@[simp] theorem dropCode_ctSym (k : Nat) : (s.dropCode k).ctSym = s.ctSym := rfl
@[simp] theorem dropCode_ctLen (k : Nat) : (s.dropCode k).ctLen = s.ctLen := rfl
@[simp] theorem dropCode_ctBits (k : Nat) : (s.dropCode k).ctBits = s.ctBits := rfl
@[simp] theorem dropCode_node (k : Nat) : (s.dropCode k).node = s.node := rfl
@[simp] theorem dropCode_code (k : Nat) : (s.dropCode k).code = Ram.erase s.code k := rfl
@[simp] theorem dropCode_buf (k : Nat) : (s.dropCode k).buf = s.buf := rfl
@[simp] theorem dropCode_epoch (k : Nat) : (s.dropCode k).epoch = s.epoch := rfl
@[simp] theorem dropCode_draws (k : Nat) : (s.dropCode k).draws = s.draws := rfl
@[simp] theorem dropCode_resetIn (k : Nat) : (s.dropCode k).resetIn = s.resetIn := rfl
@[simp] theorem dropCode_readData (k : Nat) : (s.dropCode k).readData = s.readData := rfl
@[simp] theorem dropCode_events (k : Nat) : (s.dropCode k).events = s.events := rfl
@[simp] theorem dropCode_bufByte (k : Nat) (j : Nat) : (s.dropCode k).bufByte j = s.bufByte j := rfl
@[simp] theorem dropCode_nodeAt (k : Nat) (j : Nat) : (s.dropCode k).nodeAt j = s.nodeAt j := rfl
@[simp] theorem dropCode_busy (k : Nat) : (s.dropCode k).busy = s.busy := rfl
@[simp] theorem dropCode_operands (k : Nat) : (s.dropCode k).operands = s.operands := rfl

/-! ### `loadCode` (R125) -/

@[simp] theorem loadCode_params (c : Option Code) : (s.loadCode c).params = s.params := rfl
@[simp] theorem loadCode_ie (c : Option Code) : (s.loadCode c).ie = s.ie := rfl
@[simp] theorem loadCode_seq (c : Option Code) : (s.loadCode c).seq = s.seq := rfl
@[simp] theorem loadCode_done (c : Option Code) : (s.loadCode c).done = s.done := rfl
@[simp] theorem loadCode_treeValid (c : Option Code) : (s.loadCode c).treeValid = s.treeValid := rfl
@[simp] theorem loadCode_drop (c : Option Code) : (s.loadCode c).drop = s.drop := rfl
@[simp] theorem loadCode_errcode (c : Option Code) : (s.loadCode c).errcode = s.errcode := rfl
@[simp] theorem loadCode_srcAddr (c : Option Code) : (s.loadCode c).srcAddr = s.srcAddr := rfl
@[simp] theorem loadCode_srcLen (c : Option Code) : (s.loadCode c).srcLen = s.srcLen := rfl
@[simp] theorem loadCode_dstAddr (c : Option Code) : (s.loadCode c).dstAddr = s.dstAddr := rfl
@[simp] theorem loadCode_dstCap (c : Option Code) : (s.loadCode c).dstCap = s.dstCap := rfl
@[simp] theorem loadCode_outLen (c : Option Code) : (s.loadCode c).outLen = s.outLen := rfl
@[simp] theorem loadCode_errPos (c : Option Code) : (s.loadCode c).errPos = s.errPos := rfl
@[simp] theorem loadCode_root (c : Option Code) : (s.loadCode c).root = s.root := rfl
@[simp] theorem loadCode_nodeIdx (c : Option Code) : (s.loadCode c).nodeIdx = s.nodeIdx := rfl
@[simp] theorem loadCode_nodeKind (c : Option Code) : (s.loadCode c).nodeKind = s.nodeKind := rfl
@[simp] theorem loadCode_nodeSym (c : Option Code) : (s.loadCode c).nodeSym = s.nodeSym := rfl
@[simp] theorem loadCode_nodeLeft (c : Option Code) : (s.loadCode c).nodeLeft = s.nodeLeft := rfl
@[simp] theorem loadCode_nodeRight (c : Option Code) : (s.loadCode c).nodeRight = s.nodeRight := rfl
@[simp] theorem loadCode_nodeCount (c : Option Code) : (s.loadCode c).nodeCount = s.nodeCount := rfl
@[simp] theorem loadCode_leafCount (c : Option Code) : (s.loadCode c).leafCount = s.leafCount := rfl
@[simp] theorem loadCode_ctSym (c : Option Code) : (s.loadCode c).ctSym = s.ctSym := rfl
@[simp] theorem loadCode_ctLen (c : Option Code) : (s.loadCode c).ctLen = BitVec.ofNat 32 (c.getD []).length := rfl
@[simp] theorem loadCode_ctBits (c : Option Code) :
    (s.loadCode c).ctBits =
      BitVec.ofNat 32 (bitsToNat (c.getD [])) :=
  rfl
@[simp] theorem loadCode_node (c : Option Code) : (s.loadCode c).node = s.node := rfl
@[simp] theorem loadCode_code (c : Option Code) : (s.loadCode c).code = s.code := rfl
@[simp] theorem loadCode_buf (c : Option Code) : (s.loadCode c).buf = s.buf := rfl
@[simp] theorem loadCode_epoch (c : Option Code) : (s.loadCode c).epoch = s.epoch := rfl
@[simp] theorem loadCode_draws (c : Option Code) : (s.loadCode c).draws = s.draws := rfl
@[simp] theorem loadCode_resetIn (c : Option Code) : (s.loadCode c).resetIn = s.resetIn := rfl
@[simp] theorem loadCode_readData (c : Option Code) : (s.loadCode c).readData = s.readData := rfl
@[simp] theorem loadCode_events (c : Option Code) : (s.loadCode c).events = s.events := rfl
@[simp] theorem loadCode_bufByte (c : Option Code) (k : Nat) : (s.loadCode c).bufByte k = s.bufByte k := rfl
@[simp] theorem loadCode_nodeAt (c : Option Code) (k : Nat) : (s.loadCode c).nodeAt k = s.nodeAt k := rfl
@[simp] theorem loadCode_codeAt (c : Option Code) (k : Nat) : (s.loadCode c).codeAt k = s.codeAt k := rfl
@[simp] theorem loadCode_busy (c : Option Code) : (s.loadCode c).busy = s.busy := rfl

/-! ### `anyRegion` (R105) -/

@[simp] theorem anyRegion_params (a n : Nat) : (s.anyRegion a n).params = s.params := rfl
@[simp] theorem anyRegion_ie (a n : Nat) : (s.anyRegion a n).ie = s.ie := rfl
@[simp] theorem anyRegion_seq (a n : Nat) : (s.anyRegion a n).seq = s.seq := rfl
@[simp] theorem anyRegion_done (a n : Nat) : (s.anyRegion a n).done = s.done := rfl
@[simp] theorem anyRegion_treeValid (a n : Nat) : (s.anyRegion a n).treeValid = s.treeValid := rfl
@[simp] theorem anyRegion_drop (a n : Nat) : (s.anyRegion a n).drop = s.drop := rfl
@[simp] theorem anyRegion_errcode (a n : Nat) : (s.anyRegion a n).errcode = s.errcode := rfl
@[simp] theorem anyRegion_srcAddr (a n : Nat) : (s.anyRegion a n).srcAddr = s.srcAddr := rfl
@[simp] theorem anyRegion_srcLen (a n : Nat) : (s.anyRegion a n).srcLen = s.srcLen := rfl
@[simp] theorem anyRegion_dstAddr (a n : Nat) : (s.anyRegion a n).dstAddr = s.dstAddr := rfl
@[simp] theorem anyRegion_dstCap (a n : Nat) : (s.anyRegion a n).dstCap = s.dstCap := rfl
@[simp] theorem anyRegion_outLen (a n : Nat) : (s.anyRegion a n).outLen = s.outLen := rfl
@[simp] theorem anyRegion_errPos (a n : Nat) : (s.anyRegion a n).errPos = s.errPos := rfl
@[simp] theorem anyRegion_root (a n : Nat) : (s.anyRegion a n).root = s.root := rfl
@[simp] theorem anyRegion_nodeIdx (a n : Nat) : (s.anyRegion a n).nodeIdx = s.nodeIdx := rfl
@[simp] theorem anyRegion_nodeKind (a n : Nat) : (s.anyRegion a n).nodeKind = s.nodeKind := rfl
@[simp] theorem anyRegion_nodeSym (a n : Nat) : (s.anyRegion a n).nodeSym = s.nodeSym := rfl
@[simp] theorem anyRegion_nodeLeft (a n : Nat) : (s.anyRegion a n).nodeLeft = s.nodeLeft := rfl
@[simp] theorem anyRegion_nodeRight (a n : Nat) : (s.anyRegion a n).nodeRight = s.nodeRight := rfl
@[simp] theorem anyRegion_nodeCount (a n : Nat) : (s.anyRegion a n).nodeCount = s.nodeCount := rfl
@[simp] theorem anyRegion_leafCount (a n : Nat) : (s.anyRegion a n).leafCount = s.leafCount := rfl
@[simp] theorem anyRegion_ctSym (a n : Nat) : (s.anyRegion a n).ctSym = s.ctSym := rfl
@[simp] theorem anyRegion_ctLen (a n : Nat) : (s.anyRegion a n).ctLen = s.ctLen := rfl
@[simp] theorem anyRegion_ctBits (a n : Nat) : (s.anyRegion a n).ctBits = s.ctBits := rfl
@[simp] theorem anyRegion_node (a n : Nat) : (s.anyRegion a n).node = s.node := rfl
@[simp] theorem anyRegion_code (a n : Nat) : (s.anyRegion a n).code = s.code := rfl
@[simp] theorem anyRegion_buf (a n : Nat) :
    (s.anyRegion a n).buf =
      Ram.store s.buf a ((List.range (bytesInBuf s.params a n)).map fun k => Config.anyByte (s.draws + k)) :=
  rfl
@[simp] theorem anyRegion_epoch (a n : Nat) : (s.anyRegion a n).epoch = s.epoch := rfl
@[simp] theorem anyRegion_draws (a n : Nat) : (s.anyRegion a n).draws = s.draws + bytesInBuf s.params a n := rfl
@[simp] theorem anyRegion_resetIn (a n : Nat) : (s.anyRegion a n).resetIn = s.resetIn := rfl
@[simp] theorem anyRegion_readData (a n : Nat) : (s.anyRegion a n).readData = s.readData := rfl
@[simp] theorem anyRegion_events (a n : Nat) : (s.anyRegion a n).events = s.events := rfl
@[simp] theorem anyRegion_nodeAt (a n : Nat) (k : Nat) : (s.anyRegion a n).nodeAt k = s.nodeAt k := rfl
@[simp] theorem anyRegion_codeAt (a n : Nat) (k : Nat) : (s.anyRegion a n).codeAt k = s.codeAt k := rfl
@[simp] theorem anyRegion_busy (a n : Nat) : (s.anyRegion a n).busy = s.busy := rfl
@[simp] theorem anyRegion_operands (a n : Nat) : (s.anyRegion a n).operands = s.operands := rfl

/-! ### `anyNodes` (R176) -/

@[simp] theorem anyNodes_params (a n : Nat) : (s.anyNodes a n).params = s.params := rfl
@[simp] theorem anyNodes_ie (a n : Nat) : (s.anyNodes a n).ie = s.ie := rfl
@[simp] theorem anyNodes_seq (a n : Nat) : (s.anyNodes a n).seq = s.seq := rfl
@[simp] theorem anyNodes_done (a n : Nat) : (s.anyNodes a n).done = s.done := rfl
@[simp] theorem anyNodes_treeValid (a n : Nat) : (s.anyNodes a n).treeValid = s.treeValid := rfl
@[simp] theorem anyNodes_drop (a n : Nat) : (s.anyNodes a n).drop = s.drop := rfl
@[simp] theorem anyNodes_errcode (a n : Nat) : (s.anyNodes a n).errcode = s.errcode := rfl
@[simp] theorem anyNodes_srcAddr (a n : Nat) : (s.anyNodes a n).srcAddr = s.srcAddr := rfl
@[simp] theorem anyNodes_srcLen (a n : Nat) : (s.anyNodes a n).srcLen = s.srcLen := rfl
@[simp] theorem anyNodes_dstAddr (a n : Nat) : (s.anyNodes a n).dstAddr = s.dstAddr := rfl
@[simp] theorem anyNodes_dstCap (a n : Nat) : (s.anyNodes a n).dstCap = s.dstCap := rfl
@[simp] theorem anyNodes_outLen (a n : Nat) : (s.anyNodes a n).outLen = s.outLen := rfl
@[simp] theorem anyNodes_errPos (a n : Nat) : (s.anyNodes a n).errPos = s.errPos := rfl
@[simp] theorem anyNodes_root (a n : Nat) : (s.anyNodes a n).root = s.root := rfl
@[simp] theorem anyNodes_nodeIdx (a n : Nat) : (s.anyNodes a n).nodeIdx = s.nodeIdx := rfl
@[simp] theorem anyNodes_nodeKind (a n : Nat) : (s.anyNodes a n).nodeKind = s.nodeKind := rfl
@[simp] theorem anyNodes_nodeSym (a n : Nat) : (s.anyNodes a n).nodeSym = s.nodeSym := rfl
@[simp] theorem anyNodes_nodeLeft (a n : Nat) : (s.anyNodes a n).nodeLeft = s.nodeLeft := rfl
@[simp] theorem anyNodes_nodeRight (a n : Nat) : (s.anyNodes a n).nodeRight = s.nodeRight := rfl
@[simp] theorem anyNodes_nodeCount (a n : Nat) : (s.anyNodes a n).nodeCount = s.nodeCount := rfl
@[simp] theorem anyNodes_leafCount (a n : Nat) : (s.anyNodes a n).leafCount = s.leafCount := rfl
@[simp] theorem anyNodes_ctSym (a n : Nat) : (s.anyNodes a n).ctSym = s.ctSym := rfl
@[simp] theorem anyNodes_ctLen (a n : Nat) : (s.anyNodes a n).ctLen = s.ctLen := rfl
@[simp] theorem anyNodes_ctBits (a n : Nat) : (s.anyNodes a n).ctBits = s.ctBits := rfl
@[simp] theorem anyNodes_node (a n : Nat) :
    (s.anyNodes a n).node =
      Ram.store s.node a ((List.range n).map fun k => anyNode (s.draws + k)) :=
  rfl
@[simp] theorem anyNodes_code (a n : Nat) : (s.anyNodes a n).code = s.code := rfl
@[simp] theorem anyNodes_buf (a n : Nat) : (s.anyNodes a n).buf = s.buf := rfl
@[simp] theorem anyNodes_epoch (a n : Nat) : (s.anyNodes a n).epoch = s.epoch := rfl
@[simp] theorem anyNodes_draws (a n : Nat) : (s.anyNodes a n).draws = s.draws + n := rfl
@[simp] theorem anyNodes_resetIn (a n : Nat) : (s.anyNodes a n).resetIn = s.resetIn := rfl
@[simp] theorem anyNodes_readData (a n : Nat) : (s.anyNodes a n).readData = s.readData := rfl
@[simp] theorem anyNodes_events (a n : Nat) : (s.anyNodes a n).events = s.events := rfl
@[simp] theorem anyNodes_bufByte (a n : Nat) (k : Nat) : (s.anyNodes a n).bufByte k = s.bufByte k := rfl
@[simp] theorem anyNodes_codeAt (a n : Nat) (k : Nat) : (s.anyNodes a n).codeAt k = s.codeAt k := rfl
@[simp] theorem anyNodes_busy (a n : Nat) : (s.anyNodes a n).busy = s.busy := rfl
@[simp] theorem anyNodes_operands (a n : Nat) : (s.anyNodes a n).operands = s.operands := rfl

/-! ### `memWrite` (R62) -/

@[simp] theorem memWrite_params (a n v : Nat) : (s.memWrite a n v).params = s.params := rfl
@[simp] theorem memWrite_ie (a n v : Nat) : (s.memWrite a n v).ie = s.ie := rfl
@[simp] theorem memWrite_seq (a n v : Nat) : (s.memWrite a n v).seq = s.seq := rfl
@[simp] theorem memWrite_done (a n v : Nat) : (s.memWrite a n v).done = s.done := rfl
@[simp] theorem memWrite_treeValid (a n v : Nat) : (s.memWrite a n v).treeValid = s.treeValid := rfl
@[simp] theorem memWrite_drop (a n v : Nat) : (s.memWrite a n v).drop = s.drop := rfl
@[simp] theorem memWrite_errcode (a n v : Nat) : (s.memWrite a n v).errcode = s.errcode := rfl
@[simp] theorem memWrite_srcAddr (a n v : Nat) : (s.memWrite a n v).srcAddr = s.srcAddr := rfl
@[simp] theorem memWrite_srcLen (a n v : Nat) : (s.memWrite a n v).srcLen = s.srcLen := rfl
@[simp] theorem memWrite_dstAddr (a n v : Nat) : (s.memWrite a n v).dstAddr = s.dstAddr := rfl
@[simp] theorem memWrite_dstCap (a n v : Nat) : (s.memWrite a n v).dstCap = s.dstCap := rfl
@[simp] theorem memWrite_outLen (a n v : Nat) : (s.memWrite a n v).outLen = s.outLen := rfl
@[simp] theorem memWrite_errPos (a n v : Nat) : (s.memWrite a n v).errPos = s.errPos := rfl
@[simp] theorem memWrite_root (a n v : Nat) : (s.memWrite a n v).root = s.root := rfl
@[simp] theorem memWrite_nodeIdx (a n v : Nat) : (s.memWrite a n v).nodeIdx = s.nodeIdx := rfl
@[simp] theorem memWrite_nodeKind (a n v : Nat) : (s.memWrite a n v).nodeKind = s.nodeKind := rfl
@[simp] theorem memWrite_nodeSym (a n v : Nat) : (s.memWrite a n v).nodeSym = s.nodeSym := rfl
@[simp] theorem memWrite_nodeLeft (a n v : Nat) : (s.memWrite a n v).nodeLeft = s.nodeLeft := rfl
@[simp] theorem memWrite_nodeRight (a n v : Nat) : (s.memWrite a n v).nodeRight = s.nodeRight := rfl
@[simp] theorem memWrite_nodeCount (a n v : Nat) : (s.memWrite a n v).nodeCount = s.nodeCount := rfl
@[simp] theorem memWrite_leafCount (a n v : Nat) : (s.memWrite a n v).leafCount = s.leafCount := rfl
@[simp] theorem memWrite_ctSym (a n v : Nat) : (s.memWrite a n v).ctSym = s.ctSym := rfl
@[simp] theorem memWrite_ctLen (a n v : Nat) : (s.memWrite a n v).ctLen = s.ctLen := rfl
@[simp] theorem memWrite_ctBits (a n v : Nat) : (s.memWrite a n v).ctBits = s.ctBits := rfl
@[simp] theorem memWrite_node (a n v : Nat) : (s.memWrite a n v).node = s.node := rfl
@[simp] theorem memWrite_code (a n v : Nat) : (s.memWrite a n v).code = s.code := rfl
@[simp] theorem memWrite_buf (a n v : Nat) : (s.memWrite a n v).buf = Ram.store s.buf a (beBytes n v) := rfl
@[simp] theorem memWrite_epoch (a n v : Nat) : (s.memWrite a n v).epoch = s.epoch := rfl
@[simp] theorem memWrite_draws (a n v : Nat) : (s.memWrite a n v).draws = s.draws := rfl
@[simp] theorem memWrite_resetIn (a n v : Nat) : (s.memWrite a n v).resetIn = s.resetIn := rfl
@[simp] theorem memWrite_readData (a n v : Nat) : (s.memWrite a n v).readData = s.readData := rfl
@[simp] theorem memWrite_events (a n v : Nat) : (s.memWrite a n v).events = s.events := rfl
@[simp] theorem memWrite_nodeAt (a n v : Nat) (k : Nat) : (s.memWrite a n v).nodeAt k = s.nodeAt k := rfl
@[simp] theorem memWrite_codeAt (a n v : Nat) (k : Nat) : (s.memWrite a n v).codeAt k = s.codeAt k := rfl
@[simp] theorem memWrite_busy (a n v : Nat) : (s.memWrite a n v).busy = s.busy := rfl
@[simp] theorem memWrite_operands (a n v : Nat) : (s.memWrite a n v).operands = s.operands := rfl

/-! ### `bitStore` (R64) -/

@[simp] theorem bitStore_params (a : Nat) (p : List Bool) : (s.bitStore a p).params = s.params := rfl
@[simp] theorem bitStore_ie (a : Nat) (p : List Bool) : (s.bitStore a p).ie = s.ie := rfl
@[simp] theorem bitStore_seq (a : Nat) (p : List Bool) : (s.bitStore a p).seq = s.seq := rfl
@[simp] theorem bitStore_done (a : Nat) (p : List Bool) : (s.bitStore a p).done = s.done := rfl
@[simp] theorem bitStore_treeValid (a : Nat) (p : List Bool) : (s.bitStore a p).treeValid = s.treeValid := rfl
@[simp] theorem bitStore_drop (a : Nat) (p : List Bool) : (s.bitStore a p).drop = s.drop := rfl
@[simp] theorem bitStore_errcode (a : Nat) (p : List Bool) : (s.bitStore a p).errcode = s.errcode := rfl
@[simp] theorem bitStore_srcAddr (a : Nat) (p : List Bool) : (s.bitStore a p).srcAddr = s.srcAddr := rfl
@[simp] theorem bitStore_srcLen (a : Nat) (p : List Bool) : (s.bitStore a p).srcLen = s.srcLen := rfl
@[simp] theorem bitStore_dstAddr (a : Nat) (p : List Bool) : (s.bitStore a p).dstAddr = s.dstAddr := rfl
@[simp] theorem bitStore_dstCap (a : Nat) (p : List Bool) : (s.bitStore a p).dstCap = s.dstCap := rfl
@[simp] theorem bitStore_outLen (a : Nat) (p : List Bool) : (s.bitStore a p).outLen = s.outLen := rfl
@[simp] theorem bitStore_errPos (a : Nat) (p : List Bool) : (s.bitStore a p).errPos = s.errPos := rfl
@[simp] theorem bitStore_root (a : Nat) (p : List Bool) : (s.bitStore a p).root = s.root := rfl
@[simp] theorem bitStore_nodeIdx (a : Nat) (p : List Bool) : (s.bitStore a p).nodeIdx = s.nodeIdx := rfl
@[simp] theorem bitStore_nodeKind (a : Nat) (p : List Bool) : (s.bitStore a p).nodeKind = s.nodeKind := rfl
@[simp] theorem bitStore_nodeSym (a : Nat) (p : List Bool) : (s.bitStore a p).nodeSym = s.nodeSym := rfl
@[simp] theorem bitStore_nodeLeft (a : Nat) (p : List Bool) : (s.bitStore a p).nodeLeft = s.nodeLeft := rfl
@[simp] theorem bitStore_nodeRight (a : Nat) (p : List Bool) : (s.bitStore a p).nodeRight = s.nodeRight := rfl
@[simp] theorem bitStore_nodeCount (a : Nat) (p : List Bool) : (s.bitStore a p).nodeCount = s.nodeCount := rfl
@[simp] theorem bitStore_leafCount (a : Nat) (p : List Bool) : (s.bitStore a p).leafCount = s.leafCount := rfl
@[simp] theorem bitStore_ctSym (a : Nat) (p : List Bool) : (s.bitStore a p).ctSym = s.ctSym := rfl
@[simp] theorem bitStore_ctLen (a : Nat) (p : List Bool) : (s.bitStore a p).ctLen = s.ctLen := rfl
@[simp] theorem bitStore_ctBits (a : Nat) (p : List Bool) : (s.bitStore a p).ctBits = s.ctBits := rfl
@[simp] theorem bitStore_node (a : Nat) (p : List Bool) : (s.bitStore a p).node = s.node := rfl
@[simp] theorem bitStore_code (a : Nat) (p : List Bool) : (s.bitStore a p).code = s.code := rfl
@[simp] theorem bitStore_buf (a : Nat) (p : List Bool) : (s.bitStore a p).buf = Ram.store s.buf a (packBits p) := rfl
@[simp] theorem bitStore_epoch (a : Nat) (p : List Bool) : (s.bitStore a p).epoch = s.epoch := rfl
@[simp] theorem bitStore_draws (a : Nat) (p : List Bool) : (s.bitStore a p).draws = s.draws := rfl
@[simp] theorem bitStore_resetIn (a : Nat) (p : List Bool) : (s.bitStore a p).resetIn = s.resetIn := rfl
@[simp] theorem bitStore_readData (a : Nat) (p : List Bool) : (s.bitStore a p).readData = s.readData := rfl
@[simp] theorem bitStore_events (a : Nat) (p : List Bool) : (s.bitStore a p).events = s.events := rfl
@[simp] theorem bitStore_nodeAt (a : Nat) (p : List Bool) (k : Nat) : (s.bitStore a p).nodeAt k = s.nodeAt k := rfl
@[simp] theorem bitStore_codeAt (a : Nat) (p : List Bool) (k : Nat) : (s.bitStore a p).codeAt k = s.codeAt k := rfl
@[simp] theorem bitStore_busy (a : Nat) (p : List Bool) : (s.bitStore a p).busy = s.busy := rfl
@[simp] theorem bitStore_operands (a : Nat) (p : List Bool) : (s.bitStore a p).operands = s.operands := rfl

/-! ### `writeStatus` (R24) -/

@[simp] theorem writeStatus_params (v : Word) : (s.writeStatus v).params = s.params := rfl
@[simp] theorem writeStatus_ie (v : Word) : (s.writeStatus v).ie = s.ie := rfl
@[simp] theorem writeStatus_seq (v : Word) : (s.writeStatus v).seq = s.seq := rfl
@[simp] theorem writeStatus_done (v : Word) : (s.writeStatus v).done = (s.done && !v.getLsbD 1) := rfl
@[simp] theorem writeStatus_treeValid (v : Word) : (s.writeStatus v).treeValid = s.treeValid := rfl
@[simp] theorem writeStatus_drop (v : Word) : (s.writeStatus v).drop = (s.drop && !v.getLsbD 3) := rfl
@[simp] theorem writeStatus_errcode (v : Word) : (s.writeStatus v).errcode = s.errcode := rfl
@[simp] theorem writeStatus_srcAddr (v : Word) : (s.writeStatus v).srcAddr = s.srcAddr := rfl
@[simp] theorem writeStatus_srcLen (v : Word) : (s.writeStatus v).srcLen = s.srcLen := rfl
@[simp] theorem writeStatus_dstAddr (v : Word) : (s.writeStatus v).dstAddr = s.dstAddr := rfl
@[simp] theorem writeStatus_dstCap (v : Word) : (s.writeStatus v).dstCap = s.dstCap := rfl
@[simp] theorem writeStatus_outLen (v : Word) : (s.writeStatus v).outLen = s.outLen := rfl
@[simp] theorem writeStatus_errPos (v : Word) : (s.writeStatus v).errPos = s.errPos := rfl
@[simp] theorem writeStatus_root (v : Word) : (s.writeStatus v).root = s.root := rfl
@[simp] theorem writeStatus_nodeIdx (v : Word) : (s.writeStatus v).nodeIdx = s.nodeIdx := rfl
@[simp] theorem writeStatus_nodeKind (v : Word) : (s.writeStatus v).nodeKind = s.nodeKind := rfl
@[simp] theorem writeStatus_nodeSym (v : Word) : (s.writeStatus v).nodeSym = s.nodeSym := rfl
@[simp] theorem writeStatus_nodeLeft (v : Word) : (s.writeStatus v).nodeLeft = s.nodeLeft := rfl
@[simp] theorem writeStatus_nodeRight (v : Word) : (s.writeStatus v).nodeRight = s.nodeRight := rfl
@[simp] theorem writeStatus_nodeCount (v : Word) : (s.writeStatus v).nodeCount = s.nodeCount := rfl
@[simp] theorem writeStatus_leafCount (v : Word) : (s.writeStatus v).leafCount = s.leafCount := rfl
@[simp] theorem writeStatus_ctSym (v : Word) : (s.writeStatus v).ctSym = s.ctSym := rfl
@[simp] theorem writeStatus_ctLen (v : Word) : (s.writeStatus v).ctLen = s.ctLen := rfl
@[simp] theorem writeStatus_ctBits (v : Word) : (s.writeStatus v).ctBits = s.ctBits := rfl
@[simp] theorem writeStatus_node (v : Word) : (s.writeStatus v).node = s.node := rfl
@[simp] theorem writeStatus_code (v : Word) : (s.writeStatus v).code = s.code := rfl
@[simp] theorem writeStatus_buf (v : Word) : (s.writeStatus v).buf = s.buf := rfl
@[simp] theorem writeStatus_epoch (v : Word) : (s.writeStatus v).epoch = s.epoch := rfl
@[simp] theorem writeStatus_draws (v : Word) : (s.writeStatus v).draws = s.draws := rfl
@[simp] theorem writeStatus_resetIn (v : Word) : (s.writeStatus v).resetIn = s.resetIn := rfl
@[simp] theorem writeStatus_readData (v : Word) : (s.writeStatus v).readData = s.readData := rfl
@[simp] theorem writeStatus_events (v : Word) : (s.writeStatus v).events = s.events := rfl
@[simp] theorem writeStatus_bufByte (v : Word) (k : Nat) : (s.writeStatus v).bufByte k = s.bufByte k := rfl
@[simp] theorem writeStatus_nodeAt (v : Word) (k : Nat) : (s.writeStatus v).nodeAt k = s.nodeAt k := rfl
@[simp] theorem writeStatus_codeAt (v : Word) (k : Nat) : (s.writeStatus v).codeAt k = s.codeAt k := rfl
@[simp] theorem writeStatus_busy (v : Word) : (s.writeStatus v).busy = s.busy := rfl
@[simp] theorem writeStatus_operands (v : Word) : (s.writeStatus v).operands = s.operands := rfl

/-! ### `powerOn` (R230) -/

@[simp] theorem powerOn_params : s.powerOn.params = s.params := rfl
@[simp] theorem powerOn_ie : s.powerOn.ie = State.reset.ie := rfl
@[simp] theorem powerOn_seq : s.powerOn.seq = State.reset.seq := rfl
@[simp] theorem powerOn_done : s.powerOn.done = State.reset.done := rfl
@[simp] theorem powerOn_treeValid : s.powerOn.treeValid = State.reset.treeValid := rfl
@[simp] theorem powerOn_drop : s.powerOn.drop = State.reset.drop := rfl
@[simp] theorem powerOn_errcode : s.powerOn.errcode = State.reset.errcode := rfl
@[simp] theorem powerOn_srcAddr : s.powerOn.srcAddr = State.reset.srcAddr := rfl
@[simp] theorem powerOn_srcLen : s.powerOn.srcLen = State.reset.srcLen := rfl
@[simp] theorem powerOn_dstAddr : s.powerOn.dstAddr = State.reset.dstAddr := rfl
@[simp] theorem powerOn_dstCap : s.powerOn.dstCap = State.reset.dstCap := rfl
@[simp] theorem powerOn_outLen : s.powerOn.outLen = State.reset.outLen := rfl
@[simp] theorem powerOn_errPos : s.powerOn.errPos = State.reset.errPos := rfl
@[simp] theorem powerOn_root : s.powerOn.root = State.reset.root := rfl
@[simp] theorem powerOn_nodeIdx : s.powerOn.nodeIdx = State.reset.nodeIdx := rfl
@[simp] theorem powerOn_nodeKind : s.powerOn.nodeKind = State.reset.nodeKind := rfl
@[simp] theorem powerOn_nodeSym : s.powerOn.nodeSym = State.reset.nodeSym := rfl
@[simp] theorem powerOn_nodeLeft : s.powerOn.nodeLeft = State.reset.nodeLeft := rfl
@[simp] theorem powerOn_nodeRight : s.powerOn.nodeRight = State.reset.nodeRight := rfl
@[simp] theorem powerOn_nodeCount : s.powerOn.nodeCount = State.reset.nodeCount := rfl
@[simp] theorem powerOn_leafCount : s.powerOn.leafCount = State.reset.leafCount := rfl
@[simp] theorem powerOn_ctSym : s.powerOn.ctSym = State.reset.ctSym := rfl
@[simp] theorem powerOn_ctLen : s.powerOn.ctLen = State.reset.ctLen := rfl
@[simp] theorem powerOn_ctBits : s.powerOn.ctBits = State.reset.ctBits := rfl
@[simp] theorem powerOn_node : s.powerOn.node = State.reset.node := rfl
@[simp] theorem powerOn_code : s.powerOn.code = State.reset.code := rfl
@[simp] theorem powerOn_buf : s.powerOn.buf = State.reset.buf := rfl
@[simp] theorem powerOn_epoch : s.powerOn.epoch = s.epoch + 1 := rfl
@[simp] theorem powerOn_draws : s.powerOn.draws = s.draws := rfl
@[simp] theorem powerOn_resetIn : s.powerOn.resetIn = s.resetIn := rfl
@[simp] theorem powerOn_readData : s.powerOn.readData = State.reset.readData := rfl
@[simp] theorem powerOn_events : s.powerOn.events = s.events := rfl

/-! ### `clearForReset` (R231) -/

@[simp] theorem clearForReset_params : s.clearForReset.params = s.params := rfl
@[simp] theorem clearForReset_ie : s.clearForReset.ie = State.reset.ie := rfl
@[simp] theorem clearForReset_seq : s.clearForReset.seq = State.reset.seq := rfl
@[simp] theorem clearForReset_done : s.clearForReset.done = State.reset.done := rfl
@[simp] theorem clearForReset_treeValid : s.clearForReset.treeValid = State.reset.treeValid := rfl
@[simp] theorem clearForReset_drop : s.clearForReset.drop = State.reset.drop := rfl
@[simp] theorem clearForReset_errcode : s.clearForReset.errcode = State.reset.errcode := rfl
@[simp] theorem clearForReset_srcAddr : s.clearForReset.srcAddr = State.reset.srcAddr := rfl
@[simp] theorem clearForReset_srcLen : s.clearForReset.srcLen = State.reset.srcLen := rfl
@[simp] theorem clearForReset_dstAddr : s.clearForReset.dstAddr = State.reset.dstAddr := rfl
@[simp] theorem clearForReset_dstCap : s.clearForReset.dstCap = State.reset.dstCap := rfl
@[simp] theorem clearForReset_outLen : s.clearForReset.outLen = State.reset.outLen := rfl
@[simp] theorem clearForReset_errPos : s.clearForReset.errPos = State.reset.errPos := rfl
@[simp] theorem clearForReset_root : s.clearForReset.root = State.reset.root := rfl
@[simp] theorem clearForReset_nodeIdx : s.clearForReset.nodeIdx = State.reset.nodeIdx := rfl
@[simp] theorem clearForReset_nodeKind : s.clearForReset.nodeKind = State.reset.nodeKind := rfl
@[simp] theorem clearForReset_nodeSym : s.clearForReset.nodeSym = State.reset.nodeSym := rfl
@[simp] theorem clearForReset_nodeLeft : s.clearForReset.nodeLeft = State.reset.nodeLeft := rfl
@[simp] theorem clearForReset_nodeRight : s.clearForReset.nodeRight = State.reset.nodeRight := rfl
@[simp] theorem clearForReset_nodeCount : s.clearForReset.nodeCount = State.reset.nodeCount := rfl
@[simp] theorem clearForReset_leafCount : s.clearForReset.leafCount = State.reset.leafCount := rfl
@[simp] theorem clearForReset_ctSym : s.clearForReset.ctSym = State.reset.ctSym := rfl
@[simp] theorem clearForReset_ctLen : s.clearForReset.ctLen = State.reset.ctLen := rfl
@[simp] theorem clearForReset_ctBits : s.clearForReset.ctBits = State.reset.ctBits := rfl
@[simp] theorem clearForReset_node : s.clearForReset.node = s.node := rfl
@[simp] theorem clearForReset_code : s.clearForReset.code = State.reset.code := rfl
@[simp] theorem clearForReset_buf : s.clearForReset.buf = s.buf := rfl
@[simp] theorem clearForReset_epoch : s.clearForReset.epoch = s.epoch := rfl
@[simp] theorem clearForReset_draws : s.clearForReset.draws = s.draws := rfl
@[simp] theorem clearForReset_resetIn : s.clearForReset.resetIn = s.resetIn := rfl
@[simp] theorem clearForReset_readData : s.clearForReset.readData = s.readData := rfl
@[simp] theorem clearForReset_events : s.clearForReset.events = s.events := rfl
@[simp] theorem clearForReset_bufByte (k : Nat) : s.clearForReset.bufByte k = s.bufByte k := rfl
@[simp] theorem clearForReset_nodeAt (k : Nat) : s.clearForReset.nodeAt k = s.nodeAt k := rfl

/-! ### `accept` (R101) -/

@[simp] theorem accept_params (w : Word) : (s.accept w).params = s.params := by
  unfold accept; split <;> rfl
@[simp] theorem accept_ie (w : Word) : (s.accept w).ie = s.ie := by
  unfold accept; split <;> rfl
@[simp] theorem accept_seq (w : Word) : (s.accept w).seq = some { cmd := w, lat := s.liveOperands } := by
  unfold accept; split <;> rfl
@[simp] theorem accept_done (w : Word) : (s.accept w).done = false := by
  unfold accept; split <;> rfl
@[simp] theorem accept_treeValid (w : Word) : (s.accept w).treeValid = (if clearsTree w then false else s.treeValid) := by
  unfold accept; split <;> rfl
@[simp] theorem accept_drop (w : Word) : (s.accept w).drop = s.drop := by
  unfold accept; split <;> rfl
@[simp] theorem accept_errcode (w : Word) : (s.accept w).errcode = .ok := by
  unfold accept; split <;> rfl
@[simp] theorem accept_srcAddr (w : Word) : (s.accept w).srcAddr = s.srcAddr := by
  unfold accept; split <;> rfl
@[simp] theorem accept_srcLen (w : Word) : (s.accept w).srcLen = s.srcLen := by
  unfold accept; split <;> rfl
@[simp] theorem accept_dstAddr (w : Word) : (s.accept w).dstAddr = s.dstAddr := by
  unfold accept; split <;> rfl
@[simp] theorem accept_dstCap (w : Word) : (s.accept w).dstCap = s.dstCap := by
  unfold accept; split <;> rfl
@[simp] theorem accept_outLen (w : Word) : (s.accept w).outLen = 0 := by
  unfold accept; split <;> rfl
@[simp] theorem accept_errPos (w : Word) : (s.accept w).errPos = 0 := by
  unfold accept; split <;> rfl
@[simp] theorem accept_root (w : Word) : (s.accept w).root = s.root := by
  unfold accept; split <;> rfl
@[simp] theorem accept_nodeIdx (w : Word) : (s.accept w).nodeIdx = s.nodeIdx := by
  unfold accept; split <;> rfl
@[simp] theorem accept_nodeKind (w : Word) : (s.accept w).nodeKind = s.nodeKind := by
  unfold accept; split <;> rfl
@[simp] theorem accept_nodeSym (w : Word) : (s.accept w).nodeSym = s.nodeSym := by
  unfold accept; split <;> rfl
@[simp] theorem accept_nodeLeft (w : Word) : (s.accept w).nodeLeft = s.nodeLeft := by
  unfold accept; split <;> rfl
@[simp] theorem accept_nodeRight (w : Word) : (s.accept w).nodeRight = s.nodeRight := by
  unfold accept; split <;> rfl
@[simp] theorem accept_nodeCount (w : Word) : (s.accept w).nodeCount = (if clearsTree w then 0 else s.nodeCount) := by
  unfold accept; split <;> rfl
@[simp] theorem accept_leafCount (w : Word) : (s.accept w).leafCount = (if clearsTree w then 0 else s.leafCount) := by
  unfold accept; split <;> rfl
@[simp] theorem accept_ctSym (w : Word) : (s.accept w).ctSym = s.ctSym := by
  unfold accept; split <;> rfl
@[simp] theorem accept_ctLen (w : Word) : (s.accept w).ctLen = s.ctLen := by
  unfold accept; split <;> rfl
@[simp] theorem accept_ctBits (w : Word) : (s.accept w).ctBits = s.ctBits := by
  unfold accept; split <;> rfl
@[simp] theorem accept_node (w : Word) : (s.accept w).node = s.node := by
  unfold accept; split <;> rfl
@[simp] theorem accept_code (w : Word) : (s.accept w).code = s.code := by
  unfold accept; split <;> rfl
@[simp] theorem accept_buf (w : Word) : (s.accept w).buf = s.buf := by
  unfold accept; split <;> rfl
@[simp] theorem accept_epoch (w : Word) : (s.accept w).epoch = s.epoch := by
  unfold accept; split <;> rfl
@[simp] theorem accept_draws (w : Word) : (s.accept w).draws = s.draws := by
  unfold accept; split <;> rfl
@[simp] theorem accept_resetIn (w : Word) : (s.accept w).resetIn = s.resetIn := by
  unfold accept; split <;> rfl
@[simp] theorem accept_readData (w : Word) : (s.accept w).readData = s.readData := by
  unfold accept; split <;> rfl
@[simp] theorem accept_events (w : Word) : (s.accept w).events = s.events := by
  unfold accept; split <;> rfl
@[simp] theorem accept_busy (w : Word) : (s.accept w).busy = true := by simp [busy]

end Sys2Proof.Machine.State
end

