-- ==== Sys2Proof/Laws/Walk.lean ====
section
/-! SUPPORT. The walk of R122 and well-formed trees (R37): on a tree the walk visits exactly its nodes in pre-order; a walk
that ends has walked a tree; a bad reference ends the walk at its pre-order index. -/

namespace Sys2Proof.Machine

variable {nd : Nat → Node}

/-- The visits of the nodes of a tree at index `c` and path `p`, in pre-order. -/
def treeVisits (nd : Nat → Node) : HTree → (c : Nat) → (p : List Bool) → List Visit
  | .leaf _, c, p => [⟨c, p⟩]
  | .node l r, c, p =>
    ⟨c, p⟩ :: (treeVisits nd l (nd c).left.toNat (p ++ [false]) ++ treeVisits nd r (nd c).right.toNat (p ++ [true]))

/-- What a visited node is: a leaf with its symbol and path, or an internal node. -/
def visitEntry (nd : Nat → Node) (v : Visit) : Option (Word × List Bool) :=
  if (nd v.idx).kind then some ((nd v.idx).sym, v.path) else none

theorem TreeAt.map_idx {c : Nat} {t : HTree} {ixs : List Nat} (h : TreeAt nd c t ixs) (p : List Bool) :
    (treeVisits nd t c p).map (·.idx) = ixs := by
  induction h generalizing p with
  | leaf c h => rfl
  | node c l r il ir h hl hr ihl ihr => simp [treeVisits, ihl, ihr]

theorem TreeAt.map_visitEntry {c : Nat} {t : HTree} {ixs : List Nat} (h : TreeAt nd c t ixs) (p : List Bool) :
    (treeVisits nd t c p).map (visitEntry nd) = t.entries p := by
  induction h generalizing p with
  | leaf c h => simp [treeVisits, visitEntry, h, HTree.entries]
  | node c l r il ir h hl hr ihl ihr => simp [treeVisits, visitEntry, h, HTree.entries, ihl, ihr]

theorem TreeAt.length_eq {c : Nat} {t : HTree} {ixs : List Nat} (h : TreeAt nd c t ixs) : ixs.length = t.size := by
  induction h with
  | leaf c h => rfl
  | node c l r il ir h hl hr ihl ihr => simp [HTree.size, ihl, ihr]; omega

theorem HTree.length_entries (t : HTree) (p : List Bool) : (t.entries p).length = t.size := by
  induction t generalizing p with
  | leaf s => rfl
  | node l r ihl ihr => simp [HTree.entries, HTree.size, ihl, ihr]; omega

theorem HTree.countP_entries (t : HTree) (p : List Bool) : (t.entries p).countP (·.isSome) = t.leaves := by
  induction t generalizing p with
  | leaf s => rfl
  | node l r ihl ihr => simp [HTree.entries, HTree.leaves, ihl, ihr]

theorem HTree.size_eq (t : HTree) : t.size = 2 * t.leaves - 1 ∧ 1 ≤ t.leaves := by
  induction t with
  | leaf s => exact ⟨rfl, Nat.le_refl _⟩
  | node l r ihl ihr => simp only [HTree.size, HTree.leaves]; omega

/-- The tree and the indices at an index are determined by NODE. -/
theorem TreeAt.unique {c : Nat} {t t' : HTree} {ixs ixs' : List Nat} (h : TreeAt nd c t ixs) (h' : TreeAt nd c t' ixs') :
    t = t' ∧ ixs = ixs' := by
  induction h generalizing t' ixs' with
  | leaf c h => cases h' with
    | leaf c h' => exact ⟨rfl, rfl⟩
    | node c l r il ir h' hl hr => rw [h] at h'; cases h'
  | node c l r il ir h hl hr ihl ihr => cases h' with
    | leaf c h' => rw [h] at h'; cases h'
    | node c l' r' il' ir' h' hl' hr' =>
      obtain ⟨rfl, rfl⟩ := ihl hl'
      obtain ⟨rfl, rfl⟩ := ihr hr'
      exact ⟨rfl, rfl⟩

theorem TreeAt.congr {nd' : Nat → Node} {c : Nat} {t : HTree} {ixs : List Nat} (h : TreeAt nd c t ixs)
    (hn : ∀ i ∈ ixs, nd' i = nd i) : TreeAt nd' c t ixs := by
  induction h with
  | leaf c h =>
    have hc := hn c (by simp)
    rw [← hc]
    exact .leaf c (by rw [hc, h])
  | node c l r il ir h hl hr ihl ihr =>
    have hc := hn c (by simp)
    refine .node c l r il ir (by rw [hc, h]) ?_ ?_
    · rw [hc]; exact ihl fun i hi => hn i (by simp [hi])
    · rw [hc]; exact ihr fun i hi => hn i (by simp [hi])

theorem State.HasTree.congr {s s' : State} {c : Nat} {t : HTree} {ixs : List Nat} (h : s.HasTree c t ixs)
    (hn : ∀ i ∈ ixs, s'.nodeAt i = s.nodeAt i) : s'.HasTree c t ixs :=
  ⟨h.shape.congr hn, h.nodup, h.bound⟩

theorem walk_nil (fuel : Nat) (seen : List Nat) : walk nd fuel [] seen = .ok [] := by cases fuel <;> rfl

theorem except_map_map {ε α β γ : Type} (x : Except ε α) (f : α → β) (g : β → γ) :
    (x.map f).map g = x.map (g ∘ f) := by cases x <;> rfl

/-- On a tree none of whose nodes has been visited, the walk visits its nodes in pre-order and then goes on with the rest of
the stack. -/
theorem walk_tree {c : Nat} {t : HTree} {ixs : List Nat} (h : TreeAt nd c t ixs) (hn : ixs.Nodup)
    (hb : ∀ i ∈ ixs, i < 131071) (p : List Bool) (fuel : Nat) (stack : List Visit) (seen : List Nat)
    (hs : ∀ i ∈ ixs, i ∉ seen) :
    walk nd (ixs.length + fuel) (⟨c, p⟩ :: stack) seen =
      (walk nd fuel stack (ixs.reverse ++ seen)).map (treeVisits nd t c p ++ ·) := by
  induction h generalizing p fuel stack seen with
  | leaf c h =>
    have h1 : [c].length + fuel = fuel + 1 := by simp; omega
    have hc := hb c (by simp)
    rw [h1, walk, if_neg (by simp [Config.NODE_CAP, hs c (by simp)]; omega)]
    simp [h, treeVisits]
  | node c l r il ir h hl hr ihl ihr =>
    have hc := hb c (by simp)
    simp only [List.nodup_cons, List.nodup_append, List.mem_append, not_or] at hn
    obtain ⟨⟨hcl, hcr⟩, hnl, hnr, hd⟩ := hn
    have h1 : (c :: (il ++ ir)).length + fuel = (il.length + (ir.length + fuel)) + 1 := by simp; omega
    rw [h1, walk, if_neg (by simp [Config.NODE_CAP, hs c (by simp)]; omega)]
    simp only [h, Bool.false_eq_true, if_false, childVisits, List.cons_append, List.nil_append]
    have hsl : ∀ i ∈ il, i ∉ c :: seen := fun i hi => by
      simp only [List.mem_cons, not_or]
      exact ⟨fun e => hcl (e ▸ hi), hs i (by simp [hi])⟩
    have hsr : ∀ i ∈ ir, i ∉ il.reverse ++ c :: seen := fun i hi => by
      simp only [List.mem_append, List.mem_reverse, List.mem_cons, not_or]
      exact ⟨fun e => hd i e i hi rfl, fun e => hcr (e ▸ hi), hs i (by simp [hi])⟩
    rw [ihl hnl (fun i hi => hb i (by simp [hi])) _ _ _ _ hsl,
      ihr hnr (fun i hi => hb i (by simp [hi])) _ _ _ _ hsr, except_map_map, except_map_map]
    congr 1
    · funext x; simp [treeVisits]
    · simp

/-- Distinct indices below NODE_CAP number at most NODE_CAP. -/
theorem length_le_cap {l : List Nat} (hn : l.Nodup) (hb : ∀ i ∈ l, i < 131071) : l.length ≤ 131071 := by
  have h := (List.toFinset_card_of_nodup hn).symm.le.trans
    (Finset.card_le_card (show l.toFinset ⊆ Finset.range 131071 from fun i hi => by
      simpa using hb i (by simpa using hi)))
  simpa using h

/-- On a well-formed tree the walk gives its nodes in pre-order (R37). -/
theorem State.HasTree.walkFrom {s : State} {c : Nat} {t : HTree} {ixs : List Nat} (h : s.HasTree c t ixs) :
    s.walkFrom c = .ok (treeVisits s.nodeAt t c []) := by
  have hle := length_le_cap h.nodup h.bound
  have hw := walk_tree h.shape h.nodup h.bound [] (131071 - ixs.length) [] [] (by simp)
  rw [show ixs.length + (131071 - ixs.length) = Config.NODE_CAP by simp [Config.NODE_CAP]; omega, walk_nil] at hw
  rw [State.walkFrom, hw]
  simp [Except.map]

/-- The trees on a stack. -/
inductive ForestAt (nd : Nat → Node) : List Nat → List Nat → Prop where
  | nil : ForestAt nd [] []
  | cons (c : Nat) (t : HTree) (i : List Nat) (cs is : List Nat) (h : TreeAt nd c t i) (hs : ForestAt nd cs is) :
      ForestAt nd (c :: cs) (i ++ is)

/-- A walk that ends without a bad reference has walked the trees on its stack. -/
theorem forest_of_walk {fuel : Nat} {stack : List Visit} {seen : List Nat} {vs : List Visit}
    (h : walk nd fuel stack seen = .ok vs) (hseen : seen.Nodup) :
    ForestAt nd (stack.map (·.idx)) (vs.map (·.idx)) ∧ (vs.map (·.idx)).Nodup ∧
      (∀ i ∈ vs.map (·.idx), i < 131071 ∧ i ∉ seen) := by
  induction fuel generalizing stack seen vs with
  | zero =>
    cases stack with
    | nil => cases h; exact ⟨.nil, by simp, by simp⟩
    | cons c st => cases h
  | succ fuel ih =>
    cases stack with
    | nil => cases h; exact ⟨.nil, by simp, by simp⟩
    | cons c st =>
      rw [walk] at h
      split at h
      · cases h
      · rename_i hgood
        simp only [Config.NODE_CAP, not_or, Nat.not_le] at hgood
        have hseen' : (c.idx :: seen).Nodup := List.nodup_cons.2 ⟨hgood.2, hseen⟩
        have key : ∀ {rest : List Nat} {ws : List Visit}, (ForestAt nd rest (c.idx :: ws.map (·.idx)) ∨ True) →
            (ws.map (·.idx)).Nodup → (∀ i ∈ ws.map (·.idx), i < 131071 ∧ i ∉ c.idx :: seen) →
            ((c :: ws).map (·.idx)).Nodup ∧ (∀ i ∈ (c :: ws).map (·.idx), i < 131071 ∧ i ∉ seen) := by
          intro rest ws _ hn hb
          refine ⟨List.nodup_cons.2 ⟨fun hm => (hb _ hm).2 (by simp), hn⟩, fun i hi => ?_⟩
          rcases List.mem_cons.1 hi with rfl | hi
          · exact hgood
          · exact ⟨(hb i hi).1, fun e => (hb i hi).2 (by simp [e])⟩
        split at h
        · rename_i hk
          cases hw : walk nd fuel st (c.idx :: seen) with
          | error e => rw [hw] at h; cases h
          | ok ws =>
            rw [hw] at h; cases h
            obtain ⟨hf, hn, hb⟩ := ih hw hseen'
            exact ⟨.cons c.idx _ [c.idx] _ _ (.leaf _ hk) hf, key (rest := []) (.inr trivial) hn hb⟩
        · rename_i hk
          cases hw : walk nd fuel (childVisits (nd c.idx) c.path ++ st) (c.idx :: seen) with
          | error e => rw [hw] at h; cases h
          | ok ws =>
            rw [hw] at h; cases h
            obtain ⟨hf, hn, hb⟩ := ih hw hseen'
            refine ⟨?_, key (rest := []) (.inr trivial) hn hb⟩
            simp only [childVisits, List.cons_append, List.nil_append, List.map_cons] at hf
            generalize hws : ws.map (·.idx) = wi at hf
            cases hf with
            | cons _ l il _ is hl hf =>
              cases hf with
              | cons _ r ir _ is' hr hf =>
                have := ForestAt.cons c.idx _ _ _ _ (.node c.idx l r il ir (by simpa using hk) hl hr) hf
                simpa [hws] using this

/-- A walk from an index that ends without a bad reference has walked a well-formed tree (R37). -/
theorem State.hasTree_of_walkFrom {s : State} {c : Nat} {vs : List Visit} (h : s.walkFrom c = .ok vs) :
    ∃ t, s.HasTree c t (vs.map (·.idx)) := by
  obtain ⟨hf, hn, hb⟩ := forest_of_walk h List.nodup_nil
  generalize hvs : vs.map (·.idx) = vi at hf hn hb
  cases hf with
  | cons _ t i _ is ht hf =>
    cases hf
    exact ⟨t, by simpa using ht, by simpa using hn, fun j hj => (hb j (by simpa using hj)).1⟩

theorem walkFrom_ok_iff (s : State) (c : Nat) : (∃ vs, s.walkFrom c = .ok vs) ↔ ∃ t ixs, s.HasTree c t ixs :=
  ⟨fun ⟨_, h⟩ => let ⟨t, ht⟩ := State.hasTree_of_walkFrom h; ⟨t, _, ht⟩, fun ⟨_, _, h⟩ => ⟨_, h.walkFrom⟩⟩

/-- From each configuration the walk reaches by good steps, it goes on as the walk from there. -/
theorem walk_of_steps {root : Nat} {cfg : List Nat × List Nat}
    (h : Relation.ReflTransGen (WalkStep nd) ([root], []) cfg) :
    cfg.2.Nodup ∧ (∀ i ∈ cfg.2, i < 131071) ∧ ∃ stack : List Visit, stack.map (·.idx) = cfg.1 ∧
      ∀ v, walk nd (131071 - cfg.2.length) stack cfg.2 = .error v → walk nd 131071 [⟨root, []⟩] [] = .error v := by
  induction h with
  | refl => exact ⟨List.nodup_nil, by simp, [⟨root, []⟩], rfl, fun v h => h⟩
  | tail _ hstep ih =>
    obtain ⟨hn, hb, stack, hst, hw⟩ := ih
    have key : ∀ c (seen : List Nat), seen.Nodup → (∀ i ∈ seen, i < 131071) → c < 131071 → c ∉ seen →
        (c :: seen).Nodup ∧ (∀ i ∈ c :: seen, i < 131071) ∧ 131071 - seen.length = (131071 - (c :: seen).length) + 1 := by
      intro c seen hn hb hc hs
      have hn' := List.nodup_cons.2 ⟨hs, hn⟩
      have hb' : ∀ i ∈ c :: seen, i < 131071 := fun i hi => (List.mem_cons.1 hi).elim (· ▸ hc) (hb i)
      have := length_le_cap hn' hb'
      simp only [List.length_cons] at this ⊢
      exact ⟨hn', hb', by omega⟩
    cases hstep with
    | leaf c st seen hc hs hk =>
      obtain ⟨hn', hb', hfuel⟩ := key c seen hn hb hc hs
      cases stack with
      | nil => cases hst
      | cons x stack =>
        simp only [List.map_cons, List.cons.injEq] at hst
        obtain ⟨rfl, hst⟩ := hst
        refine ⟨hn', hb', stack, hst, fun v hv => hw v ?_⟩
        rw [hfuel, walk, if_neg (by simp only [Config.NODE_CAP, not_or]; exact ⟨by omega, hs⟩), if_pos hk]
        rw [hv]; rfl
    | node c st seen hc hs hk =>
      obtain ⟨hn', hb', hfuel⟩ := key c seen hn hb hc hs
      cases stack with
      | nil => cases hst
      | cons x stack =>
        simp only [List.map_cons, List.cons.injEq] at hst
        obtain ⟨rfl, hst⟩ := hst
        refine ⟨hn', hb', childVisits (nd x.idx) x.path ++ stack, by simp [childVisits, hst], fun v hv => hw v ?_⟩
        rw [hfuel, walk, if_neg (by simp only [Config.NODE_CAP, not_or]; exact ⟨by omega, hs⟩),
          if_neg (by simp [hk])]
        rw [hv]; rfl

/-- The first bad reference ends the walk at the pre-order index it would have taken (R122). -/
theorem walkFrom_error {s : State} {root c : Nat} {stack seen : List Nat}
    (h : Relation.ReflTransGen (WalkStep s.nodeAt) ([root], []) (c :: stack, seen)) (hbad : 131071 ≤ c ∨ c ∈ seen) :
    s.walkFrom root = .error seen.length := by
  obtain ⟨_, _, vst, hvst, hw⟩ := walk_of_steps h
  refine hw _ ?_
  cases vst with
  | nil => cases hvst
  | cons x vst =>
    simp only [List.map_cons, List.cons.injEq] at hvst
    obtain ⟨rfl, -⟩ := hvst
    dsimp only
    cases 131071 - seen.length with
    | zero => rfl
    | succ f => rw [walk, if_pos (by simpa [Config.NODE_CAP] using hbad)]

/-- A leaf count over the visits of a tree (R31). -/
theorem State.HasTree.countLeaves {s : State} {c : Nat} {t : HTree} {ixs : List Nat} (h : s.HasTree c t ixs) :
    s.countLeaves (treeVisits s.nodeAt t c []) = t.leaves := by
  rw [← HTree.countP_entries t [], ← h.shape.map_visitEntry [], List.countP_map, State.countLeaves]
  refine List.countP_congr fun v _ => ?_
  simp only [visitEntry, Function.comp]
  split <;> simp_all

theorem State.HasTree.length_visits {s : State} {c : Nat} {t : HTree} {ixs : List Nat} (h : s.HasTree c t ixs) :
    (treeVisits s.nodeAt t c []).length = t.size := by
  rw [← HTree.length_entries t [], ← h.shape.map_visitEntry [], List.length_map]

end Sys2Proof.Machine
end

