-- ==== Sys2Proof/Laws/Exec.lean ====
section
/-! SUPPORT. What a command can do: the static checks (R103) spelled out, and for each command the states its meaning answers
with. Later proofs cite these and do not unfold a meaning. -/

namespace Sys2Proof.Machine

/-! ### The static checks -/

theorem checked_of_none {s : State} {i : Instr} (rule : Result) (h : s.staticError i = none) :
    s.checked i rule = rule := by simp [State.checked, h]

theorem checked_of_some {s : State} {i : Instr} {e : ErrCode} (rule : Result) (h : s.staticError i = some e) :
    s.checked i rule = .next (s.fail e 0) := by simp [State.checked, h]

/-- What a checked rule answers with when it answers a next state. -/
theorem checked_next {s t : State} {i : Instr} {rule : Result} (h : s.checked i rule = .next t) :
    (∃ e, s.staticError i = some e ∧ t = s.fail e 0) ∨ (s.staticError i = none ∧ rule = .next t) := by
  unfold State.checked at h
  split at h
  · rename_i e he; exact .inl ⟨e, he, by cases h; rfl⟩
  · rename_i he; exact .inr ⟨he, h⟩

theorem checked_fault {s : State} {i : Instr} {rule : Result} {f : Fault} (h : s.checked i rule = .fault f) :
    s.staticError i = none ∧ rule = .fault f := by
  unfold State.checked at h
  split at h
  · cases h
  · rename_i he; exact ⟨he, h⟩

theorem overlaps_eq_false_iff (a m b n : Nat) : Region.overlaps ⟨a, m⟩ ⟨b, n⟩ = false ↔ RegionsApart a m b n := by
  simp only [Region.overlaps, RegionsApart, Bool.and_eq_false_iff, decide_eq_false_iff_not]
  omega

theorem rangesOk_encode (o : Operands) (n : Nat) : rangesOk .encode o n = true ↔ EncodeRangesOk o n := by
  simp only [rangesOk, sourceRegion, destRegion, aligned, regionsOverlap, indexInRange, regionOk, Region.inRange,
    EncodeRangesOk, Bool.and_eq_true, Bool.not_eq_true', overlaps_eq_false_iff, decide_eq_true_eq, beq_iff_eq]
  tauto

theorem rangesOk_decode (o : Operands) (n : Nat) : rangesOk .decode o n = true ↔ DecodeRangesOk o n := by
  simp only [rangesOk, sourceRegion, destRegion, aligned, regionsOverlap, indexInRange, regionOk, Region.inRange,
    DecodeRangesOk, ceilDiv8, Bool.and_eq_true, Bool.not_eq_true', overlaps_eq_false_iff, decide_eq_true_eq, beq_iff_eq]
  tauto

theorem rangesOk_treeSer (o : Operands) (n : Nat) : rangesOk .treeSer o n = true ↔ TreeSerRangesOk o n := by
  simp [rangesOk, sourceRegion, destRegion, aligned, regionsOverlap, indexInRange, regionOk, Region.inRange,
    TreeSerRangesOk]

theorem rangesOk_treeDeser (o : Operands) (n : Nat) : rangesOk .treeDeser o n = true ↔ TreeDeserRangesOk o n := by
  simp [rangesOk, sourceRegion, destRegion, aligned, regionsOverlap, indexInRange, regionOk, Region.inRange,
    TreeDeserRangesOk, ceilDiv8]

theorem rangesOk_nodeWrite (o : Operands) (n : Nat) : rangesOk .nodeWrite o n = true ↔ o.nodeIdx.toNat < 131071 := by
  simp [rangesOk, sourceRegion, destRegion, aligned, regionsOverlap, indexInRange, regionOk]

theorem rangesOk_nodeRead (o : Operands) (n : Nat) : rangesOk .nodeRead o n = true ↔ o.nodeIdx.toNat < 131071 := by
  simp [rangesOk, sourceRegion, destRegion, aligned, regionsOverlap, indexInRange, regionOk]

/-- The commands R103's table does not list have no region check. -/
theorem rangesOk_other {i : Instr} (o : Operands) (n : Nat)
    (h : i = .nop ∨ i = .treeCommit ∨ i = .ctClear ∨ i = .ctWrite ∨ i = .ctRead ∨ i = .ctGen) :
    rangesOk i o n = true := by
  rcases h with rfl | rfl | rfl | rfl | rfl | rfl <;> rfl

theorem staticError_badRange {s : State} {i : Instr} (h : ¬rangesOk i s.operands s.params.bufBytes = true) :
    s.staticError i = some .badRange := by simp [State.staticError, h]

theorem staticError_noTree {s : State} {i : Instr} (h : rangesOk i s.operands s.params.bufBytes = true)
    (hn : needsTree i = true) (ht : s.operands.treeValid = false) : s.staticError i = some .noTree := by
  simp [State.staticError, h, hn, ht]

theorem staticError_none {s : State} {i : Instr} (h : rangesOk i s.operands s.params.bufBytes = true)
    (hn : needsTree i = true → s.operands.treeValid = true) : s.staticError i = none := by
  simp only [State.staticError, h, Bool.not_true, Bool.false_eq_true, if_false]
  cases hi : needsTree i with
  | false => simp
  | true => simp [hn hi]

/-- The static checks pass exactly when the ranges are right and a tree is there where one is needed. -/
theorem staticError_eq_none {s : State} {i : Instr} (h : s.staticError i = none) :
    rangesOk i s.operands s.params.bufBytes = true ∧ (needsTree i = true → s.operands.treeValid = true) := by
  unfold State.staticError at h
  split at h
  · cases h
  · split at h
    · cases h
    · rename_i h1 h2
      simp only [Bool.not_eq_true', Bool.and_eq_true, not_and, Bool.not_eq_false] at h1 h2
      exact ⟨h1, h2⟩

/-- Which static errors a command can meet. -/
theorem staticError_cases {s : State} {i : Instr} {e : ErrCode} (h : s.staticError i = some e) :
    (e = .badRange ∧ ¬rangesOk i s.operands s.params.bufBytes = true) ∨
    (e = .noTree ∧ needsTree i = true ∧ rangesOk i s.operands s.params.bufBytes = true ∧
      s.operands.treeValid = false) := by
  unfold State.staticError at h
  split at h
  · rename_i h1; cases h; exact .inl ⟨rfl, by simpa using h1⟩
  · split at h
    · rename_i h1 h2
      cases h
      simp only [Bool.and_eq_true, Bool.not_eq_true'] at h2
      exact .inr ⟨rfl, h2.1, by simpa using h1, h2.2⟩
    · cases h

/-! ### The shared rules -/

theorem withTree_of_hasTree {s : State} {t : HTree} {ixs : List Nat} (rule : List Visit → State)
    (h : s.HasTree s.operands.root.toNat t ixs) :
    s.withTree rule = .next (rule (treeVisits s.nodeAt t s.operands.root.toNat [])) := by
  simp [State.withTree, h.walkFrom]

theorem withTree_next {s t : State} {rule : List Visit → State} (h : s.withTree rule = .next t) :
    ∃ vs, s.walkFrom s.operands.root.toNat = .ok vs ∧ t = rule vs := by
  unfold State.withTree at h
  split at h
  · rename_i vs hv; exact ⟨vs, hv, by cases h; rfl⟩
  · cases h

/-- The rule each command's meaning runs once its static checks have passed. -/
def ruleResult (s : State) : Instr → Result
  | .nop => .next (s.succeed 0)
  | .nodeWrite => .next ((s.putNode s.operands.nodeIdx.toNat s.operands.windowNode).succeed 0)
  | .nodeRead => .next ((s.loadWindow (s.nodeAt s.operands.nodeIdx.toNat)).succeed 0)
  | .treeCommit => .next (s.commit (s.walkFrom s.operands.root.toNat))
  | .ctClear => .next (s.clearCode.succeed 0)
  | .ctWrite => .next (s.ctWriteRule s.operands.ctSym.toNat s.operands.ctLen.toNat s.operands.ctBits.toNat)
  | .ctRead => .next (s.ctReadRule s.operands.ctSym.toNat)
  | .ctGen => s.withTree s.genRule
  | .encode => .next (s.encodeRule s.operands)
  | .decode => .next (s.decodeRule s.operands)
  | .treeSer => s.withTree (s.serRule s.operands)
  | .treeDeser => .next (s.deserRule s.operands)

/-- Every meaning is its static checks and then its rule (R101, R103). -/
theorem exec_eq_checked (i : Instr) (s : State) : exec i s = s.checked i (ruleResult s i) := by cases i <;> rfl

theorem exec_of_none {i : Instr} {s : State} (h : s.staticError i = none) : exec i s = ruleResult s i := by
  rw [exec_eq_checked, checked_of_none _ h]

theorem exec_of_some {i : Instr} {s : State} {e : ErrCode} (h : s.staticError i = some e) :
    exec i s = .next (s.fail e 0) := by
  rw [exec_eq_checked, checked_of_some _ h]

/-- The states a command's rule ends in. -/
def RuleEnds (s t : State) : Instr → Prop
  | .nop => t = s.succeed 0
  | .nodeWrite => t = (s.putNode s.operands.nodeIdx.toNat s.operands.windowNode).succeed 0
  | .nodeRead => t = (s.loadWindow (s.nodeAt s.operands.nodeIdx.toNat)).succeed 0
  | .treeCommit => t = s.commit (s.walkFrom s.operands.root.toNat)
  | .ctClear => t = s.clearCode.succeed 0
  | .ctWrite => t = s.ctWriteRule s.operands.ctSym.toNat s.operands.ctLen.toNat s.operands.ctBits.toNat
  | .ctRead => t = s.ctReadRule s.operands.ctSym.toNat
  | .ctGen => ∃ vs, s.walkFrom s.operands.root.toNat = .ok vs ∧ t = s.genRule vs
  | .encode => t = s.encodeRule s.operands
  | .decode => t = s.decodeRule s.operands
  | .treeSer => ∃ vs, s.walkFrom s.operands.root.toNat = .ok vs ∧ t = s.serRule s.operands vs
  | .treeDeser => t = s.deserRule s.operands

theorem ruleResult_next {i : Instr} {s t : State} (h : ruleResult s i = .next t) : RuleEnds s t i := by
  cases i
  case ctGen => exact withTree_next h
  case treeSer => exact withTree_next h
  all_goals exact (Host.Outcome.next.inj h).symm

/-- A next state is a static failure, or what the command's rule ends in (R103). -/
theorem exec_next {i : Instr} {s t : State} (h : exec i s = .next t) :
    (∃ e, s.staticError i = some e ∧ t = s.fail e 0) ∨ (s.staticError i = none ∧ RuleEnds s t i) := by
  rw [exec_eq_checked] at h
  exact (checked_next h).imp id fun h => ⟨h.1, ruleResult_next h.2⟩

theorem withTree_fault {s : State} {rule : List Visit → State} {f : Fault} (h : s.withTree rule = .fault f) :
    ¬∃ t ixs, s.HasTree s.operands.root.toNat t ixs := by
  rintro ⟨t, ixs, ht⟩
  rw [withTree_of_hasTree rule ht] at h
  cases h

/-- The only fault is CT_GEN's or TREE_SER's, where the latched TREE_VALID is 1 and there is no tree. -/
theorem exec_fault {i : Instr} {s : State} {f : Fault} (h : exec i s = .fault f) :
    (i = .ctGen ∨ i = .treeSer) ∧ s.operands.treeValid = true ∧
      ¬∃ t ixs, s.HasTree s.operands.root.toNat t ixs := by
  rw [exec_eq_checked] at h
  obtain ⟨h1, h2⟩ := checked_fault h
  cases i
  case ctGen => exact ⟨.inl rfl, (staticError_eq_none h1).2 rfl, withTree_fault h2⟩
  case treeSer => exact ⟨.inr rfl, (staticError_eq_none h1).2 rfl, withTree_fault h2⟩
  all_goals cases h2

/-- No command is refused. -/
theorem exec_not_refused (i : Instr) (s : State) (r : Refusal) : exec i s ≠ .refused r := by
  intro h
  rw [exec_eq_checked, State.checked] at h
  split at h
  · cases h
  · cases i
    case ctGen => simp only [ruleResult, State.withTree] at h; split at h <;> cases h
    case treeSer => simp only [ruleResult, State.withTree] at h; split at h <;> cases h
    all_goals simp [ruleResult] at h

end Sys2Proof.Machine
end

