-- ==== Sys2Proof/Laws/Rules.lean ====
section
/-! SUPPORT. What each command's rule can end in, once its static checks have passed, and which errors its loop can find. -/

namespace Sys2Proof.Machine

theorem except_map_ok {ε α β : Type} {x : Except ε α} {f : α → β} {b : β} (h : x.map f = .ok b) :
    ∃ a, x = .ok a ∧ b = f a := by
  cases x with
  | error e => cases h
  | ok a => cases h; exact ⟨a, rfl, rfl⟩

theorem except_map_error {ε α β : Type} {x : Except ε α} {f : α → β} {e : ε} (h : x.map f = .error e) :
    x = .error e := by
  cases x with
  | error e' => cases h; rfl
  | ok a => cases h

/-! ### The rules -/

theorem commit_cases (s : State) (w : Except Nat (List Visit)) :
    (∃ vs, w = .ok vs ∧ s.commit w = (s.setTree vs.length (s.countLeaves vs)).succeed 0) ∨
    (∃ v, w = .error v ∧ s.commit w = s.fail .corruptTree v) := by
  cases w with
  | ok vs => exact .inl ⟨vs, rfl, rfl⟩
  | error v => exact .inr ⟨v, rfl, rfl⟩

theorem ctWriteRule_cases (s : State) (sym len bits : Nat) :
    (0xFFFF < sym ∧ s.ctWriteRule sym len bits = s.fail .unsupportedSymbol 0) ∨
    (sym ≤ 0xFFFF ∧ 32 < len ∧ s.ctWriteRule sym len bits = s.fail .capacityExceeded 0) ∨
    (sym ≤ 0xFFFF ∧ len = 0 ∧ s.ctWriteRule sym len bits = (s.dropCode sym).succeed 0) ∨
    (sym ≤ 0xFFFF ∧ 0 < len ∧ len ≤ 32 ∧
      s.ctWriteRule sym len bits = (s.putCode sym (natBits len bits)).succeed 0) := by
  simp only [State.ctWriteRule, Config.MAX_SYM, Config.MAX_CODE_LEN]
  split
  · exact .inl ⟨by omega, rfl⟩
  · split
    · exact .inr (.inl ⟨by omega, by omega, rfl⟩)
    · split
      · exact .inr (.inr (.inl ⟨by omega, by omega, rfl⟩))
      · exact .inr (.inr (.inr ⟨by omega, by omega, by omega, rfl⟩))

theorem ctReadRule_cases (s : State) (sym : Nat) :
    (0xFFFF < sym ∧ s.ctReadRule sym = s.fail .unsupportedSymbol 0) ∨
    (sym ≤ 0xFFFF ∧ s.ctReadRule sym = (s.loadCode (s.codeAt sym)).succeed 0) := by
  simp only [State.ctReadRule, Config.MAX_SYM]
  split
  · exact .inl ⟨by omega, rfl⟩
  · exact .inr ⟨by omega, rfl⟩

theorem genRule_cases (s : State) (vs : List Visit) :
    (∃ code made, genLoop s.nodeAt 0 0 [] vs = .ok (code, made) ∧ s.genRule vs = { s with code := code }.succeed made) ∨
    (∃ e, genLoop s.nodeAt 0 0 [] vs = .error e ∧ s.genRule vs = s.clearCode.fail e.code e.pos) := by
  unfold State.genRule
  cases h : genLoop s.nodeAt 0 0 [] vs with
  | ok x => exact .inl ⟨x.1, x.2, rfl, rfl⟩
  | error e => exact .inr ⟨e, rfl, rfl⟩

theorem encodeRule_cases (s : State) (o : Operands) :
    (∃ out, encodeLoop s.codeAt (8 * o.dstCap.toNat) 0 0 (s.readWords o.srcAddr.toNat o.srcLen.toNat) = .ok out ∧
      s.encodeRule o = (s.bitStore o.dstAddr.toNat out).succeed out.length) ∨
    (∃ e, encodeLoop s.codeAt (8 * o.dstCap.toNat) 0 0 (s.readWords o.srcAddr.toNat o.srcLen.toNat) = .error e ∧
      s.encodeRule o = s.failInto o.dstAddr.toNat o.dstCap.toNat e) := by
  unfold State.encodeRule
  cases h : encodeLoop s.codeAt (8 * o.dstCap.toNat) 0 0 (s.readWords o.srcAddr.toNat o.srcLen.toNat) with
  | ok out => exact .inl ⟨out, rfl, rfl⟩
  | error e => exact .inr ⟨e, rfl, rfl⟩

theorem decodeRule_cases (s : State) (o : Operands) :
    (∃ out, s.decodeSymbols o = .ok out ∧ s.decodeRule o = (s.writeWords o.dstAddr.toNat out).succeed out.length) ∨
    (∃ e, s.decodeSymbols o = .error e ∧ s.decodeRule o = s.failInto o.dstAddr.toNat o.dstCap.toNat e) := by
  unfold State.decodeRule
  cases h : s.decodeSymbols o with
  | ok out => exact .inl ⟨out, rfl, rfl⟩
  | error e => exact .inr ⟨e, rfl, rfl⟩

theorem serRule_cases (s : State) (o : Operands) (vs : List Visit) :
    (∃ out, serLoop s.nodeAt (8 * o.dstCap.toNat) 0 0 vs = .ok out ∧
      s.serRule o vs = (s.bitStore o.dstAddr.toNat out).succeed out.length) ∨
    (∃ e, serLoop s.nodeAt (8 * o.dstCap.toNat) 0 0 vs = .error e ∧
      s.serRule o vs = s.failInto o.dstAddr.toNat o.dstCap.toNat e) := by
  unfold State.serRule
  cases h : serLoop s.nodeAt (8 * o.dstCap.toNat) 0 0 vs with
  | ok out => exact .inl ⟨out, rfl, rfl⟩
  | error e => exact .inr ⟨e, rfl, rfl⟩

theorem deserRule_cases (s : State) (o : Operands) :
    (∃ q, parseTree (s.readBits o.srcAddr.toNat o.srcLen.toNat) s.node = .ok q ∧
      s.deserRule o = ({ s with root := 0, node := q.node }.setTree q.n q.leaves).succeed o.srcLen.toNat) ∨
    (∃ e, parseTree (s.readBits o.srcAddr.toNat o.srcLen.toNat) s.node = .error e ∧
      s.deserRule o = ({ s with root := 0 }.anyNodes 0 e.n).fail e.err.code e.err.pos) := by
  unfold State.deserRule
  cases h : parseTree (s.readBits o.srcAddr.toNat o.srcLen.toNat) s.node with
  | ok q => exact .inl ⟨q, rfl, rfl⟩
  | error e => exact .inr ⟨e, rfl, rfl⟩

/-! ### The errors the loops find (R201) -/

theorem genLoop_error {nd : Nat → Node} {v made : Nat} {code : Ram Code} {vs : List Visit} {e : CmdError}
    (h : genLoop nd v made code vs = .error e) :
    e.code = .unsupportedSymbol ∨ e.code = .corruptTree ∨ e.code = .capacityExceeded := by
  induction vs generalizing v made code with
  | nil => cases h
  | cons c cs ih =>
    unfold genLoop at h
    repeat' split at h
    all_goals first | exact ih h | (cases h; simp)

theorem encodeLoop_error {ca : Nat → Option Code} {cap j len : Nat} {ws : List Word} {e : CmdError}
    (h : encodeLoop ca cap j len ws = .error e) :
    e.code = .unsupportedSymbol ∨ e.code = .unknownSymbol ∨ e.code = .outputOverflow := by
  induction ws generalizing j len with
  | nil => cases h
  | cons w ws ih =>
    unfold encodeLoop at h
    repeat' split at h
    all_goals first | exact ih (except_map_error h) | (cases h; simp)

theorem decodeLeafLoop_error {w : Word} {cap i m n : Nat} {e : CmdError}
    (h : decodeLeafLoop w cap i m n = .error e) : e.code = .outputOverflow := by
  induction n generalizing i m with
  | zero => cases h
  | succ n ih =>
    unfold decodeLeafLoop at h
    split at h
    · cases h; rfl
    · exact ih (except_map_error h)

theorem decodeLoop_error {nd : Nat → Node} {root cap i m cur : Nat} {bs : List Bool} {e : CmdError}
    (h : decodeLoop nd root cap i m cur bs = .error e) : e.code = .truncatedStream ∨ e.code = .outputOverflow := by
  induction bs generalizing i m cur with
  | nil =>
    unfold decodeLoop at h
    split at h
    · cases h
    · cases h; simp
  | cons b bs ih =>
    unfold decodeLoop at h
    dsimp only at h
    repeat' split at h
    all_goals first | exact ih h | exact ih (except_map_error h) | (cases h; simp)

theorem decodeSymbols_error {s : State} {o : Operands} {e : CmdError} (h : s.decodeSymbols o = .error e) :
    e.code = .truncatedStream ∨ e.code = .outputOverflow := by
  unfold State.decodeSymbols at h
  split at h
  · exact .inr (decodeLeafLoop_error h)
  · exact decodeLoop_error h

theorem serLoop_error {nd : Nat → Node} {cap v len : Nat} {vs : List Visit} {e : CmdError}
    (h : serLoop nd cap v len vs = .error e) : e.code = .unsupportedSymbol ∨ e.code = .outputOverflow := by
  induction vs generalizing v len with
  | nil => cases h
  | cons c cs ih =>
    unfold serLoop at h
    repeat' split at h
    all_goals first | exact ih (except_map_error h) | (cases h; simp)

theorem parseNode_error {total fuel : Nat} {p : Parse} {e : ParseError} (h : parseNode total fuel p = .error e) :
    e.err.code = .corruptTree ∨ e.err.code = .capacityExceeded := by
  induction fuel generalizing p e with
  | zero => cases h; simp
  | succ fuel ih =>
    unfold parseNode at h
    split at h
    · cases h; simp
    · split at h
      · cases h; simp
      · split at h
        · split at h
          · cases h; simp
          · cases h
        · split at h
          · rename_i e' he; cases h; exact ih he
          · split at h
            · rename_i e' he; cases h; exact ih he
            · cases h

theorem parseTree_error {bits : List Bool} {node : Ram Node} {e : ParseError} (h : parseTree bits node = .error e) :
    e.err.code = .corruptTree ∨ e.err.code = .capacityExceeded := by
  unfold parseTree at h
  split at h
  · rename_i e' he; cases h; exact parseNode_error he
  · split at h
    · cases h; simp
    · cases h

/-! ### What the loops put out fits -/

theorem encodeLoop_length {ca : Nat → Option Code} {cap j len : Nat} {ws : List Word} {out : List Bool}
    (h : encodeLoop ca cap j len ws = .ok out) (hl : len ≤ cap) : len + out.length ≤ cap := by
  induction ws generalizing j len out with
  | nil => cases h; simpa using hl
  | cons w ws ih =>
    unfold encodeLoop at h
    repeat' split at h
    all_goals first | cases h | skip
    rename_i hfit
    obtain ⟨a, ha, rfl⟩ := except_map_ok h
    have := ih ha (by omega)
    simp only [List.length_append]
    omega

theorem serLoop_length {nd : Nat → Node} {cap v len : Nat} {vs : List Visit} {out : List Bool}
    (h : serLoop nd cap v len vs = .ok out) (hl : len ≤ cap) : len + out.length ≤ cap := by
  induction vs generalizing v len out with
  | nil => cases h; simpa using hl
  | cons c cs ih =>
    unfold serLoop at h
    split at h
    · repeat' split at h
      all_goals first | cases h | skip
      obtain ⟨a, ha, rfl⟩ := except_map_ok h
      have := ih ha (by omega)
      simp only [List.length_append, List.length_cons, length_bits16]
      omega
    · split at h
      · cases h
      · obtain ⟨a, ha, rfl⟩ := except_map_ok h
        have := ih ha (by omega)
        simp only [List.length_cons]
        omega

theorem decodeLeafLoop_length {w : Word} {cap i m n : Nat} {out : List Word}
    (h : decodeLeafLoop w cap i m n = .ok out) (hl : 4 * m ≤ cap) : 4 * (m + out.length) ≤ cap := by
  induction n generalizing i m out with
  | zero => cases h; simpa using hl
  | succ n ih =>
    unfold decodeLeafLoop at h
    split at h
    · cases h
    · obtain ⟨a, ha, rfl⟩ := except_map_ok h
      have := ih ha (by omega)
      simp only [List.length_cons]
      omega

theorem decodeLoop_length {nd : Nat → Node} {root cap i m cur : Nat} {bs : List Bool} {out : List Word}
    (h : decodeLoop nd root cap i m cur bs = .ok out) (hl : 4 * m ≤ cap) : 4 * (m + out.length) ≤ cap := by
  induction bs generalizing i m cur out with
  | nil =>
    unfold decodeLoop at h
    split at h
    · cases h; simpa using hl
    · cases h
  | cons b bs ih =>
    unfold decodeLoop at h
    dsimp only at h
    split at h
    · split at h
      · cases h
      · obtain ⟨a, ha, rfl⟩ := except_map_ok h
        have := ih ha (by omega)
        simp only [List.length_cons]
        omega
    · exact ih h hl

theorem decodeSymbols_length {s : State} {o : Operands} {out : List Word} (h : s.decodeSymbols o = .ok out) :
    4 * out.length ≤ o.dstCap.toNat := by
  unfold State.decodeSymbols at h
  split at h
  · simpa using decodeLeafLoop_length h (by omega)
  · simpa using decodeLoop_length h (by omega)

/-! ### `failInto` (R105) -/

@[simp] theorem failInto_errcode (s : State) (d c : Nat) (e : CmdError) : (s.failInto d c e).errcode = e.code := rfl

theorem failedInto_failInto {s : State} {d c pos : Nat} {e : ErrCode} (hp : pos < 2 ^ 32) :
    FailedInto s (s.failInto d c ⟨e, pos⟩) e pos d c := by
  refine ⟨?_, fun k hk => bufByte_anyRegion_outside s d c k hk, rfl⟩
  show (BitVec.ofNat 32 pos).toNat = pos
  rw [BitVec.toNat_ofNat]
  exact Nat.mod_eq_of_lt hp

/-- A success of ENCODE or TREE_SER (R64, R104). -/
theorem storedBits_bitStore (s : State) (d : Nat) (p : List Bool) (hp : p.length < 2 ^ 32) :
    StoredBits s ((s.bitStore d p).succeed p.length) d p := by
  refine ⟨?_, readBits_bitStore s d p, fun i h1 h2 => ?_, fun k hk => ?_, rfl⟩
  · show (BitVec.ofNat 32 p.length).toNat = p.length
    rw [BitVec.toNat_ofNat]
    exact Nat.mod_eq_of_lt hp
  · show (s.bitStore d p).bitRead d i = false
    rw [bitRead_bitStore s d p i h2, List.getD_eq_default _ _ h1]
  · show (s.bitStore d p).bufByte k = s.bufByte k
    rw [bufByte_bitStore, if_neg (by simp only [ceilDiv8]; omega)]

/-- A success of DECODE (R62, R104). -/
theorem storedWords_writeWords (s : State) (d : Nat) (ws : List Word) (hw : ws.length < 2 ^ 32) :
    StoredWords s ((s.writeWords d ws).succeed ws.length) d ws := by
  refine ⟨?_, fun j h => readWord_writeWords ws s d j h, fun k hk => bufByte_writeWords_outside ws s d k hk, ?_⟩
  · show (BitVec.ofNat 32 ws.length).toNat = ws.length
    rw [BitVec.toNat_ofNat]
    exact Nat.mod_eq_of_lt hw
  · rw [writeWords_eq]; rfl

end Sys2Proof.Machine
end

