-- ==== Sys2Proof/Laws/CodeTable.lean ====
section
/-! SUPPORT. Leaves and codes (spec/41_tree_and_code_table.md R126 to R128): the leaves of a tree in pre-order, their paths
and codes, and what CT_GEN's loop makes of them. -/

namespace Sys2Proof.Machine

/-! ### Paths -/

theorem HTree.at?_append (t : HTree) (p q : List Bool) : t.at? (p ++ q) = (t.at? p).bind (·.at? q) := by
  induction p generalizing t with
  | nil => cases t <;> rfl
  | cons b p ih =>
    cases t with
    | leaf s => rfl
    | node l r => cases b <;> simp [HTree.at?, ih]

@[simp] theorem HTree.at?_nil (t : HTree) : t.at? [] = some t := by cases t <;> rfl

theorem HTree.symAt_eq_some {t : HTree} {p : List Bool} {w : Word} : t.symAt p = some w ↔ t.at? p = some (.leaf w) := by
  unfold HTree.symAt
  split <;> rename_i h <;> simp_all

@[simp] theorem HTree.symAt_leaf_nil (s : Word) : (HTree.leaf s).symAt [] = some s := rfl
@[simp] theorem HTree.symAt_leaf_cons (s : Word) (b : Bool) (p : List Bool) : (HTree.leaf s).symAt (b :: p) = none := rfl
@[simp] theorem HTree.symAt_node_nil (l r : HTree) : (HTree.node l r).symAt [] = none := rfl
@[simp] theorem HTree.symAt_node_false (l r : HTree) (p : List Bool) :
    (HTree.node l r).symAt (false :: p) = l.symAt p := rfl
@[simp] theorem HTree.symAt_node_true (l r : HTree) (p : List Bool) : (HTree.node l r).symAt (true :: p) = r.symAt p := rfl

/-- A path to a leaf does not go on: two paths to leaves, one a prefix of the other, are the same (R128). -/
theorem HTree.symAt_prefix {t : HTree} {p q : List Bool} {w w' : Word} (hp : t.symAt p = some w)
    (hq : t.symAt q = some w') (h : p <+: q) : p = q ∧ w = w' := by
  obtain ⟨x, rfl⟩ := h
  rw [HTree.symAt_eq_some] at hp hq
  rw [HTree.at?_append, hp] at hq
  cases x with
  | nil => simp at hq; simp [hq]
  | cons b x => simp [HTree.at?] at hq

/-- Where the root is an internal node the path to a leaf is not empty. -/
theorem HTree.symAt_node_ne_nil {l r : HTree} {p : List Bool} {w : Word} (h : (HTree.node l r).symAt p = some w) :
    p ≠ [] := by rintro rfl; simp at h

/-- A leaf is as deep as there are internal nodes on its path: its path is shorter than the tree's node count. -/
theorem HTree.symAt_length_lt {t : HTree} {p : List Bool} {w : Word} (h : t.symAt p = some w) : p.length < t.size := by
  induction t generalizing p with
  | leaf s =>
    cases p with
    | nil => simp [HTree.size]
    | cons b p => simp at h
  | node l r ihl ihr =>
    simp only [HTree.size]
    cases p with
    | nil => simp at h
    | cons b p =>
      cases b
      · have := ihl (p := p) (by simpa using h); simp only [List.length_cons]; omega
      · have := ihr (p := p) (by simpa using h); simp only [List.length_cons]; omega

/-! ### The leaves in pre-order -/

/-- The leaves of a tree at path `p`, in pre-order, with their paths. -/
theorem HTree.mem_entries {t : HTree} {p q : List Bool} {w : Word} :
    some (w, q) ∈ t.entries p ↔ ∃ x, q = p ++ x ∧ t.symAt x = some w := by
  induction t generalizing p with
  | leaf s =>
    simp only [HTree.entries, List.mem_singleton, Option.some.injEq, Prod.mk.injEq]
    constructor
    · rintro ⟨rfl, rfl⟩; exact ⟨[], by simp, rfl⟩
    · rintro ⟨x, rfl, h⟩
      cases x with
      | nil => simpa [eq_comm] using h
      | cons b x => simp at h
  | node l r ihl ihr =>
    simp only [HTree.entries, List.mem_cons, reduceCtorEq, false_or, List.mem_append, ihl, ihr]
    constructor
    · rintro (⟨x, rfl, h⟩ | ⟨x, rfl, h⟩)
      · exact ⟨false :: x, by simp, by simpa using h⟩
      · exact ⟨true :: x, by simp, by simpa using h⟩
    · rintro ⟨x, rfl, h⟩
      cases x with
      | nil => simp at h
      | cons b x =>
        cases b
        · exact .inl ⟨x, by simp, by simpa using h⟩
        · exact .inr ⟨x, by simp, by simpa using h⟩

theorem HTree.mem_preorder {t : HTree} {p : List Bool} {w : Word} :
    (w, p) ∈ t.preorder.filterMap id ↔ t.symAt p = some w := by
  simp [HTree.preorder, HTree.mem_entries]

/-- The codes of R127 are the paths of the leaves in pre-order, "0" where the path is empty. -/
theorem HTree.codes_eq (t : HTree) : t.codes = (t.preorder.filterMap id).map fun x => (x.1, codeOfPath x.2) := by
  cases t with
  | leaf s => rfl
  | node l r =>
    rw [HTree.codes]
    refine (List.map_id _).symm.trans (List.map_congr_left fun x hx => ?_)
    have h := HTree.symAt_node_ne_nil (HTree.mem_preorder.1 (show (x.1, x.2) ∈ _ from hx))
    simp [codeOfPath, h]

theorem HTree.map_fst_codes (t : HTree) : t.codes.map (·.1) = (t.preorder.filterMap id).map (·.1) := by
  rw [HTree.codes_eq, List.map_map]; rfl

theorem HTree.length_codes (t : HTree) : t.codes.length = t.leaves := by
  rw [HTree.codes_eq, List.length_map, ← HTree.countP_entries t [], HTree.preorder]
  induction t.entries [] with
  | nil => rfl
  | cons x xs ih => cases x <;> simp_all

theorem HTree.symbolsFit_iff (t : HTree) : t.symbolsFit ↔ ∀ p w, t.symAt p = some w → w.toNat ≤ 0xFFFF := by
  simp only [HTree.symbolsFit, HTree.codes_eq, List.mem_map]
  constructor
  · intro h p w hp
    exact h (w, codeOfPath p) ⟨(w, p), HTree.mem_preorder.2 hp, rfl⟩
  · rintro h _ ⟨⟨w, p⟩, hx, rfl⟩
    exact h p w (HTree.mem_preorder.1 hx)

/-! ### CT_GEN's loop -/

/-- The leaves among visits, with their paths. -/
def leafEntries (nd : Nat → Node) (vs : List Visit) : List (Word × List Bool) := vs.filterMap (visitEntry nd)

theorem leafEntries_cons_leaf {nd : Nat → Node} {c : Visit} (cs : List Visit) (h : (nd c.idx).kind = true) :
    leafEntries nd (c :: cs) = ((nd c.idx).sym, c.path) :: leafEntries nd cs := by
  simp [leafEntries, visitEntry, h]

theorem leafEntries_cons_node {nd : Nat → Node} {c : Visit} (cs : List Visit) (h : ¬(nd c.idx).kind = true) :
    leafEntries nd (c :: cs) = leafEntries nd cs := by
  simp [leafEntries, visitEntry, h]

theorem leafEntries_eq {nd : Nat → Node} {vs : List Visit} {es : List (Option (Word × List Bool))}
    (h : vs.map (visitEntry nd) = es) : leafEntries nd vs = es.filterMap id := by
  rw [← h, leafEntries, List.filterMap_map]; rfl

/-- CODE with the codes of the leaves `xs` written one after the other. -/
def putCodes (code : Ram Code) (xs : List (Word × List Bool)) : Ram Code :=
  xs.foldl (fun m x => Ram.put m x.1.toNat (codeOfPath x.2)) code

/-- What CODE lists after the codes of leaves with distinct symbols have been written. -/
theorem get?_putCodes (xs : List (Word × List Bool)) (code : Ram Code) (hn : (xs.map (·.1)).Nodup) (k : Nat) (p : Code) :
    Ram.get? (putCodes code xs) k = some p ↔
      (∃ x ∈ xs, x.1.toNat = k ∧ codeOfPath x.2 = p) ∨ (Ram.get? code k = some p ∧ ∀ x ∈ xs, x.1.toNat ≠ k) := by
  induction xs generalizing code with
  | nil => simp [putCodes]
  | cons x xs ih =>
    rw [List.map_cons, List.nodup_cons] at hn
    show Ram.get? (putCodes _ xs) k = some p ↔ _
    rw [ih _ hn.2, Ram.get?_put]
    by_cases hk : k = x.1.toNat
    · subst hk
      have hx : ∀ y ∈ xs, y.1.toNat ≠ x.1.toNat := fun y hy he =>
        hn.1 (List.mem_map.2 ⟨y, hy, BitVec.eq_of_toNat_eq he⟩)
      simp only [if_true, Option.some.injEq, List.mem_cons, exists_eq_or_imp, true_and]
      constructor
      · rintro (⟨y, hy, he, -⟩ | ⟨h, -⟩)
        · exact absurd he (hx y hy)
        · exact .inl (.inl h)
      · rintro ((h | ⟨y, hy, he, -⟩) | ⟨-, h⟩)
        · exact .inr ⟨h, hx⟩
        · exact absurd he (hx y hy)
        · exact absurd rfl (h x (by simp))
    · have hk' : x.1.toNat ≠ k := fun e => hk e.symm
      simp only [if_neg hk, List.mem_cons, exists_eq_or_imp, forall_eq_or_imp, hk', false_and, false_or, ne_eq,
        not_false_eq_true, true_and]

theorem codeOfPath_length_le {p : List Bool} (h : p.length ≤ 32) : (codeOfPath p).length ≤ 32 := by
  unfold codeOfPath; split <;> simp_all

/-- Over leaves that are good one after the other, CT_GEN's loop writes their codes and goes on. -/
theorem genLoop_good {nd : Nat → Node} {vs : List Visit} (rest : List Visit) (v made : Nat) (code : Ram Code)
    (hfit : ∀ x ∈ leafEntries nd vs, x.1.toNat ≤ 0xFFFF ∧ (codeOfPath x.2).length ≤ 32)
    (hn : ((leafEntries nd vs).map (·.1)).Nodup) (hnew : ∀ x ∈ leafEntries nd vs, Ram.get? code x.1.toNat = none) :
    genLoop nd v made code (vs ++ rest) =
      genLoop nd (v + vs.length) (made + (leafEntries nd vs).length) (putCodes code (leafEntries nd vs)) rest := by
  induction vs generalizing v made code with
  | nil => rfl
  | cons c cs ih =>
    rw [List.cons_append, genLoop]
    by_cases hk : (nd c.idx).kind = true
    · rw [leafEntries_cons_leaf cs hk] at hfit hn hnew ⊢
      have h1 := hfit _ (List.mem_cons_self ..)
      simp only at h1
      have h2 := hnew _ (List.mem_cons_self ..)
      rw [List.map_cons, List.nodup_cons] at hn
      rw [if_pos hk, if_neg (by simp only [Config.MAX_SYM]; omega), if_neg (by simp [h2]),
        if_neg (by simp only [Config.MAX_CODE_LEN]; omega),
        ih _ _ _ (fun x hx => hfit x (List.mem_cons_of_mem _ hx)) hn.2 fun x hx => ?_]
      · simp only [List.length_cons]
        congr 1 <;> omega
      · rw [Ram.get?_put_ne _ _ fun e => hn.1 (List.mem_map.2 ⟨x, hx, BitVec.eq_of_toNat_eq e⟩)]
        exact hnew x (List.mem_cons_of_mem _ hx)
    · rw [leafEntries_cons_node cs hk] at hfit hn hnew ⊢
      rw [if_neg hk, ih _ _ _ hfit hn hnew]
      simp only [List.length_cons]
      congr 1; omega

/-- Where CT_GEN's loop succeeds its leaves are good, and CODE holds their codes. -/
theorem genLoop_ok {nd : Nat → Node} {vs : List Visit} {v made : Nat} {code code' : Ram Code} {made' : Nat}
    (h : genLoop nd v made code vs = .ok (code', made')) :
    (∀ x ∈ leafEntries nd vs, x.1.toNat ≤ 0xFFFF ∧ (codeOfPath x.2).length ≤ 32) ∧
    ((leafEntries nd vs).map (·.1)).Nodup ∧ (∀ x ∈ leafEntries nd vs, Ram.get? code x.1.toNat = none) ∧
    code' = putCodes code (leafEntries nd vs) ∧ made' = made + (leafEntries nd vs).length := by
  induction vs generalizing v made code with
  | nil => cases h; simp [leafEntries, putCodes]
  | cons c cs ih =>
    rw [genLoop] at h
    by_cases hk : (nd c.idx).kind = true
    · rw [if_pos hk] at h
      split at h
      · cases h
      · split at h
        · cases h
        · split at h
          · cases h
          · rename_i h1 h2 h3
            simp only [Config.MAX_SYM, Config.MAX_CODE_LEN, Nat.not_lt] at h1 h3
            have h2 : Ram.get? code (nd c.idx).sym.toNat = none := by
              cases hg : Ram.get? code (nd c.idx).sym.toNat with
              | none => rfl
              | some _ => simp [hg] at h2
            obtain ⟨g1, g2, g3, g4, g5⟩ := ih h
            have hne : ∀ x ∈ leafEntries nd cs, x.1.toNat ≠ (nd c.idx).sym.toNat := fun x hx e => by
              have := g3 x hx; rw [e, Ram.get?_put_self] at this; cases this
            rw [leafEntries_cons_leaf cs hk]
            refine ⟨?_, ?_, ?_, ?_, ?_⟩
            · intro x hx
              rcases List.mem_cons.1 hx with rfl | hx
              · exact ⟨h1, h3⟩
              · exact g1 x hx
            · rw [List.map_cons, List.nodup_cons]
              refine ⟨fun hm => ?_, g2⟩
              obtain ⟨x, hx, he⟩ := List.mem_map.1 hm
              exact hne x hx (congrArg _ he)
            · intro x hx
              rcases List.mem_cons.1 hx with rfl | hx
              · exact h2
              · have := g3 x hx; rwa [Ram.get?_put_ne _ _ (hne x hx)] at this
            · exact g4
            · rw [g5, List.length_cons]; omega
    · rw [if_neg hk] at h
      rw [leafEntries_cons_node cs hk]
      exact ih h

/-- The leaves of a tree's walk. -/
theorem State.HasTree.leafEntries {s : State} {c : Nat} {t : HTree} {ixs : List Nat} (h : s.HasTree c t ixs) :
    leafEntries s.nodeAt (treeVisits s.nodeAt t c []) = t.preorder.filterMap id :=
  leafEntries_eq (h.shape.map_visitEntry [])

theorem HTree.length_leafEntries (t : HTree) : (t.preorder.filterMap id).length = t.leaves := by
  rw [← t.length_codes, HTree.codes_eq, List.length_map]

/-- What a successful CT_GEN over a tree's walk has found and leaves. -/
theorem State.HasTree.genLoop_ok {s : State} {c : Nat} {t : HTree} {ixs : List Nat} (h : s.HasTree c t ixs)
    {code : Ram Code} {made : Nat} (hg : genLoop s.nodeAt 0 0 [] (treeVisits s.nodeAt t c []) = .ok (code, made)) :
    (∀ p w, t.symAt p = some w → w.toNat ≤ 0xFFFF ∧ (codeOfPath p).length ≤ 32) ∧
    ((t.preorder.filterMap id).map (·.1)).Nodup ∧ made = t.leaves ∧
    ∀ k q, Ram.get? code k = some q ↔ ∃ p w, t.symAt p = some w ∧ w.toNat = k ∧ codeOfPath p = q := by
  obtain ⟨h1, h2, -, rfl, rfl⟩ := Machine.genLoop_ok hg
  rw [h.leafEntries] at h1 h2 ⊢
  refine ⟨fun p w hp => h1 (w, p) (HTree.mem_preorder.2 hp), h2, (Nat.zero_add _).trans t.length_leafEntries, fun k q => ?_⟩
  rw [get?_putCodes _ _ h2]
  constructor
  · rintro (⟨x, hx, he, hq⟩ | ⟨h, -⟩)
    · exact ⟨x.2, x.1, HTree.mem_preorder.1 hx, he, hq⟩
    · cases h
  · rintro ⟨p, w, hp, he, hq⟩
    exact .inl ⟨(w, p), HTree.mem_preorder.2 hp, he, hq⟩

end Sys2Proof.Machine
end

