-- ==== Sys2Proof/Laws/Streams.lean ====
section
/-! SUPPORT. The loops of ENCODE, DECODE and TREE_SER, along an input that is good so far (spec/42_bit_encoder.md R150, R151;
spec/43_bit_decoder.md R160 to R162; spec/44_tree_codec.md R170, R171). -/

namespace Sys2Proof.Machine

theorem except_map_id' {ε α : Type} (x : Except ε α) (f : α → α) (h : ∀ a, f a = a) : x.map f = x := by
  cases x with
  | error e => rfl
  | ok a => exact congrArg Except.ok (h a)

/-! ### ENCODE -/

/-- Over symbols with the codes `cs` that fit, ENCODE's loop puts out the codes and goes on. -/
theorem encodeLoop_good {ca : Nat → Option Code} {cap : Nat} {ws : List Word} {cs : List Code} (rest : List Word)
    (j len : Nat) (hs : List.Forall₂ (fun (w : Word) c => w.toNat ≤ 0xFFFF ∧ ca w.toNat = some c) ws cs)
    (hfit : len + cs.flatten.length ≤ cap) :
    encodeLoop ca cap j len (ws ++ rest) =
      (encodeLoop ca cap (j + ws.length) (len + cs.flatten.length) rest).map (cs.flatten ++ ·) := by
  induction hs generalizing j len with
  | nil => exact (except_map_id' _ _ fun a => rfl).symm
  | @cons w c ws cs h hs ih =>
    simp only [List.flatten_cons, List.length_append] at hfit
    rw [List.cons_append, encodeLoop, if_neg (by simp only [Config.MAX_SYM]; omega)]
    simp only [h.2]
    rw [if_neg (by omega), ih _ _ (by omega), except_map_map]
    simp only [List.flatten_cons, List.length_append, List.length_cons]
    rw [show j + 1 + ws.length = j + (ws.length + 1) by omega,
      show len + c.length + cs.flatten.length = len + (c.length + cs.flatten.length) by omega]
    congr 1
    funext x
    simp

/-- Where ENCODE's loop succeeds each symbol has a code and the output is their concatenation (R151). -/
theorem encodeLoop_ok {ca : Nat → Option Code} {cap j len : Nat} {ws : List Word} {out : List Bool}
    (h : encodeLoop ca cap j len ws = .ok out) :
    ∃ cs : List Code, List.Forall₂ (fun (w : Word) c => w.toNat ≤ 0xFFFF ∧ ca w.toNat = some c) ws cs ∧
      out = cs.flatten := by
  induction ws generalizing j len out with
  | nil => cases h; exact ⟨[], .nil, rfl⟩
  | cons w ws ih =>
    rw [encodeLoop] at h
    split at h
    · cases h
    · rename_i h1
      split at h
      · cases h
      · rename_i c hc
        split at h
        · cases h
        · obtain ⟨a, ha, rfl⟩ := except_map_ok h
          obtain ⟨cs, hcs, rfl⟩ := ih ha
          exact ⟨c :: cs, .cons ⟨by simp only [Config.MAX_SYM] at h1; omega, hc⟩ hcs, rfl⟩

/-! ### DECODE -/

/-- Over the bits of a path that ends at an internal node DECODE's loop moves its cursor there. The cursor then is not at the
root: it has been visited after it. -/
theorem decodeLoop_inner {nd : Nat → Node} {c root : Nat} {t l r : HTree} {ixs : List Nat} {p : List Bool}
    (cap i m : Nat) (bs : List Bool) (ht : TreeAt nd c t ixs) (hp : t.at? p = some (.node l r)) :
    ∃ c' ixs', TreeAt nd c' (.node l r) ixs' ∧ ixs' ⊆ ixs ∧ (p ≠ [] → ixs' ⊆ ixs.tail) ∧
      decodeLoop nd root cap i m c (p ++ bs) = decodeLoop nd root cap (i + p.length) m c' bs := by
  induction p generalizing c t ixs i with
  | nil =>
    simp only [HTree.at?_nil, Option.some.injEq] at hp
    subst hp
    exact ⟨c, ixs, ht, fun _ h => h, by simp, rfl⟩
  | cons b p ih =>
    cases ht with
    | leaf c h => simp [HTree.at?] at hp
    | node c l' r' il ir h hl hr =>
      have key : ∀ {c₁ : Nat} {t₁ : HTree} {i₁ : List Nat}, c₁ = stepCursor nd c b → TreeAt nd c₁ t₁ i₁ →
          i₁ ⊆ il ++ ir → t₁.at? p = some (.node l r) → ∃ c' ixs', TreeAt nd c' (.node l r) ixs' ∧
          ixs' ⊆ c :: (il ++ ir) ∧ (b :: p ≠ [] → ixs' ⊆ (c :: (il ++ ir)).tail) ∧
          decodeLoop nd root cap i m c (b :: p ++ bs) = decodeLoop nd root cap (i + (b :: p).length) m c' bs := by
        intro c₁ t₁ i₁ hc ht hs hp
        obtain ⟨c', ixs', h1, h2, -, h4⟩ := ih (i := i + 1) ht hp
        refine ⟨c', ixs', h1, fun x hx => List.mem_cons_of_mem _ (hs (h2 hx)), fun _ x hx => hs (h2 hx), ?_⟩
        have hk : (nd c₁).kind = false := by
          cases ht with
          | node c l r il ir h hl hr => exact h
          | leaf c h =>
            cases p with
            | nil => simp at hp
            | cons b p => simp [HTree.at?] at hp
        rw [List.cons_append, decodeLoop]
        simp only [← hc, hk, Bool.false_eq_true, if_false, h4, List.length_cons]
        congr 1; omega
      cases b
      · exact key (by simp [stepCursor]) hl (by simp) (by simpa [HTree.at?] using hp)
      · exact key (by simp [stepCursor]) hr (by simp) (by simpa [HTree.at?] using hp)

/-- Over the bits of a path to a leaf DECODE's loop puts out its symbol, if it fits, and goes on at the root. -/
theorem decodeLoop_leaf {nd : Nat → Node} {c root : Nat} {l r : HTree} {ixs : List Nat} {p : List Bool} {w : Word}
    (cap i m : Nat) (bs : List Bool) (ht : TreeAt nd c (.node l r) ixs) (hp : (HTree.node l r).symAt p = some w) :
    decodeLoop nd root cap i m c (p ++ bs) =
      if cap < 4 * (m + 1) then .error ⟨.outputOverflow, i + p.length - 1⟩
      else (decodeLoop nd root cap (i + p.length) (m + 1) root bs).map (w :: ·) := by
  have hne := HTree.symAt_node_ne_nil hp
  obtain ⟨q, b, rfl⟩ : ∃ q b, p = q ++ [b] := ⟨p.dropLast, p.getLast hne, (List.dropLast_append_getLast hne).symm⟩
  rw [HTree.symAt_eq_some, HTree.at?_append] at hp
  obtain ⟨u, hu, hb⟩ := Option.bind_eq_some_iff.1 hp
  cases u with
  | leaf s => cases b <;> simp [HTree.at?] at hb
  | node l' r' =>
    obtain ⟨c', ixs', h1, -, -, h4⟩ :=
      decodeLoop_inner (root := root) cap i m ([b] ++ bs) ht hu
    have hn : (nd (stepCursor nd c' b)).kind = true ∧ (nd (stepCursor nd c' b)).sym = w := by
      cases h1 with
      | node _ _ _ il ir _ hl hr =>
        cases b
        · simp only [HTree.at?, Bool.false_eq_true, if_false, HTree.at?_nil, Option.some.injEq] at hb
          subst hb
          generalize hx : (nd c').left.toNat = x at hl
          cases hl with
          | leaf _ h => simp [stepCursor, hx, h]
        · simp only [HTree.at?, if_true, HTree.at?_nil, Option.some.injEq] at hb
          subst hb
          generalize hx : (nd c').right.toNat = x at hr
          cases hr with
          | leaf _ h => simp [stepCursor, hx, h]
    rw [List.append_assoc, h4]
    simp only [List.singleton_append, decodeLoop, hn.1, if_true, hn.2, List.length_append, List.length_singleton]
    rfl

/-- Over the paths of leaves whose symbols fit, DECODE's loop puts out the symbols and goes on at the root. -/
theorem decodeLoop_good {nd : Nat → Node} {root : Nat} {l r : HTree} {ixs : List Nat} {cap : Nat}
    {out : List (Word × List Bool)} (i m : Nat) (bs : List Bool) (ht : TreeAt nd root (.node l r) ixs)
    (hout : ∀ x ∈ out, (HTree.node l r).symAt x.2 = some x.1) (hfit : 4 * (m + out.length) ≤ cap) :
    decodeLoop nd root cap i m root ((out.map (·.2)).flatten ++ bs) =
      (decodeLoop nd root cap (i + (out.map (·.2)).flatten.length) (m + out.length) root bs).map (out.map (·.1) ++ ·) := by
  induction out generalizing i m with
  | nil => exact (except_map_id' _ _ fun a => rfl).symm
  | cons x out ih =>
    simp only [List.length_cons] at hfit
    simp only [List.map_cons, List.flatten_cons, List.append_assoc]
    rw [decodeLoop_leaf cap i m _ ht (hout x (by simp)), if_neg (by omega),
      ih _ _ (fun y hy => hout y (by simp [hy])) (by omega), except_map_map]
    simp only [List.length_append, List.length_cons]
    rw [show i + x.2.length + (out.map (·.2)).flatten.length = i + (x.2.length + (out.map (·.2)).flatten.length) by omega,
      show m + 1 + out.length = m + (out.length + 1) by omega]
    rfl

/-- The single-leaf loop: every bit gives the symbol while it fits (R161). -/
theorem decodeLeafLoop_good {w : Word} {cap : Nat} (i m n : Nat) (h : 4 * (m + n) ≤ cap ∨ n = 0) :
    decodeLeafLoop w cap i m n = .ok (List.replicate n w) := by
  induction n generalizing i m with
  | zero => rfl
  | succ n ih =>
    rw [decodeLeafLoop, if_neg (by omega), ih _ _ (by omega)]
    rfl

theorem decodeLeafLoop_full {w : Word} {cap : Nat} (i m n : Nat) (hm : 4 * m ≤ cap) (h : cap < 4 * (m + n)) :
    decodeLeafLoop w cap i m n = .error ⟨.outputOverflow, i + (cap / 4 - m)⟩ := by
  induction n generalizing i m with
  | zero => omega
  | succ n ih =>
    rw [decodeLeafLoop]
    split
    · congr 2; omega
    · rw [ih _ _ (by omega) (by omega)]
      show Except.error _ = _
      congr 2; omega

/-! ### TREE_SER -/

/-- What one node adds to a tree stream (R86). -/
def entryBits (x : Option (Word × List Bool)) : List Bool :=
  match x with
  | some y => true :: bits16 y.1
  | none => [false]

theorem HTree.stream_eq (t : HTree) (p : List Bool) : t.stream = (t.entries p).flatMap entryBits := by
  induction t generalizing p with
  | leaf s => simp [HTree.stream, HTree.entries, entryBits]
  | node l r ihl ihr => simp [HTree.stream, HTree.entries, entryBits, ← ihl, ← ihr]

theorem streamBits_cons (x : Option (Word × List Bool)) (es : List (Option (Word × List Bool))) :
    streamBits (x :: es) = streamBits [x] + streamBits es := by simp [streamBits]

theorem streamBits_append (es fs : List (Option (Word × List Bool))) :
    streamBits (es ++ fs) = streamBits es + streamBits fs := by simp [streamBits]

theorem length_entryBits (x : Option (Word × List Bool)) : (entryBits x).length = streamBits [x] := by
  cases x <;> simp [entryBits, streamBits]

theorem streamBits_pos (x : Option (Word × List Bool)) : 1 ≤ streamBits [x] := by cases x <;> simp [streamBits]

theorem length_flatMap_entryBits (es : List (Option (Word × List Bool))) :
    (es.flatMap entryBits).length = streamBits es := by
  induction es with
  | nil => rfl
  | cons x es ih => rw [List.flatMap_cons, List.length_append, ih, length_entryBits, streamBits_cons x es]

theorem HTree.length_stream (t : HTree) : t.stream.length = streamBits t.preorder := by
  rw [t.stream_eq [], length_flatMap_entryBits]; rfl

/-- R86: 18·k − 1 bits for k leaves. -/
theorem HTree.length_stream_eq (t : HTree) : t.stream.length = 18 * t.leaves - 1 := by
  induction t with
  | leaf s => rfl
  | node l r ihl ihr =>
    have hl := l.size_eq.2
    have hr := r.size_eq.2
    simp only [HTree.stream, List.length_cons, List.length_append, ihl, ihr, HTree.leaves]
    omega

/-- Over nodes that fit one after the other TREE_SER's loop puts out their bits and goes on. -/
theorem serLoop_good {nd : Nat → Node} {cap : Nat} {vs : List Visit} (rest : List Visit) (v len : Nat)
    (hs : ∀ x ∈ leafEntries nd vs, x.1.toNat ≤ 0xFFFF) (hfit : len + streamBits (vs.map (visitEntry nd)) ≤ cap) :
    serLoop nd cap v len (vs ++ rest) =
      (serLoop nd cap (v + vs.length) (len + streamBits (vs.map (visitEntry nd))) rest).map
        ((vs.map (visitEntry nd)).flatMap entryBits ++ ·) := by
  induction vs generalizing v len with
  | nil => exact (except_map_id' _ _ fun a => rfl).symm
  | cons c cs ih =>
    rw [List.map_cons, streamBits_cons] at hfit ⊢
    rw [List.cons_append, serLoop, List.length_cons, List.flatMap_cons]
    by_cases hk : (nd c.idx).kind = true
    · rw [leafEntries_cons_leaf cs hk] at hs
      have h1 := hs _ (List.mem_cons_self ..)
      simp only at h1
      have hv : visitEntry nd c = some ((nd c.idx).sym, c.path) := by simp [visitEntry, hk]
      have hl : streamBits [visitEntry nd c] = 17 := by simp [hv, streamBits]
      rw [if_pos hk, if_neg (by simp only [Config.MAX_SYM]; omega), if_neg (by omega),
        ih _ _ (fun x hx => hs x (List.mem_cons_of_mem _ hx)) (by omega), except_map_map, hl, ← Nat.add_assoc len 17,
        show v + 1 + cs.length = v + (cs.length + 1) by omega]
      congr 1
      funext x
      simp [hv, entryBits]
    · rw [leafEntries_cons_node cs hk] at hs
      have hv : visitEntry nd c = none := by simp [visitEntry, hk]
      have hl : streamBits [visitEntry nd c] = 1 := by simp [hv, streamBits]
      rw [if_neg hk, if_neg (by omega), ih _ _ hs (by omega), except_map_map, hl, ← Nat.add_assoc len 1,
        show v + 1 + cs.length = v + (cs.length + 1) by omega]
      congr 1
      funext x
      simp [hv, entryBits]

/-- Where TREE_SER's loop succeeds every leaf's symbol is a 16-bit one and the output is the nodes' bits. -/
theorem serLoop_ok {nd : Nat → Node} {cap v len : Nat} {vs : List Visit} {out : List Bool}
    (h : serLoop nd cap v len vs = .ok out) :
    (∀ x ∈ leafEntries nd vs, x.1.toNat ≤ 0xFFFF) ∧ out = (vs.map (visitEntry nd)).flatMap entryBits := by
  induction vs generalizing v len out with
  | nil => cases h; simp [leafEntries]
  | cons c cs ih =>
    rw [serLoop] at h
    by_cases hk : (nd c.idx).kind = true
    · rw [if_pos hk] at h
      split at h
      · cases h
      · split at h
        · cases h
        · rename_i h1 _
          obtain ⟨a, ha, rfl⟩ := except_map_ok h
          obtain ⟨g1, rfl⟩ := ih ha
          rw [leafEntries_cons_leaf cs hk]
          refine ⟨fun x hx => ?_, by simp [visitEntry, hk, entryBits]⟩
          rcases List.mem_cons.1 hx with rfl | hx
          · simp only [Config.MAX_SYM] at h1; simp only; omega
          · exact g1 x hx
    · rw [if_neg hk] at h
      split at h
      · cases h
      · obtain ⟨a, ha, rfl⟩ := except_map_ok h
        obtain ⟨g1, rfl⟩ := ih ha
        rw [leafEntries_cons_node cs hk]
        exact ⟨g1, by simp [visitEntry, hk, entryBits]⟩

/-- The loop over a tree's walk, where it succeeds (R171). -/
theorem State.HasTree.serLoop_ok {s : State} {c cap : Nat} {t : HTree} {ixs : List Nat} (h : s.HasTree c t ixs)
    {out : List Bool} (hs : serLoop s.nodeAt cap 0 0 (treeVisits s.nodeAt t c []) = .ok out) :
    t.symbolsFit ∧ out = t.stream := by
  obtain ⟨h1, rfl⟩ := Machine.serLoop_ok hs
  rw [h.leafEntries] at h1
  rw [h.shape.map_visitEntry, ← t.stream_eq]
  exact ⟨t.symbolsFit_iff.2 fun p w hp => h1 (w, p) (HTree.mem_preorder.2 hp), rfl⟩

end Sys2Proof.Machine
end

