-- ==== Sys2Proof/Laws/Parse.lean ====
section
/-! SUPPORT. TREE_DESER's parse (spec/44_tree_codec.md R176): on a tree's stream it rebuilds the tree, it succeeds on nothing
else, and where the stream is too short or the tree too big it ends as the rule says. -/

namespace Sys2Proof.Machine

/-! ### The nodes a parse stores -/

/-- NODE with tree `t` stored from entry `n` on, in pre-order. -/
def putTree (node : Ram Node) (n : Nat) : HTree → Ram Node
  | .leaf s => Ram.put node n (leafNode (bits16 s))
  | .node l r =>
    Ram.put (putTree (putTree node (n + 1) l) (n + 1 + l.size) r) n (internalNode (n + 1) (n + 1 + l.size))

theorem get?_putTree_outside (t : HTree) (node : Ram Node) (n k : Nat) (h : k < n ∨ n + t.size ≤ k) :
    Ram.get? (putTree node n t) k = Ram.get? node k := by
  induction t generalizing node n with
  | leaf s => exact Ram.get?_put_ne _ _ (by simp only [HTree.size] at h; omega)
  | node l r ihl ihr =>
    simp only [HTree.size] at h
    rw [putTree, Ram.get?_put_ne _ _ (by omega), ihr _ _ (by omega), ihl _ _ (by omega)]

theorem get?_putTree_inside (t : HTree) (node : Ram Node) (n k : Nat) (h1 : n ≤ k) (h2 : k < n + t.size) :
    ∃ x, Ram.get? (putTree node n t) k = some x ∧ (x.kind = true → x.left = 0 ∧ x.right = 0) ∧
      (x.kind = false → x.sym = 0) ∧ ∀ node', Ram.get? (putTree node' n t) k = some x := by
  induction t generalizing node n with
  | leaf s =>
    simp only [HTree.size] at h2
    obtain rfl : k = n := by omega
    exact ⟨leafNode (bits16 s), Ram.get?_put_self .., by simp [leafNode], by simp [leafNode],
      fun _ => Ram.get?_put_self ..⟩
  | node l r ihl ihr =>
    simp only [HTree.size] at h2
    have hl := l.size_eq
    have hr := r.size_eq
    by_cases hk : k = n
    · subst hk
      exact ⟨_, Ram.get?_put_self .., by simp [internalNode], by simp [internalNode], fun _ => Ram.get?_put_self ..⟩
    · by_cases hkl : k < n + 1 + l.size
      · obtain ⟨x, hx, g1, g2, g3⟩ := ihl node (n + 1) (by omega) hkl
        have e : ∀ nd, Ram.get? (putTree nd n (.node l r)) k = Ram.get? (putTree nd (n + 1) l) k := fun nd => by
          rw [putTree, Ram.get?_put_ne _ _ hk, get?_putTree_outside _ _ _ _ (.inl hkl)]
        exact ⟨x, by rw [e, hx], g1, g2, fun nd => by rw [e, g3]⟩
      · obtain ⟨x, hx, g1, g2, g3⟩ := ihr (putTree node (n + 1) l) (n + 1 + l.size) (by omega) (by omega)
        exact ⟨x, by rw [putTree, Ram.get?_put_ne _ _ hk, hx], g1, g2,
          fun nd => by rw [putTree, Ram.get?_put_ne _ _ hk, g3]⟩

theorem wf_putTree (t : HTree) {node : Ram Node} (h : Ram.wf node) (n : Nat) : Ram.wf (putTree node n t) := by
  induction t generalizing node n with
  | leaf s => exact Ram.wf_put h _ _
  | node l r ihl ihr => exact Ram.wf_put (ihr (ihl h _) _) _ _

theorem mem_putTree (t : HTree) {node : Ram Node} {n : Nat} {x : Nat × Node} (h : x ∈ putTree node n t) :
    (n ≤ x.1 ∧ x.1 < n + t.size) ∨ x ∈ node := by
  induction t generalizing node n with
  | leaf s =>
    rcases Ram.mem_put h with rfl | h
    · simp [HTree.size]
    · exact .inr h
  | node l r ihl ihr =>
    simp only [HTree.size]
    rcases Ram.mem_put h with rfl | h
    · left; constructor <;> simp only <;> omega
    · rcases ihr h with h | h
      · left; omega
      · rcases ihl h with h | h
        · left; omega
        · exact .inr h

theorem leafNode_bits16 {s : Word} (h : s.toNat ≤ 0xFFFF) : (leafNode (bits16 s)).sym = s := by
  simp only [leafNode, bitsToNat_bits16 s h]
  exact BitVec.eq_of_toNat_eq (by simp)

/-- The indices in `List.range'` of a stored tree's nodes. -/
theorem range'_tree (n a b : Nat) :
    List.range' n (1 + a + b) = n :: (List.range' (n + 1) a ++ List.range' (n + 1 + a) b) := by
  rw [show 1 + a + b = (a + b) + 1 by omega, List.range'_succ, List.range'_append_1]

/-- A stored tree stands in NODE, in pre-order (R176: the result satisfies WF). -/
theorem treeAt_putTree (t : HTree) (node : Ram Node) (n : Nat) {nd : Nat → Node} (hf : ∀ p w, t.symAt p = some w →
    w.toNat ≤ 0xFFFF) (hb : n + t.size ≤ 131071)
    (hnd : ∀ k x, n ≤ k → k < n + t.size → Ram.get? (putTree node n t) k = some x → nd k = x) :
    TreeAt nd n t (List.range' n t.size) := by
  induction t generalizing node n with
  | leaf s =>
    have h := hnd n _ (Nat.le_refl _) (by simp [HTree.size]) (Ram.get?_put_self ..)
    have hs : (nd n).sym = s := by rw [h, leafNode_bits16 (hf [] s rfl)]
    have := TreeAt.leaf (nodeAt := nd) n (by rw [h]; rfl)
    rwa [hs] at this
  | node l r ihl ihr =>
    have hl := l.size_eq
    have hr := r.size_eq
    simp only [HTree.size] at hb hnd ⊢
    have h := hnd n _ (Nat.le_refl _) (by omega) (Ram.get?_put_self ..)
    have e1 : (nd n).left.toNat = n + 1 := by
      rw [h]; simp only [internalNode, BitVec.toNat_ofNat]; omega
    have e2 : (nd n).right.toNat = n + 1 + l.size := by
      rw [h]; simp only [internalNode, BitVec.toNat_ofNat]; omega
    rw [range'_tree]
    refine .node n l r _ _ (by rw [h]; rfl) ?_ ?_
    · rw [e1]
      refine ihl node (n + 1) (fun p w hp => hf (false :: p) w (by simpa using hp)) (by omega) fun k x h1 h2 hx =>
        hnd k x (by omega) (by omega) ?_
      rw [putTree, Ram.get?_put_ne _ _ (by omega), get?_putTree_outside _ _ _ _ (.inl h2), hx]
    · rw [e2]
      refine ihr (putTree node (n + 1) l) (n + 1 + l.size) (fun p w hp => hf (true :: p) w (by simpa using hp)) (by omega)
        fun k x h1 h2 hx => hnd k x (by omega) (by omega) ?_
      rw [putTree, Ram.get?_put_ne _ _ (by omega), hx]

/-! ### The parse on a tree's stream -/

/-- The parse after one whole tree. -/
def Parse.after (p : Parse) (t : HTree) (rest : List Bool) : Parse where
  bits := rest
  pos := p.pos + t.stream.length
  n := p.n + t.size
  leaves := p.leaves + t.leaves
  node := putTree p.node p.n t

/-- On a tree's stream the parse reads the tree. -/
theorem parseNode_stream (t : HTree) {total fuel : Nat} {p : Parse} {rest : List Bool}
    (hb : p.bits = t.stream ++ rest) (hfuel : t.stream.length ≤ fuel) (hcap : p.n + t.size ≤ 131071) :
    parseNode total fuel p = .ok (p.n, p.after t rest) := by
  induction t generalizing fuel p rest with
  | leaf s =>
    simp only [HTree.size] at hcap
    obtain ⟨f, rfl⟩ : ∃ f, fuel = f + 1 := ⟨fuel - 1, by simp [HTree.stream] at hfuel; omega⟩
    rw [parseNode]
    simp only [hb, HTree.stream, List.cons_append]
    rw [if_neg (by simp only [Config.NODE_CAP]; omega)]
    simp [Config.SYM_BITS, Parse.after, HTree.stream, HTree.size, HTree.leaves, putTree]
  | node l r ihl ihr =>
    have hl := l.size_eq
    have hr := r.size_eq
    simp only [HTree.size] at hcap
    simp only [HTree.stream, List.length_cons, List.length_append] at hfuel
    obtain ⟨f, rfl⟩ : ∃ f, fuel = f + 1 := ⟨fuel - 1, by omega⟩
    rw [parseNode]
    simp only [hb, HTree.stream, List.cons_append]
    rw [if_neg (by simp only [Config.NODE_CAP]; omega), if_neg (by simp),
      ihl (p := { p with bits := l.stream ++ r.stream ++ rest, pos := p.pos + 1, n := p.n + 1 })
        (rest := r.stream ++ rest) (by simp) (by omega) (by simp only; omega)]
    dsimp only
    rw [ihr (rest := rest) rfl (by omega) (by simp only [Parse.after]; omega)]
    simp only [Parse.after, HTree.stream, HTree.size, HTree.leaves, putTree, List.length_cons, List.length_append]
    rw [show p.pos + 1 + l.stream.length + r.stream.length = p.pos + (l.stream.length + r.stream.length + 1) by omega,
      show p.n + 1 + l.size + r.size = p.n + (1 + l.size + r.size) by omega,
      show p.leaves + l.leaves + r.leaves = p.leaves + (l.leaves + r.leaves) by omega]

/-- Where the parse succeeds it has read a tree. -/
theorem parseNode_ok {total fuel : Nat} {p q : Parse} {i : Nat} (h : parseNode total fuel p = .ok (i, q)) :
    ∃ t : HTree, (∀ x w, t.symAt x = some w → w.toNat ≤ 0xFFFF) ∧ p.bits = t.stream ++ q.bits ∧
      (p.n ≤ 131071 → p.n + t.size ≤ 131071) ∧ i = p.n ∧ q = p.after t q.bits := by
  induction fuel generalizing p q i with
  | zero => cases h
  | succ fuel ih =>
    rw [parseNode] at h
    split at h
    · cases h
    · rename_i tag bits hbits
      split at h
      · cases h
      · rename_i hcap
        simp only [Config.NODE_CAP] at hcap
        split at h
        · rename_i htag
          split at h
          · cases h
          · rename_i hlen
            simp only [Config.SYM_BITS, Nat.not_lt] at hlen
            cases h
            have ht : (bits.take 16).length = 16 := by simp [hlen]
            have hlt := bitsToNat_lt (bits.take 16)
            rw [ht] at hlt
            let s : Word := BitVec.ofNat 32 (bitsToNat (bits.take 16))
            have hs : s.toNat = bitsToNat (bits.take 16) := by
              simp only [s, BitVec.toNat_ofNat]; omega
            have hbs : bits16 s = bits.take 16 := by
              rw [bits16, hs]
              have := natBits_bitsToNat (bits.take 16)
              rwa [ht] at this
            refine ⟨.leaf s, ?_, ?_, fun _ => by simp only [HTree.size]; omega, rfl, ?_⟩
            · intro x w hw
              cases x with
              | nil => simp only [HTree.symAt_leaf_nil, Option.some.injEq] at hw; subst hw; omega
              | cons b x => simp at hw
            · simp [hbits, htag, HTree.stream, hbs, Config.SYM_BITS]
            · simp only [Parse.after, HTree.stream, HTree.size, HTree.leaves, putTree, hbs, Config.SYM_BITS,
                List.length_cons, ht]
        · rename_i htag
          simp only [Bool.not_eq_true] at htag
          split at h
          · cases h
          · rename_i li ql hl
            split at h
            · cases h
            · rename_i ri qr hr
              cases h
              obtain ⟨tl, fl, bl, cl, rfl, el⟩ := ih hl
              obtain ⟨tr, fr, br, cr, rfl, er⟩ := ih hr
              simp only at bl cl el
              have hn : ql.n = p.n + 1 + tl.size := by rw [el]; rfl
              refine ⟨.node tl tr, ?_, ?_, ?_, rfl, ?_⟩
              · intro x w hw
                cases x with
                | nil => simp at hw
                | cons b x =>
                  cases b
                  · exact fl x w (by simpa using hw)
                  · exact fr x w (by simpa using hw)
              · simp [hbits, htag, HTree.stream, bl, br]
              · intro hp
                have := cl (by omega)
                have := cr (by omega)
                simp only [HTree.size]
                omega
              · have e1 : qr.pos = p.pos + (1 + (tl.stream.length + tr.stream.length)) := by
                  rw [er, Parse.after, el, Parse.after]; simp only; omega
                have e2 : qr.n = p.n + (1 + tl.size + tr.size) := by
                  rw [er, Parse.after, el, Parse.after]; simp only; omega
                have e3 : qr.leaves = p.leaves + (tl.leaves + tr.leaves) := by
                  rw [er, Parse.after, el, Parse.after]; simp only; omega
                have e4 : qr.node = putTree (putTree p.node (p.n + 1) tl) (p.n + 1 + tl.size) tr := by
                  rw [er, Parse.after, hn, el, Parse.after]
                simp only [Parse.after, HTree.stream, HTree.size, HTree.leaves, putTree, List.length_cons,
                  List.length_append, e1, e2, e3, e4, hn]
                congr 1; omega

/-! ### Streams that are no tree's -/

theorem streamBits_take_lt {es : List (Option (Word × List Bool))} {n : Nat} (h : n < es.length) :
    streamBits (es.take n) < streamBits es := by
  conv => rhs; rw [← List.take_append_drop n es, streamBits_append]
  rw [List.drop_eq_getElem_cons h, streamBits_cons]
  have := streamBits_pos es[n]
  omega

/-- A stream that ends before its tree is complete: CorruptTree at the end, the nodes whose tags were read allocated. -/
theorem parseNode_short (t : HTree) {total fuel n : Nat} {p : Parse} {rest : List Bool} (x : List Bool)
    (hb : p.bits ++ rest = t.stream) (hr : rest ≠ []) (hfuel : p.bits.length ≤ fuel) (hcap : p.n + n ≤ 131071)
    (hn : p.bits.length ≤ streamBits ((t.entries x).take n)) :
    ∃ a, a ≤ n ∧ parseNode total fuel p = .error ⟨⟨.corruptTree, total⟩, p.n + a⟩ := by
  have h0 : ∀ {p : Parse} {fuel : Nat}, p.bits = [] → parseNode total fuel p = .error ⟨⟨.corruptTree, total⟩, p.n⟩ := by
    intro p fuel h
    cases fuel with
    | zero => rfl
    | succ f => rw [parseNode]; simp only [h]
  induction t generalizing fuel n p rest x with
  | leaf s =>
    cases hp : p.bits with
    | nil => exact ⟨0, Nat.zero_le _, h0 hp⟩
    | cons tag bits =>
      rw [hp, List.length_cons] at hfuel hn
      obtain ⟨f, rfl⟩ : ∃ f, fuel = f + 1 := ⟨fuel - 1, by omega⟩
      obtain ⟨m, rfl⟩ : ∃ m, n = m + 1 := by
        cases n with
        | zero => simp [streamBits] at hn
        | succ m => exact ⟨m, rfl⟩
      rw [hp, HTree.stream, List.cons_append, List.cons.injEq] at hb
      obtain ⟨rfl, hb⟩ := hb
      have hl : bits.length < 16 := by
        have := congrArg List.length hb
        have hpos := List.length_pos_iff.2 hr
        simp only [List.length_append, length_bits16] at this
        omega
      refine ⟨1, by omega, ?_⟩
      rw [parseNode]
      simp only [hp]
      rw [if_neg (by simp only [Config.NODE_CAP]; omega), if_pos trivial, if_pos (by simpa [Config.SYM_BITS] using hl)]
  | node l r ihl ihr =>
    cases hp : p.bits with
    | nil => exact ⟨0, Nat.zero_le _, h0 hp⟩
    | cons tag bits =>
      rw [hp, List.length_cons] at hfuel hn
      obtain ⟨f, rfl⟩ : ∃ f, fuel = f + 1 := ⟨fuel - 1, by omega⟩
      obtain ⟨m, rfl⟩ : ∃ m, n = m + 1 := by
        cases n with
        | zero => simp [streamBits] at hn
        | succ m => exact ⟨m, rfl⟩
      rw [hp, HTree.stream, List.cons_append, List.cons.injEq] at hb
      obtain ⟨rfl, hb⟩ := hb
      rw [HTree.entries, List.take_succ_cons, streamBits_cons, List.take_append, streamBits_append,
        HTree.length_entries, show streamBits [none] = 1 from rfl] at hn
      rw [parseNode]
      simp only [hp]
      rw [if_neg (by simp only [Config.NODE_CAP]; omega), if_neg (by simp)]
      rcases List.append_eq_append_iff.1 hb with ⟨y, hy1, hy2⟩ | ⟨y, hy1, hy2⟩
      · -- the bits end inside the left subtree, or with it
        by_cases hy : y = []
        · subst hy
          simp only [List.append_nil, List.nil_append] at hy1 hy2
          have hlen : l.stream.length = streamBits (l.entries (x ++ [false])) := by
            rw [l.stream_eq (x ++ [false]), length_flatMap_entryBits]
          have hm : l.size ≤ m := by
            by_contra hc
            have h1 := streamBits_take_lt (es := l.entries (x ++ [false])) (n := m)
              (by rw [HTree.length_entries]; omega)
            rw [show m - l.size = 0 by omega, List.take_zero] at hn
            rw [← hlen, hy1] at h1
            simp only [streamBits, List.map_nil, List.sum_nil] at hn h1
            omega
          rw [parseNode_stream l (p := { p with bits := bits, pos := p.pos + 1, n := p.n + 1 }) (rest := [])
            (by simp [hy1]) (by rw [hy1]; omega) (by simp only; omega)]
          dsimp only
          rw [h0 (by rfl)]
          refine ⟨1 + l.size, by omega, ?_⟩
          simp only [Parse.after]
          congr 2; omega
        · obtain ⟨a, ha, he⟩ := ihl (fuel := f) (n := m) (rest := y)
            (p := { p with bits := bits, pos := p.pos + 1, n := p.n + 1 }) (x ++ [false]) (by simp [hy1]) hy
            (by simp only; omega) (by simp only; omega) (by
              simp only
              by_cases hm : m ≤ l.size
              · rw [show m - l.size = 0 by omega, List.take_zero] at hn
                simp only [streamBits, List.map_nil, List.sum_nil] at hn ⊢
                omega
              · rw [List.take_of_length_le (by rw [HTree.length_entries]; omega)]
                have hlen : l.stream.length = streamBits (l.entries (x ++ [false])) := by
                  rw [l.stream_eq (x ++ [false]), length_flatMap_entryBits]
                rw [← hlen, hy1, List.length_append]; omega)
          rw [he]
          refine ⟨a + 1, by omega, ?_⟩
          simp only
          congr 2; omega
      · -- the left subtree is whole
        subst hy1
        have hlen : l.stream.length = streamBits (l.entries (x ++ [false])) := by
          rw [l.stream_eq (x ++ [false]), length_flatMap_entryBits]
        rw [List.length_append] at hn hfuel
        have hm : l.size ≤ m := by
          by_contra hc
          have h1 := streamBits_take_lt (es := l.entries (x ++ [false])) (n := m)
            (by rw [HTree.length_entries]; omega)
          rw [show m - l.size = 0 by omega, List.take_zero] at hn
          rw [← hlen] at h1
          simp only [streamBits, List.map_nil, List.sum_nil] at hn h1
          omega
        rw [parseNode_stream l (p := { p with bits := l.stream ++ y, pos := p.pos + 1, n := p.n + 1 }) (rest := y) rfl
          (by omega) (by simp only; omega)]
        dsimp only
        obtain ⟨a, ha, he⟩ := ihr (fuel := f) (n := m - l.size) (rest := rest)
          (p := Parse.after { p with bits := l.stream ++ y, pos := p.pos + 1, n := p.n + 1 } l y) (x ++ [true])
          hy2.symm hr (by simp only [Parse.after]; omega) (by simp only [Parse.after]; omega) (by
            rw [List.take_of_length_le (by rw [HTree.length_entries]; omega), ← hlen] at hn
            simp only [Parse.after]; omega)
        rw [he]
        refine ⟨1 + l.size + a, by omega, ?_⟩
        simp only [Parse.after]
        congr 2; omega

/-- A tree too big for NODE: CapacityExceeded at the tag of the first node that has no entry left. -/
theorem parseNode_full (t : HTree) {total fuel n : Nat} {p : Parse} {rest : List Bool} (x : List Bool)
    (hb : ∃ more, p.bits ++ rest = t.stream ++ more) (hfuel : p.bits.length ≤ fuel) (hcap : p.n + n = 131071)
    (hn : n < t.size) (hpos : streamBits ((t.entries x).take n) < p.bits.length) :
    parseNode total fuel p =
      .error ⟨⟨.capacityExceeded, p.pos + streamBits ((t.entries x).take n)⟩, 131071⟩ := by
  have h0 : ∀ {p : Parse} {fuel : Nat}, 1 ≤ p.bits.length → p.bits.length ≤ fuel → p.n = 131071 →
      parseNode total fuel p = .error ⟨⟨.capacityExceeded, p.pos⟩, 131071⟩ := by
    intro p fuel h hf hn
    obtain ⟨f, rfl⟩ : ∃ f, fuel = f + 1 := ⟨fuel - 1, by omega⟩
    obtain ⟨b, bs, hp⟩ : ∃ b bs, p.bits = b :: bs := by
      cases hp : p.bits with
      | nil => rw [hp] at h; simp at h
      | cons b bs => exact ⟨b, bs, rfl⟩
    rw [parseNode]
    simp only [hp]
    rw [if_pos (by simpa [Config.NODE_CAP] using hn), hn]
  induction t generalizing fuel n p rest x with
  | leaf s =>
    simp only [HTree.size] at hn
    obtain rfl : n = 0 := by omega
    rw [List.take_zero]
    exact h0 (by omega) hfuel (by omega)
  | node l r ihl ihr =>
    cases n with
    | zero => rw [List.take_zero]; exact h0 (by omega) hfuel (by omega)
    | succ m =>
      obtain ⟨more, hb⟩ := hb
      simp only [HTree.size] at hn
      rw [HTree.entries, List.take_succ_cons, streamBits_cons, List.take_append, streamBits_append,
        HTree.length_entries, show streamBits [none] = 1 from rfl] at hpos ⊢
      obtain ⟨b, bits, hp⟩ : ∃ b bs, p.bits = b :: bs := by
        cases hp : p.bits with
        | nil => rw [hp] at hpos; simp at hpos
        | cons b bs => exact ⟨b, bs, rfl⟩
      rw [hp, List.length_cons] at hfuel hpos
      obtain ⟨f, rfl⟩ : ∃ f, fuel = f + 1 := ⟨fuel - 1, by omega⟩
      rw [hp, HTree.stream, List.cons_append, List.cons_append, List.cons.injEq, List.append_assoc] at hb
      obtain ⟨rfl, hb⟩ := hb
      have hlen : l.stream.length = streamBits (l.entries (x ++ [false])) := by
        rw [l.stream_eq (x ++ [false]), length_flatMap_entryBits]
      rw [parseNode]
      simp only [hp]
      rw [if_neg (by simp only [Config.NODE_CAP]; omega), if_neg (by simp)]
      by_cases hm : m < l.size
      · rw [show m - l.size = 0 by omega, List.take_zero, show streamBits [] = 0 from rfl] at hpos ⊢
        rw [ihl (fuel := f) (n := m) (rest := rest)
          (p := { p with bits := bits, pos := p.pos + 1, n := p.n + 1 }) (x ++ [false]) ⟨_, hb⟩
          (by simp only; omega) (by simp only; omega) hm (by simp only; omega)]
        simp only
        congr 3; omega
      · rw [List.take_of_length_le (l := l.entries (x ++ [false])) (by rw [HTree.length_entries]; omega), ← hlen]
          at hpos ⊢
        obtain ⟨y, rfl⟩ : ∃ y, bits = l.stream ++ y := by
          rcases List.append_eq_append_iff.1 hb with ⟨y, hy1, -⟩ | ⟨y, hy1, -⟩
          · have := congrArg List.length hy1
            rw [List.length_append] at this
            omega
          · exact ⟨y, hy1⟩
        rw [List.append_assoc, List.append_cancel_left_eq] at hb
        rw [List.length_append] at hpos hfuel
        rw [parseNode_stream l (p := { p with bits := l.stream ++ y, pos := p.pos + 1, n := p.n + 1 }) (rest := y) rfl
          (by omega) (by simp only; omega)]
        dsimp only
        rw [ihr (fuel := f) (n := m - l.size) (rest := rest)
          (p := Parse.after { p with bits := l.stream ++ y, pos := p.pos + 1, n := p.n + 1 } l y) (x ++ [true]) ⟨_, hb⟩
          (by simp only [Parse.after]; omega) (by simp only [Parse.after]; omega) (by omega)
          (by simp only [Parse.after]; omega)]
        simp only [Parse.after]
        congr 3; omega

/-! ### Any parse -/

/-- The parse reads nothing of NODE: from another NODE it ends with the same error or reads the same tree. -/
theorem parseNode_congr (total fuel : Nat) (p : Parse) (node : Ram Node) (hf : p.bits.length ≤ fuel)
    (hn : p.n ≤ 131071) :
    (∃ e, parseNode total fuel p = .error e ∧ parseNode total fuel { p with node := node } = .error e) ∨
    (∃ i t rest, p.bits = t.stream ++ rest ∧ p.n + t.size ≤ 131071 ∧ parseNode total fuel p = .ok (i, p.after t rest) ∧
      parseNode total fuel { p with node := node } = .ok (i, Parse.after { p with node := node } t rest)) := by
  induction fuel generalizing p node with
  | zero => exact .inl ⟨_, rfl, rfl⟩
  | succ fuel ih =>
    cases hp : parseNode total (fuel + 1) p with
    | ok x =>
      right
      obtain ⟨i, q⟩ := x
      obtain ⟨t, -, hb, hc, rfl, hq⟩ := parseNode_ok hp
      have hl : t.stream.length ≤ fuel + 1 := by rw [hb, List.length_append] at hf; omega
      exact ⟨p.n, t, q.bits, hb, hc hn, by rw [← hq],
        parseNode_stream t (p := { p with node := node }) hb hl (hc hn)⟩
    | error e =>
      left
      refine ⟨e, rfl, ?_⟩
      rw [parseNode] at hp ⊢
      simp only at hp ⊢
      split at hp
      · cases hp; rfl
      · rename_i tag bits h
        rw [h, List.length_cons] at hf
        split at hp
        · rename_i h1; cases hp; rw [if_pos h1]
        · rename_i h1
          rw [if_neg h1]
          simp only [Config.NODE_CAP] at h1
          split at hp
          · rename_i h2
            rw [if_pos h2]
            split at hp
            · rename_i h3; cases hp; rw [if_pos h3]
            · cases hp
          · rename_i h2
            rw [if_neg h2]
            rcases ih { p with bits := bits, pos := p.pos + 1, n := p.n + 1 } node (by simp only; omega)
              (by simp only; omega) with ⟨e', h3, h4⟩ | ⟨i, t, rest, hb, hc, h3, h4⟩
            · rw [h3] at hp; cases hp; simp only at h4; rw [h4]
            · simp only at h3 h4 hb hc
              rw [h3] at hp
              rw [h4]
              dsimp only at hp ⊢
              have hl := congrArg List.length hb
              rw [List.length_append] at hl
              rcases ih (Parse.after { p with bits := bits, pos := p.pos + 1, n := p.n + 1 } t rest)
                (putTree node (p.n + 1) t) (by simp only [Parse.after]; omega) (by simp only [Parse.after]; omega) with
                ⟨e', h5, h6⟩ | ⟨i', t', rest', -, -, h5, h6⟩
              · rw [h5] at hp; cases hp
                simp only [Parse.after] at h6 ⊢
                rw [h6]
              · rw [h5] at hp; cases hp

/-! ### The whole parse -/

/-- The parse of the bits of a whole tree. -/
theorem parseTree_stream {t : HTree} (node : Ram Node) (hsize : t.size ≤ 131071) :
    parseTree t.stream node = .ok
      { bits := [], pos := t.stream.length, n := t.size, leaves := t.leaves, node := putTree node 0 t } := by
  rw [parseTree, parseNode_stream t (rest := []) (by simp) (Nat.le_refl _) (by simp only; omega)]
  simp [Parse.after]

/-- Where the parse succeeds the bits are a tree's stream. -/
theorem parseTree_ok {bits : List Bool} {node : Ram Node} {q : Parse} (h : parseTree bits node = .ok q) :
    ∃ t : HTree, t.symbolsFit ∧ t.size ≤ 131071 ∧ bits = t.stream ∧ q.n = t.size ∧ q.leaves = t.leaves ∧
      q.node = putTree node 0 t := by
  unfold parseTree at h
  split at h
  · cases h
  · rename_i i r hr
    obtain ⟨t, hf, hb, hc, -, he⟩ := parseNode_ok hr
    split at h
    · cases h
    · rename_i hpos
      cases h
      have h1 : q.pos = t.stream.length := by rw [he]; simp [Parse.after]
      have h2 := congrArg List.length hb
      rw [List.length_append] at h2
      have h3 : q.bits = [] := List.length_eq_zero_iff.1 (by simp only at h2; omega)
      refine ⟨t, t.symbolsFit_iff.2 hf, by simpa using hc (by simp), by simpa [h3] using hb, ?_, ?_, ?_⟩
      all_goals rw [he]; simp [Parse.after]

/-- The nodes a failing parse has allocated. -/
theorem parseNode_error_n {total fuel : Nat} {p : Parse} {e : ParseError} (h : parseNode total fuel p = .error e)
    (hn : p.n ≤ 131071) : e.n ≤ 131071 := by
  induction fuel generalizing p e with
  | zero => cases h; exact hn
  | succ fuel ih =>
    rw [parseNode] at h
    split at h
    · cases h; exact hn
    · split at h
      · cases h; exact hn
      · rename_i h1
        simp only [Config.NODE_CAP] at h1
        split at h
        · split at h
          · cases h; simp only; omega
          · cases h
        · split at h
          · rename_i e' he; cases h; exact ih he (by simp only; omega)
          · rename_i i q hq
            split at h
            · rename_i e' he
              cases h
              obtain ⟨t, -, -, hc, -, hq'⟩ := parseNode_ok hq
              refine ih he ?_
              rw [hq']
              simp only [Parse.after]
              simp only at hc
              exact hc (by omega)
            · cases h

theorem parseTree_error_n {bits : List Bool} {node : Ram Node} {e : ParseError} (h : parseTree bits node = .error e) :
    e.n ≤ 131071 := by
  unfold parseTree at h
  split at h
  · rename_i e' he; cases h; exact parseNode_error_n he (by simp)
  · rename_i i q hq
    split at h
    · cases h
      obtain ⟨t, -, -, hc, -, hq'⟩ := parseNode_ok hq
      have := hc (by simp)
      rw [hq']
      simpa [Parse.after] using this
    · cases h

/-- Bits left over after a whole tree: CorruptTree at the first of them. -/
theorem parseTree_leftover {t : HTree} {rest : List Bool} (node : Ram Node) (hr : rest ≠ []) (hsize : t.size ≤ 131071) :
    parseTree (t.stream ++ rest) node = .error ⟨⟨.corruptTree, t.stream.length⟩, t.size⟩ := by
  have := List.length_pos_iff.2 hr
  rw [parseTree, parseNode_stream t (rest := rest) rfl (by simp) (by simp only; omega)]
  simp only [Parse.after, Nat.zero_add, List.length_append]
  rw [if_pos (by omega)]

/-- A stream that ends too early: CorruptTree at its end. -/
theorem parseTree_short {t : HTree} {bits rest : List Bool} {n : Nat} (node : Ram Node) (hb : bits ++ rest = t.stream)
    (hr : rest ≠ []) (hn : n ≤ 131071) (hlen : bits.length ≤ streamBits (t.preorder.take n)) :
    ∃ a, a ≤ n ∧ parseTree bits node = .error ⟨⟨.corruptTree, bits.length⟩, a⟩ := by
  obtain ⟨a, ha, he⟩ := parseNode_short t (total := bits.length) (fuel := bits.length) (n := n)
    (p := { bits := bits, pos := 0, n := 0, leaves := 0, node := node }) [] hb hr (Nat.le_refl _) (by simpa using hn) hlen
  exact ⟨a, ha, by rw [parseTree, he, Nat.zero_add]⟩

/-- A tree too big for NODE: CapacityExceeded at the tag of its node NODE_CAP. -/
theorem parseTree_full {t : HTree} {bits rest more : List Bool} (node : Ram Node)
    (hb : bits ++ rest = t.stream ++ more) (hsize : 131071 < t.size) (hpos : streamBits (t.preorder.take 131071) < bits.length) :
    parseTree bits node = .error ⟨⟨.capacityExceeded, streamBits (t.preorder.take 131071)⟩, 131071⟩ := by
  rw [parseTree, parseNode_full t (total := bits.length) (fuel := bits.length) (n := 131071) (rest := rest)
    (p := { bits := bits, pos := 0, n := 0, leaves := 0, node := node }) [] ⟨more, hb⟩ (Nat.le_refl _)
    (by simp) hsize hpos]
  simp [HTree.preorder]

/-- The whole parse reads nothing of NODE. -/
theorem parseTree_congr (bits : List Bool) (m m' : Ram Node) :
    (∃ e, parseTree bits m = .error e ∧ parseTree bits m' = .error e) ∨
    (∃ t : HTree, parseTree bits m = .ok ⟨[], t.stream.length, t.size, t.leaves, putTree m 0 t⟩ ∧
      parseTree bits m' = .ok ⟨[], t.stream.length, t.size, t.leaves, putTree m' 0 t⟩) := by
  unfold parseTree
  rcases parseNode_congr bits.length bits.length { bits := bits, pos := 0, n := 0, leaves := 0, node := m } m'
    (Nat.le_refl _) (by simp) with ⟨e, h1, h2⟩ | ⟨i, t, rest, hb, -, h1, h2⟩
  · simp only at h2; rw [h1, h2]; exact .inl ⟨e, rfl, rfl⟩
  · simp only at h2 hb
    rw [h1, h2]
    simp only [Parse.after, Nat.zero_add]
    have h := congrArg List.length hb
    rw [List.length_append] at h
    split
    · exact .inl ⟨_, rfl, rfl⟩
    · have : rest = [] := List.length_eq_zero_iff.1 (by omega)
      subst this
      exact .inr ⟨t, rfl, rfl⟩

end Sys2Proof.Machine
end

