-- ==== Sys2Proof/Laws/Bounds.lean ====
section
/-! SUPPORT. How large the position of an error and the number of results can be (spec/10_state.md R33): every loop reports
an index of its own input, and the walk of R122 visits at most NODE_CAP nodes. -/

namespace Sys2Proof.Machine

theorem genLoop_pos {nd : Nat → Node} {v made : Nat} {code : Ram Code} {vs : List Visit} {e : CmdError}
    (h : genLoop nd v made code vs = .error e) : e.pos < v + vs.length := by
  induction vs generalizing v made code with
  | nil => cases h
  | cons c cs ih =>
    unfold genLoop at h
    simp only [List.length_cons]
    repeat' split at h
    all_goals first | (have := ih h; omega) | (cases h; dsimp only; omega)

theorem genLoop_made {nd : Nat → Node} {v made m : Nat} {code c : Ram Code} {vs : List Visit}
    (h : genLoop nd v made code vs = .ok (c, m)) : m ≤ made + vs.length := by
  induction vs generalizing v made code with
  | nil => cases h; exact Nat.le_refl _
  | cons x cs ih =>
    unfold genLoop at h
    simp only [List.length_cons]
    repeat' split at h
    all_goals first | (have := ih h; omega) | cases h

theorem encodeLoop_pos {ca : Nat → Option Code} {cap j len : Nat} {ws : List Word} {e : CmdError}
    (h : encodeLoop ca cap j len ws = .error e) : e.pos < j + ws.length := by
  induction ws generalizing j len with
  | nil => cases h
  | cons w ws ih =>
    unfold encodeLoop at h
    simp only [List.length_cons]
    repeat' split at h
    all_goals first | (have := ih (except_map_error h); omega) | (cases h; dsimp only; omega)

theorem serLoop_pos {nd : Nat → Node} {cap v len : Nat} {vs : List Visit} {e : CmdError}
    (h : serLoop nd cap v len vs = .error e) : e.pos < v + vs.length := by
  induction vs generalizing v len with
  | nil => cases h
  | cons c cs ih =>
    unfold serLoop at h
    simp only [List.length_cons]
    repeat' split at h
    all_goals first | (have := ih (except_map_error h); omega) | (cases h; dsimp only; omega)

theorem decodeLeafLoop_pos {w : Word} {cap i m n : Nat} {e : CmdError}
    (h : decodeLeafLoop w cap i m n = .error e) : e.pos < i + n := by
  induction n generalizing i m with
  | zero => cases h
  | succ n ih =>
    unfold decodeLeafLoop at h
    split at h
    · cases h; dsimp only; omega
    · have := ih (except_map_error h); omega

theorem decodeLoop_pos {nd : Nat → Node} {root cap i m cur : Nat} {bs : List Bool} {e : CmdError}
    (h : decodeLoop nd root cap i m cur bs = .error e) : e.pos ≤ i + bs.length := by
  induction bs generalizing i m cur with
  | nil =>
    unfold decodeLoop at h
    split at h <;> cases h
    exact Nat.le_refl _
  | cons b bs ih =>
    unfold decodeLoop at h
    dsimp only at h
    simp only [List.length_cons]
    repeat' split at h
    all_goals first | (have := ih h; omega) | (have := ih (except_map_error h); omega) | (cases h; dsimp only; omega)

theorem decodeSymbols_pos {s : State} {o : Operands} {e : CmdError} (h : s.decodeSymbols o = .error e) :
    e.pos ≤ o.srcLen.toNat := by
  unfold State.decodeSymbols at h
  split at h
  · exact Nat.le_of_lt (by simpa using decodeLeafLoop_pos h)
  · simpa using decodeLoop_pos h

theorem parseNode_pos {total fuel : Nat} {p : Parse} {e : ParseError} (h : parseNode total fuel p = .error e)
    (hp : p.pos + p.bits.length ≤ total) : e.err.pos ≤ total := by
  induction fuel generalizing p e with
  | zero => cases h; exact Nat.le_refl _
  | succ fuel ih =>
    unfold parseNode at h
    split at h
    · cases h; exact Nat.le_refl _
    · rename_i tag bits hb
      rw [hb, List.length_cons] at hp
      split at h
      · cases h; dsimp only; omega
      · split at h
        · split at h <;> cases h
          exact Nat.le_refl _
        · split at h
          · rename_i e' he; cases h; exact ih he (by dsimp only; omega)
          · rename_i l q hq
            obtain ⟨t, -, hbits, -, -, he⟩ := parseNode_ok hq
            split at h
            · rename_i e' he'
              cases h
              refine ih he' ?_
              rw [he]
              dsimp only at hbits
              simp only [Parse.after]
              have := congrArg List.length hbits
              rw [List.length_append] at this
              omega
            · cases h

theorem parseTree_pos {bits : List Bool} {node : Ram Node} {e : ParseError} (h : parseTree bits node = .error e) :
    e.err.pos ≤ bits.length := by
  unfold parseTree at h
  split at h
  · rename_i e' he; cases h; exact parseNode_pos he (by simp)
  · split at h
    · cases h; dsimp only; omega
    · cases h

theorem walk_error_le {nd : Nat → Node} {fuel v : Nat} {stack : List Visit} {seen : List Nat}
    (h : walk nd fuel stack seen = .error v) : v ≤ seen.length + fuel := by
  induction fuel generalizing stack seen with
  | zero =>
    cases stack with
    | nil => cases h
    | cons c st => cases h; exact Nat.le_refl _
  | succ fuel ih =>
    cases stack with
    | nil => cases h
    | cons c st =>
      unfold walk at h
      repeat' split at h
      · cases h; omega
      all_goals (have := ih (except_map_error h); simp only [List.length_cons] at this; omega)

theorem walk_length_le {nd : Nat → Node} {fuel : Nat} {stack : List Visit} {seen : List Nat} {vs : List Visit}
    (h : walk nd fuel stack seen = .ok vs) : vs.length ≤ fuel := by
  induction fuel generalizing stack seen vs with
  | zero =>
    cases stack with
    | nil => cases h; exact Nat.le_refl _
    | cons c st => cases h
  | succ fuel ih =>
    cases stack with
    | nil => cases h; exact Nat.zero_le _
    | cons c st =>
      unfold walk at h
      repeat' split at h
      · cases h
      all_goals
        obtain ⟨ws, hw, rfl⟩ := except_map_ok h
        have := ih hw
        simp only [List.length_cons]; omega

theorem walkFrom_error_le {s : State} {c v : Nat} (h : s.walkFrom c = .error v) : v ≤ 131071 := by
  simpa [Config.NODE_CAP] using walk_error_le h

theorem walkFrom_length_le {s : State} {c : Nat} {vs : List Visit} (h : s.walkFrom c = .ok vs) : vs.length ≤ 131071 :=
  walk_length_le h

end Sys2Proof.Machine
end

