-- ==== Sys2Proof/Laws/Host.lean ====
section
/-! SUPPORT. What a step does at a host access: the access is routed to its place and performed or dropped
(spec/10_state.md R21, R34, R35; spec/20_memory.md R61, R66, R70). -/

namespace Sys2Proof.Machine

theorem params_wf_iff (p : Config.Params) :
    p.wf = true ↔ p.bufBytes % 4 = 0 ∧ 4 ≤ p.bufBytes ∧ p.bufBytes ≤ 2 ^ 24 ∧ 0x10000 + p.bufBytes ≤ p.windowBytes := by
  simp only [Config.Params.wf, Config.Params.bufMultiple, Config.Params.bufBounds, Config.Params.windowHolds,
    Config.BUF_BASE, Bool.and_eq_true, beq_iff_eq, decide_eq_true_eq]
  tauto

/-- No register stands above 0x050 (R21). -/
theorem regAt_eq_none {off : Nat} (h : 0x050 < off) : regAt off = none := by
  unfold regAt
  split <;> first | rfl | omega

theorem placeAt_buf {n off : Nat} (h1 : 0x10000 ≤ off) (h2 : off - 0x10000 + 4 ≤ n) :
    placeAt n off = .buf (off - 0x10000) := by
  rw [placeAt, regAt_eq_none (by omega)]
  exact if_pos ⟨h1, h2⟩

theorem placeAt_reserved {n off : Nat} (h1 : 0x050 < off) (h2 : off < 0x10000 ∨ n < off - 0x10000 + 4) :
    placeAt n off = .reserved := by
  rw [placeAt, regAt_eq_none h1]
  exact if_neg (by simp only [Config.BUF_BASE]; omega)

/-- A host access that the block defines is performed or dropped at its place. -/
theorem hostAccess_of_wf {s : State} {a : Access} {off : Nat} (hr : s.resetIn = false)
    (ha : a.addr = s.params.hbcBase + off) (ho : off < s.params.windowBytes) (hw : a.width = 32) (hl : a.lanes = 0xF#4)
    (h4 : off % 4 = 0) : hostAccess a s = .next (s.accessPlace (placeAt s.params.bufBytes off) a.dir) := by
  have hin : inWindow s.params a.addr = true := by simp [inWindow, ha, ho]
  have hoff : a.addr - s.params.hbcBase = off := by omega
  have hwf : a.wf off = true := by simp [Access.wf, Access.fullWidth, Access.allLanes, alignedOffset, hw, hl, h4]
  simp [hostAccess, hin, hr, hoff, hwf]

/-- What a host access can do when it answers a next state: it is not this block's, or it is performed or dropped. -/
theorem hostAccess_next {s t : State} {a : Access} (h : hostAccess a s = .next t) :
    (inWindow s.params a.addr = false ∧ t = s) ∨
    (inWindow s.params a.addr = true ∧ s.resetIn = false ∧ a.wf (a.addr - s.params.hbcBase) = true ∧
      t = s.accessPlace (placeAt s.params.bufBytes (a.addr - s.params.hbcBase)) a.dir) := by
  unfold hostAccess at h
  split at h
  · rename_i hw; cases h; exact .inl ⟨by simpa using hw, rfl⟩
  · rename_i hw
    split at h
    · cases h
    · rename_i hr
      split at h
      · rename_i hwf; cases h; exact .inr ⟨by simpa using hw, by simpa using hr, hwf, rfl⟩
      · cases h

theorem hostAccess_not_fault (a : Access) (s : State) (f : Fault) : hostAccess a s ≠ .fault f := by
  intro h
  unfold hostAccess at h
  split at h
  · cases h
  · split at h
    · cases h
    · split at h <;> cases h

/-- A step at a host write, and at a host read, of an aligned offset of the window. -/
theorem step_writeAt {s : State} {off : Nat} {v : Word} {es : List Event} (hr : s.resetIn = false)
    (he : s.events = writeAt s.params off v :: es) (ho : off < s.params.windowBytes) (h4 : off % 4 = 0) :
    step s = .next (State.accessPlace { s with events := es } (placeAt s.params.bufBytes off) (.write v)) := by
  simp only [step, he, writeAt, applyEvent]
  exact hostAccess_of_wf (s := { s with events := es }) hr rfl ho rfl rfl h4

theorem step_readAt {s : State} {off : Nat} {es : List Event} (hr : s.resetIn = false)
    (he : s.events = readAt s.params off :: es) (ho : off < s.params.windowBytes) (h4 : off % 4 = 0) :
    step s = .next (State.accessPlace { s with events := es } (placeAt s.params.bufBytes off) .read) := by
  simp only [step, he, readAt, applyEvent]
  exact hostAccess_of_wf (s := { s with events := es }) hr rfl ho rfl rfl h4

/-- While BUSY = 0 nothing is dropped (R35). -/
theorem dropsAccess_idle {s : State} (h : s.seq = none) (p : Place) : s.dropsAccess p = false := by
  simp [State.dropsAccess, State.busy, h]

theorem dropsAccess_busy {s : State} (h : s.seq ≠ none) (p : Place) : s.dropsAccess p = !p.openWhileBusy := by
  cases hs : s.seq with
  | none => exact absurd hs h
  | some r => simp [State.dropsAccess, State.busy, hs]

theorem accessPlace_write_idle {s : State} (h : s.seq = none) (p : Place) (v : Word) :
    s.accessPlace p (.write v) = s.writePlace v p := by
  simp [State.accessPlace, dropsAccess_idle h]

theorem accessPlace_read_idle {s : State} (h : s.seq = none) (p : Place) :
    s.accessPlace p .read = { s with readData := some (s.readPlace p) } := by
  simp [State.accessPlace, dropsAccess_idle h]

theorem accessPlace_open {s : State} {p : Place} (h : p.openWhileBusy = true) (d : Dir) :
    s.accessPlace p d = match d with
      | .read => { s with readData := some (s.readPlace p) }
      | .write v => s.writePlace v p := by
  cases d <;> simp [State.accessPlace, State.dropsAccess, h]

theorem accessPlace_dropped {s : State} {p : Place} (hs : s.seq ≠ none) (h : p.openWhileBusy = false) (d : Dir) :
    s.accessPlace p d = match d with
      | .read => { s with drop := true, readData := some 0 }
      | .write _ => { s with drop := true } := by
  cases d <;> simp [State.accessPlace, dropsAccess_busy hs, h]

/-- What a defined access at a place can do: a read, or a dropped write, leaves all but the bus's data and DROP; a write of
CTRL or STATUS is performed at any time; while the sequencer is idle an offer is accepted, ROOT or a word of BUF written, or
an operand or window register stored; a write to a read-only register or a reserved offset does nothing. -/
theorem accessPlace_cases (s : State) (p : Place) (d : Dir) :
    (∃ x y, s.accessPlace p d = { s with readData := x, drop := y } ∧ (y = s.drop ∨ y = true ∧ s.dropsAccess p = true)) ∨
    (∃ v, d = .write v ∧ p = .reg .ctrl ∧ s.accessPlace p d = s.writeCtrl v) ∨
    (∃ v, d = .write v ∧ p = .reg .status ∧ s.accessPlace p d = s.writeStatus v) ∨
    (s.seq = none ∧ ∃ v, d = .write v ∧
      ((p = .reg .cmd ∧ s.accessPlace p d = s.accept v) ∨
       (p = .reg .root ∧ s.accessPlace p d = s.writeRoot v) ∨
       (∃ k, p = .buf k ∧ s.accessPlace p d = s.writeWord k v) ∨
       ∃ t : State, s.accessPlace p d = t ∧ { t with
          srcAddr := s.srcAddr, srcLen := s.srcLen, dstAddr := s.dstAddr, dstCap := s.dstCap, nodeIdx := s.nodeIdx
          nodeKind := s.nodeKind, nodeSym := s.nodeSym, nodeLeft := s.nodeLeft, nodeRight := s.nodeRight
          ctSym := s.ctSym, ctLen := s.ctLen, ctBits := s.ctBits } = s)) := by
  cases d with
  | read =>
    left
    by_cases h : s.dropsAccess p = true
    · exact ⟨some 0, true, by simp [State.accessPlace, h], .inr ⟨rfl, h⟩⟩
    · exact ⟨some (s.readPlace p), s.drop, by simp [State.accessPlace, h], .inl rfl⟩
  | write v =>
    by_cases h : s.dropsAccess p = true
    · exact .inl ⟨s.readData, true, by simp [State.accessPlace, h], .inr ⟨rfl, h⟩⟩
    · have ha : s.accessPlace p (.write v) = s.writePlace v p := by simp [State.accessPlace, h]
      have hopen : p.openWhileBusy = false → s.seq = none := fun hp => by
        cases hs : s.seq with
        | none => rfl
        | some r => simp [State.dropsAccess, State.busy, hs, hp] at h
      rw [ha]
      cases p with
      | reserved => exact .inl ⟨s.readData, s.drop, rfl, .inl rfl⟩
      | buf k => exact .inr (.inr (.inr ⟨hopen rfl, v, rfl, .inr (.inr (.inl ⟨k, rfl, rfl⟩))⟩))
      | reg r =>
        cases r
        case id => exact .inl ⟨s.readData, s.drop, rfl, .inl rfl⟩
        case ctrl => exact .inr (.inl ⟨v, rfl, rfl, rfl⟩)
        case status => exact .inr (.inr (.inl ⟨v, rfl, rfl, rfl⟩))
        case cmd => exact .inr (.inr (.inr ⟨hopen rfl, v, rfl, .inl ⟨rfl, rfl⟩⟩))
        case root => exact .inr (.inr (.inr ⟨hopen rfl, v, rfl, .inr (.inl ⟨rfl, rfl⟩)⟩))
        all_goals exact .inr (.inr (.inr ⟨hopen rfl, v, rfl, .inr (.inr (.inr ⟨_, rfl, rfl⟩))⟩))

/-- The offsets a busy block drops (R35). -/
theorem dropped_offset {n off : Nat} (h4 : off % 4 = 0) (h : (placeAt n off).openWhileBusy = false) :
    off = 0x00C ∨ (0x010 ≤ off ∧ off ≤ 0x050) ∨ (0x10000 ≤ off ∧ off < 0x10000 + n) := by
  by_cases h1 : off ≤ 0x50
  · interval_cases off <;> first | (cases h; done) | omega
  · rw [placeAt, regAt_eq_none (by omega)] at h
    simp only [Config.BUF_BASE] at h
    split at h
    · omega
    · cases h

theorem placeAt_eq_ctrl {n off : Nat} (h : placeAt n off = .reg .ctrl) : off = 0x004 := by
  unfold placeAt at h
  split at h
  · rename_i r hr
    cases h
    unfold regAt at hr
    split at hr <;> first | rfl | cases hr
  · split at h <;> cases h

theorem placeAt_eq_buf {n off k : Nat} (h : placeAt n off = .buf k) : k + 4 ≤ n := by
  unfold placeAt at h
  split at h
  · cases h
  · split at h
    · rename_i hb
      have hk := Place.buf.inj h
      have h2 := hb.2
      rw [hk] at h2
      exact h2
    · cases h

/-- Abandoning a command touches BUF, NODE and the draws only (R231). -/
theorem abandon_eq (s : State) (o : Operands) (i : Instr) :
    s.abandon o i = { s with
      node := (s.abandon o i).node, buf := (s.abandon o i).buf, draws := (s.abandon o i).draws } := by
  cases i <;> simp only [State.abandon] <;> first | rfl | (split <;> rfl)

theorem abandonRunning_cases (s : State) :
    s.abandonRunning = s ∨
    ∃ r i, s.seq = some r ∧ decode r.cmd = .ok i ∧ s.abandonRunning = s.abandon r.lat i := by
  unfold State.abandonRunning
  split
  · exact .inl rfl
  · rename_i r hr
    split
    · rename_i i hi; exact .inr ⟨r, i, hr, hi, rfl⟩
    · exact .inl rfl

theorem abandonRunning_eq (s : State) :
    s.abandonRunning = { s with
      node := s.abandonRunning.node, buf := s.abandonRunning.buf, draws := s.abandonRunning.draws } := by
  rcases abandonRunning_cases s with h | ⟨r, i, -, -, h⟩
  · rw [h]
  · rw [h]; exact abandon_eq s r.lat i

/-- The soft reset leaves the cleared registers and what the abandoned command leaves of BUF and NODE (R231). -/
theorem softReset_eq (s : State) :
    s.softReset = { s.clearForReset with
      node := s.abandonRunning.node, buf := s.abandonRunning.buf, draws := s.abandonRunning.draws } := by
  rw [State.softReset, abandonRunning_eq]; rfl

/-! ### The running command -/

theorem runCommand_idle {s : State} (h : s.seq = none) : runCommand s = .next s := by simp [runCommand, h]

theorem runCommand_valid {s : State} {r : Running} {i : Instr} (h : s.seq = some r) (hd : decode r.cmd = .ok i) :
    runCommand s = exec i s := by simp [runCommand, h, hd]

theorem runCommand_illegal {s : State} {r : Running} {e : IllegalWord} (h : s.seq = some r)
    (hd : decode r.cmd = .error e) : runCommand s = .next (s.fail .illegalCommand 0) := by
  simp [runCommand, h, hd, completeIllegal]

/-- What letting the running command run can answer. -/
theorem runCommand_next {s t : State} (h : runCommand s = .next t) :
    (s.seq = none ∧ t = s) ∨
    (∃ r i, s.seq = some r ∧ decode r.cmd = .ok i ∧ exec i s = .next t) ∨
    (∃ r e, s.seq = some r ∧ decode r.cmd = .error e ∧ t = s.fail .illegalCommand 0) := by
  cases hs : s.seq with
  | none => rw [runCommand_idle hs] at h; cases h; exact .inl ⟨rfl, rfl⟩
  | some r =>
    right
    cases hd : decode r.cmd with
    | ok i => rw [runCommand_valid hs hd] at h; exact .inl ⟨r, i, rfl, hd, h⟩
    | error e => rw [runCommand_illegal hs hd] at h; cases h; exact .inr ⟨r, e, rfl, hd, rfl⟩

/-! ### WAIT -/

/-- A host read of STATUS: its data, where the window holds STATUS; nothing else changes. -/
theorem hostAccess_statusRead {s t : State} (h : hostAccess (statusRead s.params) s = .next t) :
    ∃ d, t = { s with readData := d } ∧ (d = some s.statusWord ∨ d = s.readData) := by
  simp only [hostAccess, statusRead, Nat.add_sub_cancel_left] at h
  split at h
  · cases h; exact ⟨_, rfl, .inr rfl⟩
  · split at h
    · cases h
    · rw [if_pos (by rfl), show placeAt s.params.bufBytes 0x008 = .reg .status from rfl, accessPlace_open rfl] at h
      cases h
      exact ⟨_, rfl, .inl rfl⟩

theorem hostAccess_statusRead_of_wf {s : State} (hp : s.params.wf = true) (hr : s.resetIn = false) :
    hostAccess (statusRead s.params) s = .next { s with readData := some s.statusWord } := by
  rw [params_wf_iff] at hp
  rw [hostAccess_of_wf hr rfl (by omega) rfl rfl rfl, show placeAt s.params.bufBytes 0x008 = .reg .status from rfl,
    accessPlace_open rfl]
  rfl

/-- Bit 1 of STATUS is DONE. -/
theorem statusWord_done (s : State) : s.statusWord.getLsbD 1 = s.done := by
  simp only [State.statusWord, State.busy]
  cases s.seq.isSome <;> cases s.done <;> cases s.treeValid <;> cases s.drop <;> cases s.errcode <;> decide

/-- What one step of a WAIT can do: the running command completes; or STATUS is read, and the WAIT ends where the data has
DONE = 1. -/
theorem waitDone_next {n : Nat} {s t : State} (h : waitDone n s = .next t) :
    (n = 0 ∧ s.busy = true ∧ runCommand { s with events := .wait 0 :: s.events } = .next t) ∨
    (¬(n = 0 ∧ s.busy = true) ∧ ∃ d : Option Word, (d = some s.statusWord ∨ d = s.readData) ∧
      t = { s with
        readData := d
        events := if d.any fun v => v.getLsbD 1 then s.events else .wait (n - 1) :: s.events }) := by
  unfold waitDone at h
  split at h
  · rename_i hc; exact .inl ⟨hc.1, hc.2, h⟩
  · rename_i hc
    refine .inr ⟨hc, ?_⟩
    split at h
    · rename_i u hu
      obtain ⟨d, rfl, hd⟩ := hostAccess_statusRead hu
      refine ⟨d, hd, ?_⟩
      cases h
      rfl
    · cases h
    · cases h

/-- A STATUS read of a WAIT, where the parameters are admissible. -/
theorem waitDone_read {n : Nat} {s : State} (hp : s.params.wf = true) (hr : s.resetIn = false)
    (hn : ¬(n = 0 ∧ s.busy = true)) :
    waitDone n s = .next { s with
      readData := some s.statusWord, events := if s.done then s.events else .wait (n - 1) :: s.events } := by
  rw [waitDone, if_neg hn, hostAccess_statusRead_of_wf hp hr]
  simp only [State.readDone, Option.any_some, statusWord_done]

theorem waitDone_not_fault {n : Nat} {s : State} {f : Fault}
    (h : runCommand { s with events := .wait 0 :: s.events } ≠ .fault f) : waitDone n s ≠ .fault f := by
  unfold waitDone
  split
  · exact h
  · split
    · intro g; cases g
    · rename_i g' hg; exact fun _ => hostAccess_not_fault _ _ _ hg
    · intro g; cases g

/-! ### Steps -/

/-- What a step can do when it answers a next state: the command runs; a host access; both in one cycle; a WAIT; the reset
input. -/
theorem step_next {s t : State} (h : step s = .next t) :
    (s.events = [] ∧ runCommand s = .next t) ∨
    ∃ e es, s.events = e :: es ∧
      ((∃ a, e = .access a ∧ hostAccess a { s with events := es } = .next t) ∨
       (e = .finish ∧ runCommand { s with events := es } = .next t) ∨
       (∃ a u, e = .accessFinish a ∧ hostAccess a { s with events := es } = .next u ∧
        ((s.busy = true ∧ runCommand u = .next t) ∨ (s.busy = false ∧ t = u))) ∨
       (∃ n, e = .wait n ∧ waitDone n { s with events := es } = .next t) ∨
       (e = .resetAssert ∧ t = { State.powerOn { s with events := es } with resetIn := true }) ∨
       (e = .resetRelease ∧ s.resetIn = true ∧ t = { State.powerOn { s with events := es } with resetIn := false }) ∨
       (e = .resetRelease ∧ s.resetIn = false ∧ t = { s with events := es })) := by
  unfold step at h
  split at h
  · rename_i he; exact .inl ⟨he, h⟩
  · rename_i e es he
    refine .inr ⟨e, es, he, ?_⟩
    cases e with
    | access a => exact .inl ⟨a, rfl, h⟩
    | finish => exact .inr (.inl ⟨rfl, h⟩)
    | accessFinish a =>
      refine .inr (.inr (.inl ?_))
      simp only [applyEvent, accessAndComplete] at h
      split at h
      · rename_i u hu
        refine ⟨a, u, rfl, hu, ?_⟩
        split at h
        · rename_i hb; exact .inl ⟨hb, h⟩
        · rename_i hb; cases h; exact .inr ⟨by simpa [State.busy] using hb, rfl⟩
      · cases h
      · cases h
    | wait n => exact .inr (.inr (.inr (.inl ⟨n, rfl, h⟩)))
    | resetAssert => cases h; exact .inr (.inr (.inr (.inr (.inl ⟨rfl, rfl⟩))))
    | resetRelease =>
      simp only [applyEvent] at h
      split at h
      · rename_i hr; cases h; exact .inr (.inr (.inr (.inr (.inr (.inl ⟨rfl, hr, rfl⟩)))))
      · rename_i hr; cases h; exact .inr (.inr (.inr (.inr (.inr (.inr ⟨rfl, by simpa using hr, rfl⟩)))))

/-- A run's first step. -/
theorem run_succ {s t : State} (h : step s = .next t) (k : Nat) :
    Host.Core.run Sys2Proof.core (k + 1) s = Host.Core.run Sys2Proof.core k t := by
  have h' : Sys2Proof.core.step s = .next t := h
  simp only [Host.Core.run, h']

end Sys2Proof.Machine
end

