-- ==== Sys2Proof/Laws/Invariants.lean ====
section
/-! SUPPORT. What keeps the invariants of Safety.lean, operation by operation: a change of fields an invariant does not
mention, each store's writes, a host access. -/

namespace Sys2Proof.Machine

/-! ### `StoresOk` -/

namespace State.StoresOk

variable {s t : State}

/-- It depends on the parameters and the three stores only. -/
theorem congr (h : s.StoresOk) (h1 : t.params = s.params) (h2 : t.buf = s.buf) (h3 : t.node = s.node)
    (h4 : t.code = s.code) : t.StoresOk :=
  ⟨h1 ▸ h.params, h2 ▸ h.buf, by rw [h1, h2]; exact h.bufBound, h3 ▸ h.node, by rw [h3]; exact h.nodeBound, h4 ▸ h.code,
    by rw [h4]; exact h.codeBound⟩

theorem withBuf (h : s.StoresOk) (h1 : t.params = s.params) (h3 : t.node = s.node) (h4 : t.code = s.code)
    (hw : Memory.wf t.buf) (hb : ∀ c ∈ t.buf, c.1 < s.params.bufBytes) : t.StoresOk :=
  ⟨h1 ▸ h.params, hw, by rw [h1]; exact hb, h3 ▸ h.node, by rw [h3]; exact h.nodeBound, h4 ▸ h.code,
    by rw [h4]; exact h.codeBound⟩

theorem withNode (h : s.StoresOk) (h1 : t.params = s.params) (h2 : t.buf = s.buf) (h4 : t.code = s.code)
    (hw : Ram.wf t.node) (hb : ∀ c ∈ t.node, c.1 < 131071) : t.StoresOk :=
  ⟨h1 ▸ h.params, h2 ▸ h.buf, by rw [h1, h2]; exact h.bufBound, hw, hb, h4 ▸ h.code, by rw [h4]; exact h.codeBound⟩

theorem withCode (h : s.StoresOk) (h1 : t.params = s.params) (h2 : t.buf = s.buf) (h3 : t.node = s.node)
    (hw : Ram.wf t.code) (hb : ∀ c ∈ t.code, c.1 ≤ 0xFFFF ∧ 1 ≤ c.2.length ∧ c.2.length ≤ 32) : t.StoresOk :=
  ⟨h1 ▸ h.params, h2 ▸ h.buf, by rw [h1, h2]; exact h.bufBound, h3 ▸ h.node, by rw [h3]; exact h.nodeBound, hw, hb⟩

theorem anyRegion (h : s.StoresOk) (a n : Nat) : (s.anyRegion a n).StoresOk :=
  h.withBuf rfl rfl rfl (wf_anyRegion h.buf a n) fun c hc => (mem_anyRegion hc).elim (·.2.2) (h.bufBound c)

theorem anyNodes (h : s.StoresOk) (a n : Nat) (hb : a + n ≤ 131071) : (s.anyNodes a n).StoresOk := by
  refine h.withNode rfl rfl rfl (Ram.wf_store h.node a _) fun c hc => ?_
  rcases Ram.mem_store hc with g | g
  · rw [List.length_map, List.length_range] at g; omega
  · exact h.nodeBound c g

theorem bitStore (h : s.StoresOk) (a : Nat) (p : List Bool) (hb : a + ceilDiv8 p.length ≤ s.params.bufBytes) :
    (s.bitStore a p).StoresOk := by
  refine h.withBuf rfl rfl rfl (wf_bitStore h.buf a p) fun c hc => ?_
  rcases mem_bitStore hc with g | g
  · omega
  · exact h.bufBound c g

theorem writeWord (h : s.StoresOk) (a : Nat) (v : Word) (hb : a + 4 ≤ s.params.bufBytes) :
    (s.writeWord a v).StoresOk := by
  refine h.withBuf rfl rfl rfl (wf_writeWord h.buf a v) fun c hc => ?_
  rcases Ram.mem_store hc with g | g
  · rw [length_beBytes] at g; omega
  · exact h.bufBound c g

theorem writeWords (ws : List Word) (h : s.StoresOk) (a : Nat) (hb : a + 4 * ws.length ≤ s.params.bufBytes) :
    (s.writeWords a ws).StoresOk := by
  induction ws generalizing s a with
  | nil => exact h
  | cons w ws ih =>
    rw [List.length_cons] at hb
    exact ih (h.writeWord a w (by omega)) (a + 4) (by show a + 4 + 4 * ws.length ≤ s.params.bufBytes; omega)

theorem putTree (h : s.StoresOk) (t : HTree) (n : Nat) (hb : n + t.size ≤ 131071) :
    State.StoresOk { s with node := putTree s.node n t } := by
  refine h.withNode rfl rfl rfl (wf_putTree t h.node n) fun c hc => ?_
  rcases mem_putTree t hc with g | g
  · omega
  · exact h.nodeBound c g

theorem abandonRunning (h : s.StoresOk) : s.abandonRunning.StoresOk := by
  rcases abandonRunning_cases s with e | ⟨r, i, -, -, e⟩
  · rwa [e]
  · rw [e]
    cases i <;> simp only [State.abandon] <;> try exact h
    · split
      · rename_i hi; simp only [Config.NODE_CAP] at hi; exact h.anyNodes _ _ (by omega)
      · exact h
    · exact h.anyRegion _ _
    · exact h.anyRegion _ _
    · exact h.anyRegion _ _
    · exact h.anyNodes _ _ (by simp only [Config.NODE_CAP]; omega)

theorem softReset (h : s.StoresOk) : s.softReset.StoresOk :=
  h.abandonRunning.withCode rfl rfl rfl List.Pairwise.nil (by simp [State.softReset, State.reset])

theorem accessPlace (h : s.StoresOk) (off : Nat) (d : Dir) :
    (s.accessPlace (placeAt s.params.bufBytes off) d).StoresOk := by
  rcases accessPlace_cases s (placeAt s.params.bufBytes off) d with
    ⟨x, y, e, -⟩ | ⟨v, -, -, e⟩ | ⟨v, -, -, e⟩ | ⟨-, v, -, ⟨-, e⟩ | ⟨-, e⟩ | ⟨k, hp, e⟩ | ⟨t, rfl, e⟩⟩
  · rw [e]; exact h.congr rfl rfl rfl rfl
  · rw [e, State.writeCtrl]
    split
    · exact h.softReset
    · exact h.congr rfl rfl rfl rfl
  · rw [e]; exact h.congr rfl rfl rfl rfl
  · rw [e]; exact h.congr (by simp) (by simp) (by simp) (by simp)
  · rw [e]; exact h.congr rfl rfl rfl rfl
  · rw [e]; exact h.writeWord k v (placeAt_eq_buf hp)
  · exact h.congr (by have := congrArg State.params e; exact this) (by have := congrArg State.buf e; exact this)
      (by have := congrArg State.node e; exact this) (by have := congrArg State.code e; exact this)

end State.StoresOk

/-- The codes of leaves written into CODE keep its form. -/
theorem wf_putCodes (xs : List (Word × List Bool)) {m : Ram Code} (h : Ram.wf m) : Ram.wf (putCodes m xs) := by
  induction xs generalizing m with
  | nil => exact h
  | cons x xs ih => exact ih (Ram.wf_put h _ _)

theorem mem_putCodes {xs : List (Word × List Bool)} {m : Ram Code} {c : Nat × Code} (h : c ∈ putCodes m xs) :
    c ∈ m ∨ ∃ x ∈ xs, c = (x.1.toNat, codeOfPath x.2) := by
  induction xs generalizing m with
  | nil => exact .inl h
  | cons x xs ih =>
    rcases ih h with h | ⟨y, hy, e⟩
    · rcases Ram.mem_put h with h | h
      · exact .inr ⟨x, by simp, h⟩
      · exact .inl h
    · exact .inr ⟨y, by simp [hy], e⟩

theorem one_le_codeOfPath (p : List Bool) : 1 ≤ (codeOfPath p).length := by
  unfold codeOfPath
  split
  · simp
  · rename_i h; exact List.length_pos_iff.2 h

/-! ### `SequencerOk` -/

theorem clearsTree_iff (w : Word) : clearsTree w = true ↔ w = 1#32 ∨ w = 3#32 ∨ w = 11#32 := by
  simp [clearsTree, or_assoc]

theorem State.SequencerOk.of_idle {s : State} (h : s.seq = none) : s.SequencerOk := by
  constructor <;> simp [h]

/-- It depends on the sequencer, the completion record, the operands and the reset input only. -/
theorem State.SequencerOk.congr {s t : State} (h : s.SequencerOk) (hr : t.resetIn = s.resetIn) (h1 : t.seq = s.seq)
    (h2 : t.done = true → s.done = true) (h3 : t.errcode = s.errcode) (h4 : t.outLen = s.outLen)
    (h5 : t.errPos = s.errPos) (h6 : t.liveOperands = s.liveOperands) : t.SequencerOk := by
  have htv : t.treeValid = s.treeValid := congrArg Operands.treeValid h6
  refine ⟨fun r hs => ?_, fun r hs => ?_, fun r hs hc => ?_, fun r hs hc => ?_, fun g => ?_⟩
  · have g := h.cleared r (h1 ▸ hs)
    refine ⟨?_, h3 ▸ g.2.1, h4 ▸ g.2.2.1, h5 ▸ g.2.2.2⟩
    cases hd : t.done with
    | false => rfl
    | true => rw [h2 hd] at g; cases g.1
  · rw [LatchedAre, h6]; exact h.latched r (h1 ▸ hs)
  · rw [htv]; exact h.treeCleared r (h1 ▸ hs) hc
  · rw [htv]; exact h.treeLatched r (h1 ▸ hs) hc
  · rw [h1]; exact h.inReset (hr ▸ g)

/-- While a command runs its operands are the live registers, TREE_VALID apart. -/
theorem State.SequencerOk.operands_root {s : State} {r : Running} (h : s.SequencerOk) (hr : s.seq = some r) :
    s.operands = r.lat ∧ s.operands.root = s.root := by
  have g := h.latched r hr
  simp only [State.operands, hr, true_and]
  rw [g]
  rfl

/-! ### `TreeOk` -/

theorem State.TreeOk.of_cleared {s : State} (h : s.treeValid = false) (h1 : s.nodeCount = 0) (h2 : s.leafCount = 0) :
    s.TreeOk where
  valid g := absurd (g.symm.trans h) (by decide)
  invalid _ := ⟨h1, h2⟩

/-- It depends on TREE_VALID, the counts, ROOT and, where TREE_VALID is 1, NODE only. -/
theorem State.TreeOk.congr {s t : State} (h : s.TreeOk) (h1 : t.treeValid = s.treeValid) (h2 : t.nodeCount = s.nodeCount)
    (h3 : t.leafCount = s.leafCount) (h4 : t.root = s.root) (h5 : s.treeValid = true → ∀ k, t.nodeAt k = s.nodeAt k) :
    t.TreeOk where
  valid g := by
    rw [h1] at g
    obtain ⟨x, ixs, hx, hc⟩ := h.valid g
    rw [h2, h3, h4]
    exact ⟨x, ixs, hx.congr fun i _ => h5 g i, hc⟩
  invalid g := by
    rw [h1] at g
    rw [h2, h3]
    exact h.invalid g

/-- A tree stored by a parse is well formed (R176). -/
theorem hasTree_putTree {u : State} {t : HTree} {m : Ram Node} (hf : t.symbolsFit) (hs : t.size ≤ 131071)
    (hu : u.node = putTree m 0 t) : u.HasTree 0 t (List.range t.size) := by
  refine ⟨?_, List.nodup_range, fun i hi => by have := List.mem_range.1 hi; omega⟩
  rw [List.range_eq_range']
  refine treeAt_putTree t m 0 (t.symbolsFit_iff.1 hf) (by omega) fun k x _ _ hx => ?_
  rw [State.nodeAt, hu, hx]
  rfl

end Sys2Proof.Machine
end

