-- ==== Sys2Proof/Laws/PerInstr.lean ====
section
/-! SUPPORT. The per-instruction family `CommandWord` (LAWS.json): what the spec says of each command's word as an encoding
(spec/30_encoding.md R80, R81), one lemma a constructor. -/

namespace Sys2Proof.Laws.CommandWord

/-- R80, R81: a command is well formed, RSVD of its word is 0, OPCODE is its number in the map, and the map gives the command
back for that number. -/
def Statement (i : Instr) : Prop :=
  i.wf = true ∧ rsvdField (encode i) = 0 ∧ opcodeField (encode i) = opcode i ∧ opcode i ≤ 0x0B ∧
    opcodeMap (opcode i) = some i

theorem nop : Statement .nop := by simp only [Statement]; decide
theorem nodeWrite : Statement .nodeWrite := by simp only [Statement]; decide
theorem nodeRead : Statement .nodeRead := by simp only [Statement]; decide
theorem treeCommit : Statement .treeCommit := by simp only [Statement]; decide
theorem ctClear : Statement .ctClear := by simp only [Statement]; decide
theorem ctWrite : Statement .ctWrite := by simp only [Statement]; decide
theorem ctRead : Statement .ctRead := by simp only [Statement]; decide
theorem ctGen : Statement .ctGen := by simp only [Statement]; decide
theorem encode : Statement .encode := by simp only [Statement]; decide
theorem decode : Statement .decode := by simp only [Statement]; decide
theorem treeSer : Statement .treeSer := by simp only [Statement]; decide
theorem treeDeser : Statement .treeDeser := by simp only [Statement]; decide

end Sys2Proof.Laws.CommandWord
end

