-- ==== Sys2Proof/Tests/Slice0.lean ====
section
/-! SUPPORT. Tests. Expected results come from the spec: the opcode map (spec/30_encoding.md R81), the vectors of
spec/95_test_vectors.md (named `V-...` where a test takes one) and the examples in the rules. The second half gives, for
each statement with hypotheses, a state and operands that meet them together. -/

namespace Sys2Proof.Tests

-- One theorem after the other: each kernel evaluation in a thread of its own takes a large stack.
set_option Elab.async false

open Sys2Proof Sys2Proof.Machine

/-! ### Helpers -/

/-- The next state, if there is one. -/
def after : Result → Option State
  | .next t => some t
  | .fault _ => none
  | .refused _ => none

/-- Does an outcome answer exactly this next state? -/
def answers (r : Result) (t : State) : Bool := after r == some t

theorem eq_next {r : Result} {t : State} (h : answers r t = true) : r = .next t := by
  cases r <;> simp_all [answers, after]

/-- Bytes of BUF from offset `a`. -/
def bytes (a : Nat) (bs : List Nat) : List Host.Cell := Ram.store [] a (bs.map (BitVec.ofNat 8))

/-- The state of `Ta` (spec/95_test_vectors.md section 0): one leaf 'a'. -/
def ta : State :=
  { State.reset with
    node := [(0, ⟨true, 0x61, 0, 0⟩)], code := [(0x61, [false])], treeValid := true, nodeCount := 1, leafCount := 1 }

/-- NODE of `Th`, the "hello" tree. -/
def thNodes : Ram Node :=
  [(0, ⟨false, 0, 1, 4⟩), (1, ⟨false, 0, 2, 3⟩), (2, ⟨true, 0x68, 0, 0⟩), (3, ⟨true, 0x65, 0, 0⟩),
    (4, ⟨false, 0, 5, 6⟩), (5, ⟨true, 0x6F, 0, 0⟩), (6, ⟨true, 0x6C, 0, 0⟩)]

/-- CODE of `Th`. -/
def thCode : Ram Code :=
  [(0x65, [false, true]), (0x68, [false, false]), (0x6C, [true, true]), (0x6F, [true, false])]

/-- `Th` committed, with its code table. -/
def th : State :=
  { State.reset with node := thNodes, code := thCode, treeValid := true, nodeCount := 7, leafCount := 4 }

/-- `Th` as a value. -/
def thTree : HTree := .node (.node (.leaf 0x68) (.leaf 0x65)) (.node (.leaf 0x6F) (.leaf 0x6C))

/-- The bytes of `Th`'s stream, 71 bits. -/
def thStream : List Nat := [0x20, 0x0D, 0x10, 0x06, 0x54, 0x01, 0xBE, 0x00, 0xD8]

/-- Source and destination registers. -/
def withIO (s : State) (a n d c : Word) : State := { s with srcAddr := a, srcLen := n, dstAddr := d, dstCap := c }

/-- "hello" at 0x00. -/
def hello : List Host.Cell := bytes 0 [0, 0, 0, 0x68, 0, 0, 0, 0x65, 0, 0, 0, 0x6C, 0, 0, 0, 0x6C, 0, 0, 0, 0x6F]

/-- A tree with a bad second leaf: 0: I(1,2); 1: L(0x61); 2: L(`w`). -/
def twoLeaves (w : Word) : State :=
  { State.reset with
    node := [(0, ⟨false, 0, 1, 2⟩), (1, ⟨true, 0x61, 0, 0⟩), (2, ⟨true, w, 0, 0⟩)]
    treeValid := true, nodeCount := 3, leafCount := 2 }

/-- The sequencer runs command word `w`, its operands latched from `s`, `es` to come. -/
def running (s : State) (w : Word) (es : List Event) : State :=
  { s with seq := some { cmd := w, lat := s.liveOperands }, events := es }

/-! ### Well-formedness: each check refuses an ill-formed term -/

theorem test_bufMultiple_refused : Config.Params.bufMultiple { bufBytes := 6, hbcBase := 0, windowBytes := 0x20000 } = false := by
  decide
theorem test_bufBounds_refused_small :
    Config.Params.bufBounds { bufBytes := 0, hbcBase := 0, windowBytes := 0x20000 } = false := by decide
theorem test_bufBounds_refused_large :
    Config.Params.bufBounds { bufBytes := 2 ^ 24 + 4, hbcBase := 0, windowBytes := 2 ^ 26 } = false := by decide
theorem test_windowHolds_refused :
    Config.Params.windowHolds { bufBytes := 256, hbcBase := 0, windowBytes := 0x100FC } = false := by decide
theorem test_params_wf : Config.defaultParams.wf = true := by decide
theorem test_halfword_access_refused : Access.wf { addr := 0, dir := .read, width := 16 } 0 = false := by decide
theorem test_partial_lanes_refused : Access.wf { addr := 0, dir := .write 0, lanes := 0x7#4 } 0 = false := by decide
theorem test_misaligned_offset_refused : Access.wf { addr := 2, dir := .read } 2 = false := by decide
theorem test_instr_wf : ([.nop, .ctGen, .treeDeser] : List Instr).all Instr.wf = true := by decide

/-! ### Decoding: words written out from R80 (RSVD in [31:8], OPCODE in [7:0]) and the opcode map R81 -/

theorem test_decode_tree_store :
    decode 0b00000000000000000000000000000001#32 = .ok .nodeWrite ∧
    decode 0b00000000000000000000000000000010#32 = .ok .nodeRead ∧
    decode 0b00000000000000000000000000000011#32 = .ok .treeCommit := by decide
theorem test_decode_code_table :
    decode 0b00000000000000000000000000000100#32 = .ok .ctClear ∧
    decode 0b00000000000000000000000000000101#32 = .ok .ctWrite ∧
    decode 0b00000000000000000000000000000110#32 = .ok .ctRead ∧
    decode 0b00000000000000000000000000000111#32 = .ok .ctGen := by decide
theorem test_decode_codecs :
    decode 0b00000000000000000000000000001000#32 = .ok .encode ∧
    decode 0b00000000000000000000000000001001#32 = .ok .decode ∧
    decode 0b00000000000000000000000000001010#32 = .ok .treeSer ∧
    decode 0b00000000000000000000000000001011#32 = .ok .treeDeser := by decide
theorem test_decode_nop : decode 0b00000000000000000000000000000000#32 = .ok .nop := by decide
/-- V-PROTO-1, V-PROTO-2, V-PROTO-3. -/
theorem test_decode_illegal :
    decode 0x0000000C#32 = .error .reservedOpcode ∧ decode 0x000000FF#32 = .error .reservedOpcode ∧
    decode 0x00000100#32 = .error .reservedField ∧ decode 0xFFFFFFFF#32 = .error .reservedField ∧
    decode 0x8000000B#32 = .error .reservedField := by decide
theorem test_encode_words : encode .nop = 0x00000000#32 ∧ encode .encode = 0x00000008#32 ∧
    encode .treeDeser = 0x0000000B#32 := by decide
theorem test_decodeTableWord : decodeTableWord 32 0x0A = some .treeSer ∧ decodeTableWord 32 0x10A = none := by decide

/-! ### Instructions -/

/-- V-PROTO-4: NOP with CTRL = 1 leaves STATUS = 0x2 and raises irq. -/
theorem test_nop : (after (exec .nop (running { State.reset with ie := true } 0 []))).map
    (fun t => (t.statusWord, t.irq)) = some (0x00000002#32, true) := by decide

/-- V-NODE-1. -/
theorem test_nodeWrite : (after (exec .nodeWrite
    { State.reset with nodeIdx := 2, nodeKind := true, nodeSym := 0x68 })).map
      (fun t => (t.statusWord, t.nodeAt 2)) = some (0x00000002#32, ⟨true, 0x68, 0, 0⟩) := by decide +kernel

/-- V-NODE-2: NODE_IDX = NODE_CAP; acceptance has cleared TREE_VALID and the counts. -/
theorem test_nodeWrite_badRange : (after (exec .nodeWrite ({ th with nodeIdx := 131071 }.accept 1))).map
    (fun t => ([t.statusWord, t.errPos, t.nodeCount, t.leafCount], t.node)) = some ([0x00000202#32, 0, 0, 0], thNodes) := by
  decide +kernel

/-- V-NODE-3. -/
theorem test_nodeRead : (after (exec .nodeRead { th with nodeSym := 9 })).map
    (fun t => (t.statusWord, t.nodeKind, t.nodeSym, t.nodeLeft, t.nodeRight)) = some (0x00000006#32, false, 0, 1, 4) := by
  decide +kernel

/-- V-NODE-5. -/
theorem test_nodeRead_badRange : (after (exec .nodeRead { State.reset with nodeIdx := 0x80000000, nodeLeft := 7 })).map
    (fun t => (t.statusWord, t.nodeLeft)) = some (0x00000202#32, 7) := by decide +kernel

/-- V-TC-1. -/
theorem test_treeCommit : (after (exec .treeCommit ({ th with treeValid := false, nodeCount := 0, leafCount := 0 }))).map
    (fun t => (t.statusWord, t.nodeCount, t.leafCount)) = some (0x00000006#32, 7, 4) := by decide +kernel

/-- V-TC-2: `Th` with NODE[4].right = 0. -/
theorem test_treeCommit_corrupt : (after (exec .treeCommit
    (({ th with node := Ram.put thNodes 4 ⟨false, 0, 5, 0⟩ }).accept 3))).map
    (fun t => (t.statusWord, t.errPos, t.nodeCount, t.leafCount)) = some (0x00000602#32, 6, 0, 0) := by decide +kernel

/-- R123's example, on `Th`. -/
theorem test_ctClear : (after (exec .ctClear th)).map
    (fun t => (t.codeAt 0x6C, t.treeValid, t.statusWord)) = some (none, true, 0x00000006#32) := by decide +kernel

/-- V-CT-8: CT_BITS = 0xFFFFFFFF, CT_LEN = 2 gives the code "11". -/
theorem test_ctWrite : (after (exec .ctWrite
    { State.reset with ctSym := 0x6C, ctLen := 2, ctBits := 0xFFFFFFFF })).map (fun t => t.code)
      = some [(0x6C, [true, true])] := by decide +kernel

/-- V-CT-10: the symbol is checked before the length. -/
theorem test_ctWrite_unsupported : (after (exec .ctWrite { State.reset with ctSym := 0x10000, ctLen := 33 })).map
    (fun t => t.statusWord) = some 0x00000502#32 := by decide +kernel

/-- V-CT-12: a code of 32 bits, "1" then 30 zeros then "1", fills CT_BITS. -/
theorem test_ctRead : (after (exec .ctRead
    { State.reset with ctSym := 0x41, code := [(0x41, [true] ++ List.replicate 30 false ++ [true])] })).map
    (fun t => (t.ctLen, t.ctBits)) = some (32, 0x80000001#32) := by decide +kernel

/-- V-CT-13. -/
theorem test_ctRead_unsupported : (after (exec .ctRead { State.reset with ctSym := 0x10000, ctLen := 5, ctBits := 6 })).map
    (fun t => (t.statusWord, t.errPos, t.ctLen, t.ctBits)) = some (0x00000502#32, 0, 5, 6) := by decide +kernel

/-- V-CT-15: the table of `Th`; the old entry 0x78 is discarded. -/
theorem test_ctGen : (after (exec .ctGen { th with code := Ram.put thCode 0x78 [true, true, true] })).map
    (fun t => (t.outLen, t.code)) = some (4, thCode) := by decide +kernel

/-- V-CT-4: a symbol at two leaves. -/
theorem test_ctGen_duplicate : (after (exec .ctGen (twoLeaves 0x61))).map
    (fun t => (t.statusWord, t.errPos, t.code)) = some (0x00000606#32, 2, []) := by decide +kernel

/-- V-EN-2: "hello" gives the 10 bits 0001111110, bytes 1F 80. -/
theorem test_encode : (after (exec .encode (withIO { th with buf := hello } 0 5 0x80 16))).map
    (fun t => (t.outLen, t.bufByte 0x80, t.bufByte 0x81, t.statusWord)) = some (10, 0x1F, 0x80, 0x00000006#32) := by
  decide +kernel

/-- V-EN-7: 8 bits of room, the fifth symbol does not fit. -/
theorem test_encode_overflow : (after (exec .encode (withIO { th with buf := hello } 0 5 0x80 1))).map
    (fun t => (t.statusWord, t.errPos, t.outLen, t.bufByte 3)) = some (0x00000806#32, 4, 0, 0x68) := by decide +kernel

/-- V-DE-2. -/
theorem test_decode : (after (exec .decode (withIO { th with buf := bytes 0x80 [0x1F, 0x80] } 0x80 10 0xC0 64))).map
    (fun t => (t.outLen, t.readWords 0xC0 5)) = some (5, [0x68, 0x65, 0x6C, 0x6C, 0x6F]) := by decide +kernel

/-- V-DE-5: the stream ends inside a code. -/
theorem test_decode_truncated :
    (after (exec .decode (withIO { th with buf := bytes 0x80 [0x1F, 0x80] } 0x80 9 0xC0 20))).map
    (fun t => (t.statusWord, t.errPos, t.outLen)) = some (0x00000706#32, 9, 0) := by decide +kernel

/-- V-TS-2. -/
theorem test_treeSer : (after (exec .treeSer (withIO th 0 0 0x40 16))).map
    (fun t => (t.outLen, (List.range 9).map fun k => (t.bufByte (0x40 + k)).toNat)) = some (71, thStream) := by
  decide +kernel

/-- V-TS-6: 54 bits are out when leaf l, at pre-order index 6, does not fit in 64. -/
theorem test_treeSer_overflow : (after (exec .treeSer (withIO th 0 0 0x40 8))).map
    (fun t => (t.errcode, t.errPos)) = some (.outputOverflow, 6) := by decide +kernel

/-- V-TD-2: NODE[0..6] = Th, from a state with another ROOT. -/
theorem test_treeDeser :
    (after (exec .treeDeser (withIO { State.reset with buf := bytes 0x40 thStream, root := 9 } 0x40 71 0 0))).map
    (fun t => ([t.outLen, t.root, t.nodeCount, t.leafCount, t.statusWord], t.node))
      = some ([71, 0, 7, 4, 0x00000006#32], thNodes) := by decide +kernel

/-- V-TD-5: a bit is left over after the complete tree. -/
theorem test_treeDeser_leftover :
    (after (exec .treeDeser (withIO { State.reset with buf := bytes 0x40 [0x80, 0x30, 0x80] } 0x40 18 0 0))).map
    (fun t => (t.errcode, t.errPos, t.treeValid)) = some (.corruptTree, 17, false) := by decide +kernel

/-! ### Host accesses and reset -/

/-- V-PROTO-7: ID. -/
theorem test_read_id : (after (step { State.reset with events := [readAt Config.defaultParams 0x000] })).map
    (fun t => t.readData) = some (some 0x48424331#32) := by decide +kernel

/-- V-NODE-6: NODE_KIND keeps only bit 0. -/
theorem test_write_nodeKind :
    (after (step { State.reset with events := [writeAt Config.defaultParams 0x030 0xFFFFFFFF#32] })).map
    (fun t => t.readReg .nodeKind) = some 0x00000001#32 := by decide +kernel

/-- R61 and P1 row 2: the BUF window is big-endian. -/
theorem test_write_buf :
    (after (step { State.reset with events := [writeAt Config.defaultParams 0x10040 0x80308000#32] })).map
    (fun t => t.buf) = some [(0x40, 0x80), (0x41, 0x30), (0x42, 0x80), (0x43, 0x00)] := by decide +kernel

/-- V-PROTO-9: a read while BUSY = 1 returns 0 and sets DROP. -/
theorem test_busy_read_drops :
    (after (step (running { th with outLen := 3 } 8 [readAt Config.defaultParams 0x020]))).map
    (fun t => (t.readData, t.drop, t.busy)) = some (some 0, true, true) := by decide +kernel

/-- V-TC-9: a ROOT write clears TREE_VALID and keeps DONE. -/
theorem test_write_root :
    (after (step { th with done := true, events := [writeAt Config.defaultParams 0x028 0] })).map
    (fun t => t.statusWord) = some 0x00000002#32 := by decide +kernel

/-- V-PROTO-5, ACK (R88): clears DONE and DROP, keeps ERRCODE. -/
theorem test_write_status :
    (after (step { State.reset with
      ie := true, done := true, drop := true, errcode := .truncatedStream
      events := [writeAt Config.defaultParams 0x008 0x0000000A#32] })).map
    (fun t => (t.statusWord, t.irq)) = some (0x00000700#32, false) := by decide +kernel

/-- V-PROTO-12: a soft reset abandons a running ENCODE; bytes outside its destination stay. -/
theorem test_soft_reset_abandons :
    (after (step (running (withIO { th with buf := hello, ie := true } 0 5 0x80 4) 8
      [writeAt Config.defaultParams 0x004 2]))).map
    (fun t => (t.statusWord, t.irq, t.code.length, t.bufByte 3)) = some (0, false, 0, 0x68) := by
  decide +kernel

/-- R66, R230: a halfword access, and an access while the reset input is asserted. -/
theorem test_refused_accesses :
    (match step { State.reset with events := [.access { addr := 0, dir := .read, width := 16 }] } with
      | .refused r => r == .undefinedAccess | _ => false) = true ∧
    (match step { State.reset with resetIn := true, events := [readAt Config.defaultParams 0] } with
      | .refused r => r == .accessInReset | _ => false) = true := by decide +kernel

/-- P2 row 1: the transactions of `NODE 0, 0, 0, 1, 4`, the last of them a WAIT. -/
theorem test_expand_node :
    Line.expand Config.defaultParams 1 (.node 0 0 0 1 4) =
      [writeAt Config.defaultParams 0x02C 0, writeAt Config.defaultParams 0x030 0, writeAt Config.defaultParams 0x034 0,
        writeAt Config.defaultParams 0x038 1, writeAt Config.defaultParams 0x03C 4,
        writeAt Config.defaultParams 0x00C 0x00000001, .wait 1] := by decide

/-- R89: a WAIT ends at a STATUS read with DONE = 1, though polls are left. -/
theorem test_wait_ends_on_done : (after (step { ta with done := true, events := [.wait 5] })).map
    (fun t => (t.events, t.readData)) = some ([], some 0x00000006#32) := by decide +kernel

/-- R89, and ACK (R88): with DONE = 0 in an idle block a WAIT goes on, whatever its polls. -/
theorem test_wait_goes_on : ∀ n ∈ [0, 1], (after (step { ta with events := [.wait n] })).map
    (fun t => (t.events, t.readData)) = some ([.wait 0], some 0x00000004#32) := by decide +kernel

/-- R100: a word given to run runs. -/
theorem test_withFetchWord : (after (step (State.reset.withFetchWord 32 0x0B))).map
    (fun t => (t.statusWord, t.errPos)) = some (0x00000602#32, 0) := by decide +kernel

/-! ## Witnesses: a state and operands that meet all the hypotheses of each statement together -/

/-- `State.reset` with these events to come. -/
def idleWith (es : List Event) : State := { State.reset with events := es }

/-- The block with a window larger than BUF needs. -/
def wide (es : List Event) : State :=
  { State.reset with params := { bufBytes := 256, hbcBase := 0x4000, windowBytes := 0x20000 }, events := es }

/-! ### Encoding, step, host accesses -/

theorem test_witness_IllegalWords :
    ∀ n ∈ [0x0000000C, 0x000000FF, 0x00000100, 0xFFFFFFFF],
      let w := BitVec.ofNat 32 n
      let s := idleWith [writeAt Config.defaultParams 0x00C w, .finish]
      s.params.wf = true ∧ s.resetIn = false ∧ s.seq = none ∧
        (w.extractLsb' 8 24 ≠ 0#24 ∨ 0x0B < (w.extractLsb' 0 8).toNat) ∧
        s.events = writeAt s.params 0x00C w :: .finish :: [] := by decide +kernel

theorem test_witness_StepRunsTheLatchedCommand :
    (∃ s r i es, State.seq s = some r ∧ decode r.cmd = .ok i ∧ s.events = .finish :: es) ∧
    (∃ s r i, State.seq s = some r ∧ decode r.cmd = .ok i ∧ s.events = []) ∧
    (∃ s r i es, State.seq s = some r ∧ decode r.cmd = .ok i ∧ s.events = .wait 0 :: es) ∧
    (∃ u : State, u.seq = none ∧ u.events = []) ∧ (∃ (u : State) (es : _), u.seq = none ∧ u.events = .finish :: es) :=
  ⟨⟨running th 0x0B [.finish], _, .treeDeser, [], rfl, rfl, rfl⟩, ⟨running th 0 [], _, .nop, rfl, rfl, rfl⟩,
    ⟨running th 8 [.wait 0], _, .encode, [], rfl, rfl, rfl⟩, ⟨State.reset, rfl, rfl⟩, ⟨idleWith [.finish], [], rfl, rfl⟩⟩

theorem test_witness_FetchedWordRunsNext :
    decodeTableWord 32 0x0 = some .nop ∧ decodeTableWord 32 0xB = some .treeDeser := by decide +kernel

theorem test_witness_IdleOfferIsAccepted : ∀ n ∈ [0, 11],
    let w := BitVec.ofNat 32 n
    let s := idleWith [writeAt Config.defaultParams 0x00C w]
    s.params.wf = true ∧ s.resetIn = false ∧ s.seq = none ∧ s.events = [writeAt s.params 0x00C w] := by decide +kernel

theorem test_witness_BusyDropsAccess : ∀ off ∈ [0x00C, 0x010, 0x050, 0x10000, 0x100FC],
    ∀ e ∈ [readAt Config.defaultParams off, writeAt Config.defaultParams off 5],
    let s := running th 8 [e]
    s.params.wf = true ∧ s.resetIn = false ∧ s.seq ≠ none ∧ off % 4 = 0 ∧
      (off = 0x00C ∨ (0x010 ≤ off ∧ off ≤ 0x050) ∨ (0x10000 ≤ off ∧ off < 0x10000 + s.params.bufBytes)) ∧
      (s.events = [readAt s.params off] ∨ s.events = [writeAt s.params off 5]) := by decide +kernel

theorem test_witness_IdentityAndStatusReadAtAnyTime :
    ∀ e ∈ [readAt Config.defaultParams 0x000, writeAt Config.defaultParams 0x000 7, readAt Config.defaultParams 0x004,
        readAt Config.defaultParams 0x008],
      let s := running th 8 [e]
      s.params.wf = true ∧ s.resetIn = false ∧ s.events = [e] := by decide +kernel

theorem test_witness_ReservedOffsets : ∀ off ∈ [0x054, 0xFFFC, 0x10100, 0x1FFFC],
    let p := (wide []).params
    ∀ e ∈ [readAt p off, writeAt p off 5],
    let s := wide [e]
    s.params.wf = true ∧ s.resetIn = false ∧ off % 4 = 0 ∧ off < s.params.windowBytes ∧
      ((0x054 ≤ off ∧ off < 0x10000) ∨ 0x10000 + s.params.bufBytes ≤ off) ∧
      (s.events = [readAt s.params off] ∨ s.events = [writeAt s.params off 5]) := by decide +kernel

theorem test_witness_UndefinedAccesses :
    ∀ a ∈ [({ addr := 0x4000, dir := .read, width := 8 } : Access), { addr := 0x4000, dir := .write 1, lanes := 0x7#4 },
        { addr := 0x23FFF, dir := .read }],
      let s := wide [.access a]
      s.params.hbcBase ≤ a.addr ∧ a.addr < s.params.hbcBase + s.params.windowBytes ∧ s.resetIn = false ∧
        (a.width ≠ 32 ∨ a.lanes ≠ 0xF#4 ∨ (a.addr - s.params.hbcBase) % 4 ≠ 0) ∧
        ({ s with resetIn := true } : State).resetIn = true ∧ s.events = [.access a] := by decide +kernel

theorem test_witness_CtrlWrite : ∀ n ∈ [0, 1, 0xFFFFFFFD],
    let v := BitVec.ofNat 32 n
    let s := running th 8 [writeAt Config.defaultParams 0x004 v]
    s.params.wf = true ∧ s.resetIn = false ∧ v.getLsbD 1 = false ∧ s.events = [writeAt s.params 0x004 v] := by
  decide +kernel

theorem test_witness_StatusWrite : ∀ n ∈ [0, 2, 8, 0xFFFFFFFF],
    let v := BitVec.ofNat 32 n
    let s := running { th with drop := true } 8 [writeAt Config.defaultParams 0x008 v]
    s.params.wf = true ∧ s.resetIn = false ∧ s.events = [writeAt s.params 0x008 v] := by decide +kernel

/-- One witness a clause: each operand and window register, ROOT, the read-only registers, read and written. -/
theorem test_witness_IdleRegisterAccesses :
    ∀ off ∈ [0x00C, 0x010, 0x014, 0x018, 0x01C, 0x020, 0x024, 0x028, 0x02C, 0x030, 0x034, 0x038, 0x03C, 0x040, 0x044,
        0x048, 0x04C, 0x050],
      ∀ e ∈ [readAt Config.defaultParams off, writeAt Config.defaultParams off 0xFFFFFFFF#32],
      let s := { th with events := [e] }
      s.params.wf = true ∧ s.resetIn = false ∧ s.seq = none ∧
        (s.events = [readAt s.params off] ∨ s.events = [writeAt s.params off 0xFFFFFFFF#32]) := by decide +kernel

theorem test_witness_BufWindow : ∀ k ∈ [0, 252],
    ∀ e ∈ [readAt Config.defaultParams (0x10000 + k), writeAt Config.defaultParams (0x10000 + k) 5],
    ∀ s ∈ [({ th with events := [e] } : State), running th 8 [e]],
      s.params.wf = true ∧ s.resetIn = false ∧ k % 4 = 0 ∧ k + 4 ≤ s.params.bufBytes ∧ s.events = [e] := by
  decide +kernel

/-! ### Commands -/

theorem next_of_isSome {r : Result} (h : (after r).isSome = true) : ∃ t, r = .next t := by
  cases r with
  | next t => exact ⟨t, rfl⟩
  | fault f => cases h
  | refused f => cases h

/-- Each command completes somewhere: on `Ta`, its operands 0. -/
theorem test_witness_exec_next (i : Instr) : ∃ t, exec i ta = .next t :=
  next_of_isSome (by cases i <;> decide +kernel)

/-! ### Commands. `∃ t, exec i s = .next t` for every command: `test_witness_exec_next`. -/

theorem ok_of_errcode {r : Result} (h : (after r).map (·.errcode) = some .ok) : ∃ t, r = .next t ∧ t.errcode = .ok := by
  cases r with
  | next t => exact ⟨t, rfl, by simpa [after] using h⟩
  | fault f => cases h
  | refused f => cases h

theorem th_hasTree {s : State} (h : s.node = thNodes) : s.HasTree 0 thTree [0, 1, 2, 3, 4, 5, 6] := by
  refine ⟨?_, by decide, by decide⟩
  have e : s.nodeAt = fun i => (Ram.get? thNodes i).getD (s.unlistedNode i) := by funext i; rw [State.nodeAt, h]
  rw [e]
  exact .node 0 _ _ [1, 2, 3] [4, 5, 6] rfl (.node 1 _ _ [2] [3] rfl (.leaf 2 rfl) (.leaf 3 rfl))
    (.node 4 _ _ [5] [6] rfl (.leaf 5 rfl) (.leaf 6 rfl))

theorem ta_hasTree {s : State} (h : s.node = ta.node) : s.HasTree 0 (.leaf 0x61) [0] := by
  refine ⟨?_, by decide, by decide⟩
  have e : s.nodeAt = fun i => (Ram.get? ta.node i).getD (s.unlistedNode i) := by funext i; rw [State.nodeAt, h]
  rw [e]
  exact .leaf 0 rfl

theorem twoLeaves_hasTree (w : Word) {s : State} (h : s.node = (twoLeaves w).node) :
    s.HasTree 0 (.node (.leaf 0x61) (.leaf w)) [0, 1, 2] := by
  refine ⟨?_, by decide, by decide⟩
  have e : s.nodeAt = fun i => (Ram.get? (twoLeaves w).node i).getD (s.unlistedNode i) := by
    funext i; rw [State.nodeAt, h]
  rw [e]
  exact .node 0 _ _ [1] [2] rfl (.leaf 1 rfl) (.leaf 2 rfl)

theorem test_witness_BadRange :
    ¬EncodeRangesOk (withIO th 2 1 0x80 4).operands 256 ∧ ¬EncodeRangesOk (withIO th 0xFC 2 0 4).operands 256 ∧
    ¬EncodeRangesOk (withIO th 0 5 0x13 1).operands 256 ∧ ¬DecodeRangesOk (withIO th 0 9 0xFE 2).operands 256 ∧
    ¬DecodeRangesOk (withIO th 0xFF 9 0 4).operands 256 ∧ ¬TreeSerRangesOk (withIO th 0 0 0xFF 2).operands 256 ∧
    ¬TreeDeserRangesOk (withIO th 0xFE 17 0 0).operands 256 := by
  unfold EncodeRangesOk DecodeRangesOk TreeSerRangesOk TreeDeserRangesOk RegionsApart
  decide +kernel

theorem test_witness_NoTree :
    let s := withIO State.reset 0x80 10 0xC0 64
    s.operands.treeValid = false ∧ DecodeRangesOk s.operands s.params.bufBytes ∧
      TreeSerRangesOk s.operands s.params.bufBytes := by
  unfold DecodeRangesOk TreeSerRangesOk RegionsApart
  decide +kernel

theorem test_witness_NodeIndex :
    131071 ≤ ({ th with nodeIdx := 131071 } : State).operands.nodeIdx.toNat ∧
    ({ th with nodeIdx := 131070 } : State).operands.nodeIdx.toNat < 131071 := by decide +kernel

theorem test_witness_TreeCommitAccepts : th.HasTree th.operands.root.toNat thTree [0, 1, 2, 3, 4, 5, 6] :=
  th_hasTree rfl

theorem test_witness_TreeCommitAcceptsOnly : ∃ u, exec .treeCommit th = .next u ∧ u.errcode = .ok :=
  ok_of_errcode (by decide +kernel)

/-- V-TC-4: index 1 is reached twice; V-TC-3: ROOT = NODE_CAP. -/
def sharedChild : State :=
  { State.reset with node := [(0, ⟨false, 0, 1, 1⟩), (1, ⟨true, 0x61, 0, 0⟩)] }

/-- Every entry of NODE is internal, its left child the next entry; ROOT = 0. -/
def fullChain : State :=
  { State.reset with
    node := Ram.store [] 0 ((List.range 131071).map fun i =>
      { kind := false, sym := 0, left := BitVec.ofNat 32 (i + 1), right := 0 }) }

theorem fullChain_nodeAt (i : Nat) (h : i < 131071) :
    fullChain.nodeAt i = { kind := false, sym := 0, left := BitVec.ofNat 32 (i + 1), right := 0 } := by
  simp only [State.nodeAt, fullChain]
  rw [Ram.get?_store, if_pos (by rw [List.length_map, List.length_range]; omega), Nat.sub_zero, List.getElem?_map,
    List.getElem?_range h]
  rfl

/-- The first `k` turns of the loop of R122 on `fullChain` visit the entries below `k`; the next reference is `k`. -/
theorem fullChain_steps (k : Nat) (h : k ≤ 131071) :
    Relation.ReflTransGen (WalkStep fullChain.nodeAt) ([0], []) (k :: List.replicate k 0, (List.range k).reverse) := by
  induction k with
  | zero => exact .refl
  | succ k ih =>
    have hn := fullChain_nodeAt k (by omega)
    have step := WalkStep.node (nodeAt := fullChain.nodeAt) k (List.replicate k 0) (List.range k).reverse (by omega)
      (by simp) (by rw [hn])
    have hl : (BitVec.ofNat 32 (k + 1)).toNat = k + 1 := (BitVec.toNat_ofNat ..).trans (Nat.mod_eq_of_lt (by omega))
    rw [hn] at step
    dsimp only at step
    rw [hl] at step
    rw [List.replicate_succ, List.range_succ, List.reverse_append]
    exact (ih (by omega)).tail step

/-- The largest ERR_POS of TREE_COMMIT is met: R122's loop visits all of `fullChain` and has one more reference to follow, so
that it fails at NODE_CAP, above the bound that R33 derives (log entry 15). -/
theorem test_witness_ErrPosBound :
    (∃ (stack seen : List Nat), Relation.ReflTransGen (WalkStep fullChain.nodeAt) ([0], []) (131071 :: stack, seen) ∧
      seen.length = 131071) ∧
    ∃ t, exec .treeCommit fullChain = .next t ∧ t.errcode = .corruptTree ∧ t.errPos.toNat = 131071 := by
  have h := fullChain_steps 131071 (Nat.le_refl _)
  have hl : (List.range 131071).reverse.length = 131071 := by rw [List.length_reverse, List.length_range]
  generalize List.replicate 131071 0 = stack, (List.range 131071).reverse = seen at h hl
  refine ⟨⟨stack, seen, h, hl⟩, _, exec_of_none (staticError_none (rangesOk_other _ _ (by decide)) (by decide)), ?_⟩
  have hw : fullChain.walkFrom fullChain.operands.root.toNat = .error 131071 := hl ▸ walkFrom_error h (.inl (Nat.le_refl _))
  rw [hw]
  exact ⟨rfl, rfl⟩

theorem test_witness_TreeCommitReports :
    (∃ c stack seen, Relation.ReflTransGen (WalkStep sharedChild.nodeAt) ([sharedChild.operands.root.toNat], [])
      (c :: stack, seen) ∧ c ∈ seen) ∧
    (∃ (s : State) (c : Nat) (stack seen : List Nat),
      Relation.ReflTransGen (WalkStep s.nodeAt) ([s.operands.root.toNat], []) (c :: stack, seen) ∧ 131071 ≤ c) := by
  refine ⟨⟨1, [], [1, 0], ?_, by decide⟩, ⟨{ State.reset with root := 131071 }, 131071, [], [], .refl, by decide⟩⟩
  exact .tail (.single (.node 0 [] [] (by decide) (by decide) rfl)) (.leaf 1 [1] [0] (by decide) (by decide) rfl)

theorem test_witness_CtWrite :
    0xFFFF < ({ th with ctSym := 0x10000 } : State).operands.ctSym.toNat ∧
    (let s := { th with ctSym := 0xFFFF, ctLen := 33 }
     s.operands.ctSym.toNat ≤ 0xFFFF ∧ 32 < s.operands.ctLen.toNat) ∧
    (let s := { th with ctSym := 0xFFFF, ctLen := 0 }
     Ram.wf s.code ∧ s.operands.ctSym.toNat ≤ 0xFFFF ∧ s.operands.ctLen.toNat ≤ 32 ∧ s.operands.ctLen = 0) ∧
    (let s := { th with ctSym := 0x6C, ctLen := 32 }
     Ram.wf s.code ∧ s.operands.ctSym.toNat ≤ 0xFFFF ∧ s.operands.ctLen.toNat ≤ 32 ∧ s.operands.ctLen ≠ 0) := by
  decide +kernel

theorem test_witness_CtRead :
    0xFFFF < ({ th with ctSym := 0x10000 } : State).operands.ctSym.toNat ∧
    (let s := { th with ctSym := 0xFFFF }
     s.operands.ctSym.toNat ≤ 0xFFFF ∧ s.codeAt s.operands.ctSym.toNat = none) ∧
    (let s := { th with ctSym := 0x41, code := [(0x41, List.replicate 32 true)] }
     s.operands.ctSym.toNat ≤ 0xFFFF ∧ s.codeAt s.operands.ctSym.toNat = some (List.replicate 32 true) ∧
       (List.replicate 32 true).length ≤ 32) := by decide +kernel

theorem th_symbolsFit : thTree.symbolsFit := by unfold HTree.symbolsFit; decide +kernel

theorem test_witness_CtGenDerives :
    th.operands.treeValid = true ∧ th.HasTree th.operands.root.toNat thTree [0, 1, 2, 3, 4, 5, 6] ∧ thTree.symbolsFit ∧
      (thTree.codes.map (·.1)).Nodup ∧ (∀ x ∈ thTree.codes, x.2.length ≤ 32) :=
  ⟨rfl, th_hasTree rfl, th_symbolsFit, by decide +kernel, by decide +kernel⟩

/-- V-CT-6: a chain of depth `n` whose leaves carry `a`, `a + 1`, ... -/
def chain (a : Nat) : Nat → HTree
  | 0 => .leaf (BitVec.ofNat 32 a)
  | n + 1 => .node (.leaf (BitVec.ofNat 32 a)) (chain (a + 1) n)

/-- V-CT-6 in NODE, committed. -/
def deepState : State :=
  { State.reset with node := putTree [] 0 (chain 0 33), treeValid := true, nodeCount := 67, leafCount := 34 }

theorem test_witness_CtGenReports :
    (∃ (s : State) (t : HTree) (ixs : List Nat) (pre post : List (Option (Word × List Bool))) (w : Word) (p : List Bool),
      s.operands.treeValid = true ∧ s.HasTree s.operands.root.toNat t ixs ∧ t.preorder = pre ++ some (w, p) :: post ∧
      (∀ x ∈ pre.filterMap id, x.1.toNat ≤ 0xFFFF ∧ x.2.length ≤ 32) ∧ ((pre.filterMap id).map (·.1)).Nodup ∧
      0xFFFF < w.toNat) ∧
    (∃ (s : State) (t : HTree) (ixs : List Nat) (pre post : List (Option (Word × List Bool))) (w : Word) (p : List Bool),
      s.operands.treeValid = true ∧ s.HasTree s.operands.root.toNat t ixs ∧ t.preorder = pre ++ some (w, p) :: post ∧
      (∀ x ∈ pre.filterMap id, x.1.toNat ≤ 0xFFFF ∧ x.2.length ≤ 32) ∧ ((pre.filterMap id).map (·.1)).Nodup ∧
      w.toNat ≤ 0xFFFF ∧ w ∈ (pre.filterMap id).map (·.1)) ∧
    (∃ (s : State) (t : HTree) (ixs : List Nat) (pre post : List (Option (Word × List Bool))) (w : Word) (p : List Bool),
      s.operands.treeValid = true ∧ s.HasTree s.operands.root.toNat t ixs ∧ t.preorder = pre ++ some (w, p) :: post ∧
      (∀ x ∈ pre.filterMap id, x.1.toNat ≤ 0xFFFF ∧ x.2.length ≤ 32) ∧ ((pre.filterMap id).map (·.1)).Nodup ∧
      w.toNat ≤ 0xFFFF ∧ w ∉ (pre.filterMap id).map (·.1) ∧ 32 < p.length) := by
  refine ⟨⟨twoLeaves 0x10000, _, _, [none, some (0x61, [false])], [], 0x10000, [true], rfl, twoLeaves_hasTree _ rfl, rfl,
      by decide +kernel, by decide +kernel, by decide⟩,
    ⟨twoLeaves 0x61, _, _, [none, some (0x61, [false])], [], 0x61, [true], rfl, twoLeaves_hasTree _ rfl, rfl,
      by decide +kernel, by decide +kernel, by decide, by decide⟩,
    ⟨deepState, chain 0 33, _, (chain 0 33).preorder.take 65, [some (33, List.replicate 33 true)], 32,
      List.replicate 32 true ++ [false], rfl, hasTree_putTree (m := []) ?_ (by decide +kernel) rfl, ?_, ?_, ?_, by decide,
      ?_, by decide⟩⟩
  · unfold HTree.symbolsFit; decide +kernel
  all_goals decide +kernel

theorem test_witness_CtGenPrefixFree :
    th.operands.treeValid = true ∧ th.HasTree th.operands.root.toNat thTree [0, 1, 2, 3, 4, 5, 6] ∧
      ∃ u, exec .ctGen th = .next u ∧ u.errcode = .ok :=
  ⟨rfl, th_hasTree rfl, ok_of_errcode (by decide +kernel)⟩

/-- V-EN-2's state: "hello" under `Th`. -/
def enHello : State := withIO { th with buf := hello } 0 5 0x80 2

def helloCodes : List Code := [[false, false], [false, true], [true, true], [true, true], [true, false]]

theorem enHello_ranges : EncodeRangesOk enHello.operands enHello.params.bufBytes := by
  unfold EncodeRangesOk RegionsApart; decide +kernel

/-- V-EN-2 with the least DST_CAP that holds the 10 bits. -/
theorem test_witness_EncodeConcatenates :
    enHello.params.wf = true ∧ EncodeRangesOk enHello.operands enHello.params.bufBytes ∧
    helloCodes.length = enHello.operands.srcLen.toNat ∧
    (∀ j (h : j < helloCodes.length), (enHello.readWord (enHello.operands.srcAddr.toNat + 4 * j)).toNat ≤ 0xFFFF ∧
      enHello.codeAt (enHello.readWord (enHello.operands.srcAddr.toNat + 4 * j)).toNat = some helloCodes[j]) ∧
    helloCodes.flatten.length ≤ 8 * enHello.operands.dstCap.toNat ∧
    (∀ c ∈ helloCodes, 1 ≤ c.length ∧ c.length ≤ 32) :=
  ⟨by decide +kernel, enHello_ranges, by decide +kernel, by decide +kernel, by decide +kernel, by decide +kernel⟩

/-- What the hypotheses of `EncodeReportsTheFirstBadSymbol` say before its clauses. -/
def EncodesUpTo (s : State) (codes : List Code) : Prop :=
  EncodeRangesOk s.operands s.params.bufBytes ∧ codes.length < s.operands.srcLen.toNat ∧
    (∀ j (h : j < codes.length), (s.readWord (s.operands.srcAddr.toNat + 4 * j)).toNat ≤ 0xFFFF ∧
      s.codeAt (s.readWord (s.operands.srcAddr.toNat + 4 * j)).toNat = some codes[j]) ∧
    codes.flatten.length ≤ 8 * s.operands.dstCap.toNat

/-- V-EN-6, V-EN-5 and V-EN-7. -/
theorem test_witness_EncodeReports :
    (∃ s codes, EncodesUpTo s codes ∧ 0xFFFF < (s.readWord (s.operands.srcAddr.toNat + 4 * codes.length)).toNat) ∧
    (∃ s codes, EncodesUpTo s codes ∧ (s.readWord (s.operands.srcAddr.toNat + 4 * codes.length)).toNat ≤ 0xFFFF ∧
      s.codeAt (s.readWord (s.operands.srcAddr.toNat + 4 * codes.length)).toNat = none) ∧
    (∃ s codes, EncodesUpTo s codes ∧ (s.readWord (s.operands.srcAddr.toNat + 4 * codes.length)).toNat ≤ 0xFFFF ∧
      ∃ c, s.codeAt (s.readWord (s.operands.srcAddr.toNat + 4 * codes.length)).toNat = some c ∧
        8 * s.operands.dstCap.toNat < codes.flatten.length + c.length) := by
  refine ⟨⟨withIO { th with buf := bytes 0 [0, 0, 0, 0x68, 0, 1, 0, 0] } 0 2 0x80 4, [[false, false]], ?_, ?_⟩,
    ⟨withIO { th with buf := bytes 0 [0, 0, 0, 0x68, 0, 0, 0xFF, 0xFF] } 0 2 0x80 4, [[false, false]], ?_, ?_⟩,
    ⟨{ enHello with dstCap := 1 }, helloCodes.take 4, ?_, by decide +kernel, [true, false], by decide +kernel⟩⟩
  all_goals try unfold EncodesUpTo EncodeRangesOk RegionsApart
  all_goals decide +kernel

/-- V-DE-2's state. -/
def deHello : State := withIO { th with buf := bytes 0x80 [0x1F, 0x80] } 0x80 10 0xC0 20

def helloOut : List (Word × List Bool) :=
  [(0x68, [false, false]), (0x65, [false, true]), (0x6C, [true, true]), (0x6C, [true, true]), (0x6F, [true, false])]

theorem test_witness_DecodeWalks :
    deHello.params.wf = true ∧ DecodeRangesOk deHello.operands deHello.params.bufBytes ∧
    deHello.operands.treeValid = true ∧ deHello.HasTree deHello.operands.root.toNat thTree [0, 1, 2, 3, 4, 5, 6] ∧
    deHello.readBits deHello.operands.srcAddr.toNat deHello.operands.srcLen.toNat = (helloOut.map (·.2)).flatten ∧
    (∀ x ∈ helloOut, thTree.symAt x.2 = some x.1) ∧ 4 * helloOut.length ≤ deHello.operands.dstCap.toNat :=
  ⟨by decide +kernel, by unfold DecodeRangesOk RegionsApart; decide +kernel, rfl, th_hasTree rfl, by decide +kernel,
    by decide +kernel, by decide +kernel⟩

/-- V-DE-5. -/
theorem test_witness_DecodeTruncated :
    let s := { deHello with srcLen := 9 }
    DecodeRangesOk s.operands s.params.bufBytes ∧ s.operands.treeValid = true ∧
    s.HasTree s.operands.root.toNat thTree [0, 1, 2, 3, 4, 5, 6] ∧
    s.readBits s.operands.srcAddr.toNat s.operands.srcLen.toNat = ((helloOut.take 4).map (·.2)).flatten ++ [true] ∧
    (∀ x ∈ helloOut.take 4, thTree.symAt x.2 = some x.1) ∧ 4 * (helloOut.take 4).length ≤ s.operands.dstCap.toNat ∧
    [true] ≠ ([] : List Bool) ∧ thTree.at? [true] = some (.node (.leaf 0x6F) (.leaf 0x6C)) :=
  ⟨by unfold DecodeRangesOk RegionsApart; decide +kernel, rfl, th_hasTree rfl, by decide +kernel,
    by decide +kernel, by decide +kernel, by decide, rfl⟩

/-- V-DE-7: DST_CAP = 19 holds 4 symbols. -/
theorem test_witness_DecodeOverflow :
    let s := { deHello with dstCap := 19 }
    DecodeRangesOk s.operands s.params.bufBytes ∧ s.operands.treeValid = true ∧
    s.HasTree s.operands.root.toNat thTree [0, 1, 2, 3, 4, 5, 6] ∧
    s.readBits s.operands.srcAddr.toNat s.operands.srcLen.toNat =
      ((helloOut.take 4).map (·.2)).flatten ++ [true, false] ++ [] ∧
    (∀ x ∈ helloOut.take 4, thTree.symAt x.2 = some x.1) ∧ thTree.symAt [true, false] = some 0x6F ∧
    4 * (helloOut.take 4).length ≤ s.operands.dstCap.toNat ∧
    s.operands.dstCap.toNat < 4 * ((helloOut.take 4).length + 1) :=
  ⟨by unfold DecodeRangesOk RegionsApart; decide +kernel, rfl, th_hasTree rfl, by decide +kernel,
    by decide +kernel, by decide +kernel, by decide +kernel, by decide +kernel⟩

/-- V-DE-1 and V-DE-12: 16 bytes hold the 4 symbols, 12 do not (nor do 15). -/
theorem test_witness_DecodeSingleLeaf : ∀ n ∈ [16, 15],
    let s := withIO ta 0x80 4 0xC0 (BitVec.ofNat 32 n)
    s.params.wf = true ∧ DecodeRangesOk s.operands s.params.bufBytes ∧ s.operands.treeValid = true ∧
    s.HasTree s.operands.root.toNat (.leaf 0x61) [0] ∧
    (n = 16 → 4 * s.operands.srcLen.toNat ≤ s.operands.dstCap.toNat) ∧
    (n = 15 → s.operands.dstCap.toNat < 4 * s.operands.srcLen.toNat) := by
  intro n hn
  have h : n = 16 ∨ n = 15 := by simpa using hn
  refine ⟨test_params_wf, ?_, rfl, ta_hasTree rfl, ?_⟩
  · unfold DecodeRangesOk RegionsApart; rcases h with rfl | rfl <;> decide +kernel
  · rcases h with rfl | rfl <;> decide +kernel

theorem th_ctGen : exec .ctGen th = .next { th with done := true, outLen := 4 } := eq_next (by decide +kernel)

theorem enHello_encode :
    exec .encode enHello = .next { enHello with
      done := true, outLen := 10, buf := Ram.store hello 0x80 [0x1F, 0x80] } := eq_next (by decide +kernel)

/-- V-EN-2 with V-DE-2, as P2 runs them. -/
theorem test_witness_EncodeDecodeRoundTrip :
    ∃ (g g' e e' d : State) (t : HTree) (ixs : List Nat),
      g.operands.treeValid = true ∧ g.HasTree g.operands.root.toNat t ixs ∧
      exec .ctGen g = .next g' ∧ g'.errcode = .ok ∧
      e.params.wf = true ∧ e.code = g'.code ∧ exec .encode e = .next e' ∧ e'.errcode = .ok ∧
      d.params.wf = true ∧ d.operands.treeValid = true ∧ d.operands.root = g.operands.root ∧
      (∀ i, d.nodeAt i = g.nodeAt i) ∧ d.operands.srcLen = e'.outLen ∧
      d.readBits d.operands.srcAddr.toNat e'.outLen.toNat = e'.readBits e.operands.dstAddr.toNat e'.outLen.toNat ∧
      DecodeRangesOk d.operands d.params.bufBytes ∧ 4 * e.operands.srcLen.toNat ≤ d.operands.dstCap.toNat :=
  ⟨th, _, enHello, _, deHello, thTree, _, rfl, th_hasTree rfl, th_ctGen, rfl, rfl, rfl, enHello_encode, rfl, rfl, rfl, rfl,
    fun _ => rfl, by decide +kernel, by decide +kernel, by unfold DecodeRangesOk RegionsApart; decide +kernel,
    by decide +kernel⟩

/-- V-TS-2 with the least DST_CAP. -/
theorem test_witness_TreeSerStores :
    let s := withIO th 0 0 0x40 9
    s.params.wf = true ∧ TreeSerRangesOk s.operands s.params.bufBytes ∧ s.operands.treeValid = true ∧
    s.HasTree s.operands.root.toNat thTree [0, 1, 2, 3, 4, 5, 6] ∧ thTree.symbolsFit ∧
    18 * thTree.leaves - 1 ≤ 8 * s.operands.dstCap.toNat :=
  ⟨by decide +kernel, by unfold TreeSerRangesOk; decide +kernel, rfl, th_hasTree rfl, th_symbolsFit, by decide +kernel⟩

/-- V-TS-7, V-TS-6, and an internal node that does not fit. -/
theorem test_witness_TreeSerReports :
    (∃ (s : State) (t : HTree) (ixs : List Nat) (pre post : List (Option (Word × List Bool))) (w : Word) (p : List Bool),
      TreeSerRangesOk s.operands s.params.bufBytes ∧ s.operands.treeValid = true ∧
      s.HasTree s.operands.root.toNat t ixs ∧ t.preorder = pre ++ some (w, p) :: post ∧
      (∀ y ∈ pre.filterMap id, y.1.toNat ≤ 0xFFFF) ∧ streamBits pre ≤ 8 * s.operands.dstCap.toNat ∧ 0xFFFF < w.toNat) ∧
    (∃ (s : State) (t : HTree) (ixs : List Nat) (pre post : List (Option (Word × List Bool))) (w : Word) (p : List Bool),
      TreeSerRangesOk s.operands s.params.bufBytes ∧ s.operands.treeValid = true ∧
      s.HasTree s.operands.root.toNat t ixs ∧ t.preorder = pre ++ some (w, p) :: post ∧
      (∀ y ∈ pre.filterMap id, y.1.toNat ≤ 0xFFFF) ∧ streamBits pre ≤ 8 * s.operands.dstCap.toNat ∧ w.toNat ≤ 0xFFFF ∧
      8 * s.operands.dstCap.toNat < streamBits pre + streamBits [some (w, p)]) ∧
    (∃ (s : State) (t : HTree) (ixs : List Nat) (pre post : List (Option (Word × List Bool))),
      TreeSerRangesOk s.operands s.params.bufBytes ∧ s.operands.treeValid = true ∧
      s.HasTree s.operands.root.toNat t ixs ∧ t.preorder = pre ++ none :: post ∧
      (∀ y ∈ pre.filterMap id, y.1.toNat ≤ 0xFFFF) ∧ streamBits pre ≤ 8 * s.operands.dstCap.toNat ∧
      8 * s.operands.dstCap.toNat < streamBits pre + streamBits [none]) := by
  refine ⟨⟨withIO (twoLeaves 0x10000) 0 0 0x40 16, _, _, [none, some (0x61, [false])], [], 0x10000, [true], ?_, rfl,
      twoLeaves_hasTree _ rfl, rfl, by decide +kernel, by decide +kernel, by decide⟩,
    ⟨withIO th 0 0 0x40 8, thTree, _, thTree.preorder.take 6, [], 0x6C, [true, true], ?_, rfl, th_hasTree rfl, rfl,
      by decide +kernel, by decide +kernel, by decide, by decide +kernel⟩,
    ⟨withIO th 0 0 0x40 0, thTree, _, [], thTree.preorder.drop 1, ?_, rfl, th_hasTree rfl, rfl, by decide +kernel,
      by decide +kernel, by decide +kernel⟩⟩
  all_goals unfold TreeSerRangesOk; decide +kernel

/-- V-TD-2. -/
theorem test_witness_TreeDeserRebuilds :
    let s := withIO { State.reset with buf := bytes 0x40 thStream } 0x40 71 0 0
    TreeDeserRangesOk s.operands s.params.bufBytes ∧ thTree.symbolsFit ∧ thTree.size ≤ 131071 ∧
      s.readBits s.operands.srcAddr.toNat s.operands.srcLen.toNat = thTree.stream :=
  ⟨by unfold TreeDeserRangesOk; decide +kernel, th_symbolsFit, by decide +kernel, by decide +kernel⟩

/-- V-TD-4 (the stream is cut inside the symbol) and V-TD-5 (a bit too many). -/
theorem test_witness_TreeDeserReports_corrupt :
    (∃ (s : State) (t : HTree) (rest : List Bool) (n : Nat),
      TreeDeserRangesOk s.operands s.params.bufBytes ∧ t.symbolsFit ∧
      s.readBits s.operands.srcAddr.toNat s.operands.srcLen.toNat ++ rest = t.stream ∧ rest ≠ [] ∧ n ≤ 131071 ∧
      (s.readBits s.operands.srcAddr.toNat s.operands.srcLen.toNat).length ≤ streamBits (t.preorder.take n)) ∧
    (∃ (s : State) (t : HTree) (rest : List Bool),
      TreeDeserRangesOk s.operands s.params.bufBytes ∧ t.symbolsFit ∧
      s.readBits s.operands.srcAddr.toNat s.operands.srcLen.toNat = t.stream ++ rest ∧ rest ≠ [] ∧ t.size ≤ 131071) := by
  refine ⟨⟨withIO { State.reset with buf := bytes 0x40 [0x80, 0x30, 0x80] } 0x40 16 0 0, .leaf 0x61, [true], 1, ?_, ?_,
      by decide +kernel, by decide, by decide, by decide +kernel⟩,
    ⟨withIO { State.reset with buf := bytes 0x40 [0x80, 0x30, 0x80] } 0x40 18 0 0, .leaf 0x61, [false], ?_, ?_,
      by decide +kernel, by decide, by decide⟩⟩
  all_goals first | (unfold TreeDeserRangesOk; decide +kernel) | (unfold HTree.symbolsFit; decide +kernel)

/-- A tree of `n` internal nodes one below the other, each the left child of the one above; every symbol is 0. -/
def leftChain : Nat → HTree
  | 0 => .leaf 0
  | n + 1 => .node (leftChain n) (.leaf 0)

theorem leftChain_entries (n : Nat) (p : List Bool) :
    ∃ tail, (leftChain n).entries p = List.replicate n none ++ tail := by
  induction n generalizing p with
  | zero => exact ⟨_, rfl⟩
  | succ n ih =>
    obtain ⟨tail, h⟩ := ih (p ++ [false])
    exact ⟨tail ++ (HTree.leaf 0).entries (p ++ [true]), by
      simp only [leftChain, HTree.entries, h, List.replicate_succ, List.append_assoc, List.cons_append]⟩

theorem leftChain_stream (n : Nat) : ∃ tail, (leftChain n).stream = List.replicate n false ++ tail := by
  induction n with
  | zero => exact ⟨_, rfl⟩
  | succ n ih =>
    obtain ⟨tail, h⟩ := ih
    exact ⟨tail ++ (HTree.leaf 0).stream, by
      simp only [leftChain, HTree.stream, h, List.replicate_succ, List.append_assoc, List.cons_append]⟩

theorem leftChain_symAt (n : Nat) (p : List Bool) (w : Word) (h : (leftChain n).symAt p = some w) : w = 0 := by
  induction n generalizing p with
  | zero =>
    match p with
    | [] => exact (Option.some.inj h).symm
    | _ :: _ => cases h
  | succ n ih =>
    match p with
    | [] => cases h
    | false :: q => exact ih q h
    | [true] => exact (Option.some.inj h).symm
    | true :: _ :: _ => cases h

theorem leftChain_size (n : Nat) : (leftChain n).size = 2 * n + 1 := by
  induction n with
  | zero => decide
  | succ n ih => simp only [leftChain, HTree.size]; omega

theorem streamBits_replicate_none (n : Nat) : streamBits (List.replicate n none) = n := by
  simp [streamBits]

/-- The bits `p` at 0x00 of a BUF of 2 ^ 18 bytes, read by TREE_DESER. -/
def streamState (p : List Bool) : State :=
  withIO ({ State.reset with params := { Config.defaultParams with bufBytes := 2 ^ 18 } }.bitStore 0 p) 0
    (BitVec.ofNat 32 p.length) 0 0

theorem streamState_srcLen (p : List Bool) (h : p.length ≤ 2 ^ 21) : (streamState p).operands.srcLen.toNat = p.length :=
  (BitVec.toNat_ofNat ..).trans (Nat.mod_eq_of_lt (by omega))

theorem streamState_bits (p : List Bool) (h : p.length ≤ 2 ^ 21) :
    (streamState p).readBits (streamState p).operands.srcAddr.toNat (streamState p).operands.srcLen.toNat = p := by
  rw [streamState_srcLen p h]
  exact readBits_bitStore { State.reset with params := { Config.defaultParams with bufBytes := 2 ^ 18 } } 0 p

theorem streamState_ranges (p : List Bool) (h : p.length ≤ 2 ^ 21) :
    TreeDeserRangesOk (streamState p).operands (streamState p).params.bufBytes := by
  have a : (streamState p).operands.srcAddr.toNat = 0 := rfl
  have b : (streamState p).params.bufBytes = 2 ^ 18 := rfl
  rw [TreeDeserRangesOk, a, b, streamState_srcLen p h]; omega

theorem leftChain_symbolsFit (n : Nat) : (leftChain n).symbolsFit :=
  (HTree.symbolsFit_iff _).2 fun q w h => by rw [leftChain_symAt _ q w h]; exact Nat.zero_le _

theorem leftover_witness (t : HTree) (hf : t.symbolsFit) (hs : 131071 < t.size) (hl : t.stream.length < 2 ^ 21) :
    ∃ (s : State) (t : HTree) (more : List Bool),
      TreeDeserRangesOk s.operands s.params.bufBytes ∧ t.symbolsFit ∧
      s.readBits s.operands.srcAddr.toNat s.operands.srcLen.toNat ++ [] = t.stream ++ more ∧ more ≠ [] ∧
      131071 < t.size ∧
      streamBits (t.preorder.take 131071) < (s.readBits s.operands.srcAddr.toNat s.operands.srcLen.toNat).length := by
  have hr : (t.stream ++ [true]).length = t.stream.length + 1 := List.length_append ..
  have hb : streamBits (t.preorder.take 131071) ≤ streamBits t.preorder := by
    conv => rhs; rw [← List.take_append_drop 131071 t.preorder, streamBits_append]
    exact Nat.le_add_right ..
  refine ⟨streamState (t.stream ++ [true]), t, [true], streamState_ranges _ (by omega), hf, ?_, by decide, hs, ?_⟩
  · rw [streamState_bits _ (by omega), List.append_nil]
  · rw [streamState_bits _ (by omega), hr, t.length_stream]; omega

/-- V-TD-11: a stream whose first 131072 bits are the tags of internal nodes, the last of them a node beyond NODE_CAP; and
the whole stream of a tree of 131073 nodes, one bit left over. -/
theorem test_witness_TreeDeserReports_capacity :
    (∃ (s : State) (t : HTree) (rest more : List Bool),
      TreeDeserRangesOk s.operands s.params.bufBytes ∧ t.symbolsFit ∧
      s.readBits s.operands.srcAddr.toNat s.operands.srcLen.toNat ++ rest = t.stream ++ more ∧ rest ≠ [] ∧
      131071 < t.size ∧
      streamBits (t.preorder.take 131071) < (s.readBits s.operands.srcAddr.toNat s.operands.srcLen.toNat).length) ∧
    (∃ (s : State) (t : HTree) (more : List Bool),
      TreeDeserRangesOk s.operands s.params.bufBytes ∧ t.symbolsFit ∧
      s.readBits s.operands.srcAddr.toNat s.operands.srcLen.toNat ++ [] = t.stream ++ more ∧ more ≠ [] ∧
      131071 < t.size ∧
      streamBits (t.preorder.take 131071) < (s.readBits s.operands.srcAddr.toNat s.operands.srcLen.toNat).length) := by
  constructor
  · obtain ⟨tail, ht⟩ := leftChain_stream 131072
    obtain ⟨more, hm⟩ := leftChain_entries 131072 []
    have hl := (leftChain 131072).length_stream_eq
    have hz := leftChain_size 131072
    have hv := (leftChain 131072).size_eq
    have ht' : tail ≠ [] := by
      rintro rfl
      have h := congrArg List.length ht
      rw [List.append_nil, List.length_replicate] at h
      omega
    have hr : (List.replicate 131072 false).length = 131072 := List.length_replicate
    generalize hp : List.replicate 131072 false = p at *
    refine ⟨streamState p, leftChain 131072, tail, [], streamState_ranges p (by omega), leftChain_symbolsFit _, ?_, ht',
      by omega, ?_⟩
    · rw [streamState_bits p (by omega), ht, List.append_nil]
    · rw [streamState_bits p (by omega), HTree.preorder, hm,
        List.take_append_of_le_length (by rw [List.length_replicate]; omega), List.take_replicate,
        streamBits_replicate_none]
      omega
  · exact leftover_witness _ (leftChain_symbolsFit 65536) (by have h := leftChain_size 65536; omega) (by
      have h := (leftChain 65536).length_stream_eq
      have h' := (leftChain 65536).size_eq
      have h'' := leftChain_size 65536
      omega)

theorem th_treeSer :
    exec .treeSer (withIO th 0 0 0x40 16) = .next { withIO th 0 0 0x40 16 with
      done := true, outLen := 71, buf := bytes 0x40 thStream } := eq_next (by decide +kernel)

/-- V-TS-2 with V-TD-2, as P2 runs them. -/
theorem test_witness_TreeCodecRoundTrip :
    ∃ (a a' b : State) (t : HTree) (ixs : List Nat),
      a.params.wf = true ∧ a.operands.treeValid = true ∧ a.HasTree a.operands.root.toNat t ixs ∧
      exec .treeSer a = .next a' ∧ a'.errcode = .ok ∧ b.params.wf = true ∧ b.operands.srcLen = a'.outLen ∧
      b.readBits b.operands.srcAddr.toNat a'.outLen.toNat = a'.readBits a.operands.dstAddr.toNat a'.outLen.toNat ∧
      TreeDeserRangesOk b.operands b.params.bufBytes :=
  ⟨withIO th 0 0 0x40 16, _, withIO { State.reset with buf := bytes 0x40 thStream } 0x40 71 0 0, thTree, _, rfl, rfl,
    th_hasTree rfl, th_treeSer, rfl, rfl, rfl, by decide +kernel, by unfold TreeDeserRangesOk; decide +kernel⟩

/-! ### Errors, interrupt, reset, invariants -/

theorem test_witness_SimultaneousEvents :
    ∀ off ∈ [0x004, 0x008, 0x00C, 0x010, 0x050, 0x10000, 0x100FC],
    ∀ d ∈ [Dir.read, .write 0xFFFFFFFF#32],
      let s := running { ta with ie := true } 0 [.accessFinish { addr := Config.defaultParams.hbcBase + off, dir := d }]
      s.params.wf = true ∧ s.resetIn = false ∧ s.seq ≠ none ∧ (0xFFFFFFFF#32).getLsbD 1 = true ∧
        s.events = [.accessFinish { addr := s.params.hbcBase + off, dir := d }] ∧ off % 4 = 0 ∧
        (after (step s)).isSome = true := by decide +kernel

/-- A completion while IE = 1, and a write of IE = 1 while DONE = 1. -/
theorem test_witness_InterruptRises :
    (∃ s t : State, step s = .next t ∧ s.irq = false ∧ t.irq = true ∧ s.busy = true) ∧
    (∃ s t : State, step s = .next t ∧ s.irq = false ∧ t.irq = true ∧ s.busy = false) :=
  ⟨⟨running { ta with ie := true } 0 [], { ta with ie := true, done := true }, eq_next (by decide +kernel), by decide,
      by decide, by decide⟩,
    ⟨{ ta with done := true, events := [writeAt Config.defaultParams 0x004 1] }, { ta with ie := true, done := true },
      eq_next (by decide +kernel), by decide, by decide, by decide⟩⟩

theorem test_witness_DropRises : ∃ s t : State, step s = .next t ∧ s.drop = false ∧ t.drop = true :=
  ⟨running ta 0 [writeAt Config.defaultParams 0x00C 7], { running ta 0 [] with drop := true },
    eq_next (by decide +kernel), rfl, rfl⟩

/-- TREE_COMMIT and TREE_DESER (V-TC-1, V-TD-1). -/
theorem test_witness_TreeValidRises :
    (∃ s t : State, step s = .next t ∧ s.treeValid = false ∧ t.treeValid = true ∧ t.root = 0 ∧ t.nodeCount = 7) ∧
    (∃ s t : State, step s = .next t ∧ s.treeValid = false ∧ t.treeValid = true ∧ t.root = 0 ∧ t.nodeCount = 1) :=
  ⟨⟨running { th with treeValid := false, nodeCount := 0, leafCount := 0 } 3 [], { th with done := true },
      eq_next (by decide +kernel), rfl, rfl, rfl, rfl⟩,
    ⟨running (withIO { State.reset with buf := bytes 0x40 [0x80, 0x30, 0x80], root := 4 } 0x40 17 0 0) 11 [],
      withIO { ta with code := [], buf := bytes 0x40 [0x80, 0x30, 0x80], done := true, outLen := 17 } 0x40 17 0 0,
      eq_next (by decide +kernel), rfl, rfl, rfl, rfl⟩⟩

theorem test_witness_PowerOn : ({ th with resetIn := true, events := [.resetRelease] } : State).resetIn = true := rfl

/-- Idle, and with each command running whose abandoning leaves something unspecified; NODE_IDX and SRC_LEN at their
bounds. -/
theorem test_witness_SoftReset :
    (let s := { th with events := [writeAt Config.defaultParams 0x004 3] }
     s.params.wf = true ∧ s.resetIn = false ∧ s.seq = none ∧ (3#32).getLsbD 1 = true ∧
       s.events = [writeAt s.params 0x004 3]) ∧
    ∀ n ∈ [1, 8, 9, 10, 11],
      let s := running (withIO { th with nodeIdx := 131070 } 0 0xFFFFFFFF 0x80 16) (BitVec.ofNat 32 n)
        [writeAt Config.defaultParams 0x004 2]
      s.params.wf = true ∧ s.resetIn = false ∧ (2#32).getLsbD 1 = true ∧ s.events = [writeAt s.params 0x004 2] := by
  decide +kernel

/-- A success and a failure that draws, from states with different draws. -/
theorem test_witness_OutcomeDepends :
    ∀ c ∈ [2, 1], ∃ s₁ s₂ t₁ t₂ : State, SameInputs s₁ s₂ ∧ exec .encode s₁ = .next t₁ ∧ exec .encode s₂ = .next t₂ ∧
      s₁.draws ≠ s₂.draws ∧ s₁.operands.dstCap = BitVec.ofNat 32 c := by
  intro c _
  obtain ⟨t₁, h₁⟩ : ∃ t, exec .encode { enHello with dstCap := BitVec.ofNat 32 c } = .next t := by
    simp only [exec, execEncode, State.checked]; split <;> exact ⟨_, rfl⟩
  obtain ⟨t₂, h₂⟩ : ∃ t, exec .encode { enHello with dstCap := BitVec.ofNat 32 c, draws := 5, ie := true } = .next t := by
    simp only [exec, execEncode, State.checked]; split <;> exact ⟨_, rfl⟩
  exact ⟨{ enHello with dstCap := BitVec.ofNat 32 c }, { enHello with dstCap := BitVec.ofNat 32 c, draws := 5, ie := true },
    t₁, t₂, ⟨rfl, rfl, fun _ => rfl, fun _ => rfl, rfl⟩, h₁, h₂, (by decide : (0 : Nat) ≠ 5), rfl⟩

/-- A state with a tree, a code table, something in BUF and ENCODE running. -/
def busyState (es : List Event) : State := running enHello 8 es

theorem busyState_storesOk (es : List Event) : (busyState es).StoresOk :=
  ⟨by exact test_params_wf, by exact (by decide +kernel : Memory.wf hello),
    by exact (by decide +kernel : ∀ c ∈ hello, c.1 < 256), by exact (by decide +kernel : Ram.wf thNodes),
    by exact (by decide +kernel : ∀ c ∈ thNodes, c.1 < 131071), by exact (by decide +kernel : Ram.wf thCode),
    by exact (by decide +kernel : ∀ c ∈ thCode, c.1 ≤ 0xFFFF ∧ 1 ≤ c.2.length ∧ c.2.length ≤ 32)⟩

theorem busyState_sequencerOk (es : List Event) : (busyState es).SequencerOk where
  cleared r _ := ⟨rfl, rfl, rfl, rfl⟩
  latched r h := by cases h; rfl
  treeCleared r h hc := by cases h; exact absurd hc (by decide)
  treeLatched r h _ := by cases h; rfl
  inReset h := by cases h

theorem busyState_treeOk (es : List Event) : (busyState es).TreeOk where
  valid _ := ⟨thTree, _, th_hasTree rfl, rfl, rfl⟩
  invalid h := by cases h

theorem step_busyState : step (busyState []) = .next { enHello with
    done := true, outLen := 10, buf := Ram.store hello 0x80 [0x1F, 0x80] } := eq_next (by decide +kernel)

theorem test_witness_StepKeepsInvariants :
    ∃ s t : State, s.StoresOk ∧ s.SequencerOk ∧ s.TreeOk ∧ step s = .next t :=
  ⟨_, _, busyState_storesOk [], busyState_sequencerOk [], busyState_treeOk [], step_busyState⟩

/-- CT_READ of a symbol with a code, in a state whose stores keep their bounds. -/
theorem test_witness_CtLenBound :
    let s := { busyState [] with ctSym := 0x6C, seq := none }
    s.StoresOk ∧ ∃ t, exec .ctRead s = .next t ∧ t.errcode = .ok :=
  ⟨let h := busyState_storesOk []; ⟨h.params, h.buf, h.bufBound, h.node, h.nodeBound, h.code, h.codeBound⟩,
    ok_of_errcode (by decide +kernel)⟩

theorem test_witness_RunningCommandsComplete : ∀ es ∈ [[], [Event.finish], [.wait 0]],
    let s := busyState es
    s.SequencerOk ∧ s.TreeOk ∧ s.busy = true ∧ (s.events = [] ∨ s.events = [.finish] ∨ s.events = [.wait 0]) := by
  intro es hes
  exact ⟨busyState_sequencerOk es, busyState_treeOk es, rfl, by simpa [busyState, running] using hes⟩

theorem test_witness_PollingSeesCompletion : ∀ (n : Nat) (es : List Event),
    let p := Config.defaultParams
    ∀ l ∈ [List.replicate n (readAt p 0x008) ++ .finish :: readAt p 0x008 :: es, waitEvents n ++ es],
      let s := busyState l
      s.params.wf = true ∧ s.resetIn = false ∧ s.SequencerOk ∧ s.TreeOk ∧ s.busy = true ∧ s.events = l ∧ s.params = p :=
  fun _ _ _ _ => ⟨test_params_wf, rfl, busyState_sequencerOk _, busyState_treeOk _, rfl, rfl, rfl⟩

end Sys2Proof.Tests
end

section
/-! PROOF. O8: reads of ID, CTRL and STATUS, and a write to ID, whatever BUSY (spec/10_state.md R22 to R24, R35). -/

namespace Sys2Proof.Machine

/-- R35: a read of a place that is open while BUSY = 1 is performed, whatever BUSY. -/
theorem step_readAt_open {s : State} {off : Nat} {p : Place} {es : List Event} (hr : s.resetIn = false)
    (he : s.events = readAt s.params off :: es) (ho : off < s.params.windowBytes) (h4 : off % 4 = 0)
    (hp : placeAt s.params.bufBytes off = p) (hopen : p.openWhileBusy = true) :
    step s = .next { s with events := es, readData := some (State.readPlace { s with events := es } p) } := by
  rw [step_readAt hr he ho h4, hp, accessPlace_open hopen]

/-- R35: a write to a place that is open while BUSY = 1 is performed, whatever BUSY. -/
theorem step_writeAt_open {s : State} {off : Nat} {p : Place} {v : Word} {es : List Event} (hr : s.resetIn = false)
    (he : s.events = writeAt s.params off v :: es) (ho : off < s.params.windowBytes) (h4 : off % 4 = 0)
    (hp : placeAt s.params.bufBytes off = p) (hopen : p.openWhileBusy = true) :
    step s = .next (State.writePlace { s with events := es } v p) := by
  rw [step_writeAt hr he ho h4, hp, accessPlace_open hopen]

/-- Every register of the map lies in an admissible window (R6, R70). -/
theorem register_offset_lt_windowBytes {p : Config.Params} {off : Nat} (hp : p.wf = true) (h : off < 0x10000) :
    off < p.windowBytes := by
  obtain ⟨-, -, -, hwin⟩ := (params_wf_iff p).mp hp
  omega

theorem ctrlWord_eq (s : State) : s.ctrlWord = if s.ie then 1#32 else 0#32 := by
  rw [State.ctrlWord]
  cases s.ie <;> rfl

theorem getLsbD_eq_of_toNat {w i : Nat} {x : BitVec w} {b : Bool} (h : x.toNat / 2 ^ i % 2 = b.toNat) :
    x.getLsbD i = b := by
  rw [BitVec.getLsbD, Nat.testBit_eq_decide_div_mod_eq, h]
  cases b <;> rfl

theorem ErrCode.toNat_le (e : ErrCode) : e.toNat ≤ 9 := by
  cases e <;> decide

/-- R24: each flag is one bit and ERRCODE fits its four, so no field of STATUS runs into the next. -/
theorem statusFields_le (s : State) :
    s.busy.toNat ≤ 1 ∧ s.done.toNat ≤ 1 ∧ s.treeValid.toNat ≤ 1 ∧ s.drop.toNat ≤ 1 ∧ s.errcode.toNat ≤ 9 :=
  ⟨s.busy.toNat_le, s.done.toNat_le, s.treeValid.toNat_le, s.drop.toNat_le, s.errcode.toNat_le⟩

theorem toNat_statusWord (s : State) :
    s.statusWord.toNat =
      s.busy.toNat + 2 * s.done.toNat + 4 * s.treeValid.toNat + 8 * s.drop.toNat + 256 * s.errcode.toNat := by
  have hle := statusFields_le s
  rw [State.statusWord, BitVec.toNat_ofNat]
  omega

/-- R24: bits 0, 2 and 3 of STATUS are BUSY, TREE_VALID and DROP (bit 1 is `statusWord_done`). -/
theorem statusWord_flags (s : State) :
    s.statusWord.getLsbD 0 = s.busy ∧ s.statusWord.getLsbD 2 = s.treeValid ∧ s.statusWord.getLsbD 3 = s.drop := by
  have hle := statusFields_le s
  refine ⟨getLsbD_eq_of_toNat ?_, getLsbD_eq_of_toNat ?_, getLsbD_eq_of_toNat ?_⟩ <;> rw [toNat_statusWord] <;> omega

/-- R24, R200: bits [7:4] and [31:12] of STATUS read 0, bits [11:8] are the numeric code of ERRCODE. -/
theorem statusWord_fields (s : State) :
    s.statusWord.extractLsb' 4 4 = 0#4 ∧ s.statusWord.extractLsb' 12 20 = 0#20 ∧
      s.statusWord.extractLsb' 8 4 = BitVec.ofNat 4 s.errcode.toNat := by
  have hle := statusFields_le s
  simp only [← BitVec.toNat_inj, BitVec.extractLsb'_toNat, toNat_statusWord, Nat.shiftRight_eq_div_pow,
    BitVec.toNat_ofNat]
  omega

/-- Settles O8: ID, CTRL and STATUS are places open while BUSY = 1, so the read, and ID's ignored write, is performed; what
a STATUS read returns is taken apart field by field. -/
theorem identityAndStatusReadAtAnyTime : Obligations.IdentityAndStatusReadAtAnyTime := by
  intro s es hwf hr
  have hin {off : Nat} (h : off < 0x10000) : off < s.params.windowBytes := register_offset_lt_windowBytes hwf h
  refine ⟨fun he => ?_, fun v he => ?_, fun he => ?_, fun he => ⟨s.statusWord, ?_, ?_⟩⟩
  · exact step_readAt_open (p := .reg .id) hr he (hin (by decide)) rfl rfl rfl
  · exact step_writeAt_open (p := .reg .id) hr he (hin (by decide)) rfl rfl rfl
  · rw [← ctrlWord_eq]
    exact step_readAt_open (p := .reg .ctrl) hr he (hin (by decide)) rfl rfl rfl
  · exact step_readAt_open (p := .reg .status) hr he (hin (by decide)) rfl rfl rfl
  · obtain ⟨hbusy, htree, hdrop⟩ := statusWord_flags s
    obtain ⟨hlow, hhigh, hcode⟩ := statusWord_fields s
    refine ⟨hbusy, statusWord_done s, htree, hdrop, hlow, hhigh, ?_⟩
    rw [hcode]
    cases s.errcode <;> simp [ErrCode.toNat]

end Sys2Proof.Machine
end

section
/-! PROOF. O10 and O17: the accesses the block refuses, and the BUF window (spec/20_memory.md R61, R66; R35, R230). -/

namespace Sys2Proof.Machine

/-! ### Refused accesses -/

theorem step_access {s : State} {a : Access} {es : List Event} (he : s.events = .access a :: es) :
    step s = hostAccess a { s with events := es } := by
  rw [step, he]
  rfl

theorem inWindow_iff (p : Config.Params) (addr : Nat) :
    inWindow p addr = true ↔ p.hbcBase ≤ addr ∧ addr < p.hbcBase + p.windowBytes := by
  simp [inWindow]

/-- R66: an access is not one the block defines when its width, its lanes or its alignment is wrong. -/
theorem access_wf_eq_false_iff (a : Access) (off : Nat) :
    a.wf off = false ↔ a.width ≠ 32 ∨ a.lanes ≠ 0xF#4 ∨ off % 4 ≠ 0 := by
  simp only [Access.wf, Access.fullWidth, Access.allLanes, alignedOffset, Bool.and_eq_false_iff, beq_eq_false_iff_ne,
    or_assoc]

theorem hostAccess_inReset {s : State} {a : Access} (hin : inWindow s.params a.addr = true) (hr : s.resetIn = true) :
    hostAccess a s = .refused .accessInReset := by
  simp [hostAccess, hin, hr]

theorem hostAccess_of_not_wf {s : State} {a : Access} (hin : inWindow s.params a.addr = true) (hr : s.resetIn = false)
    (hwf : a.wf (a.addr - s.params.hbcBase) = false) : hostAccess a s = .refused .undefinedAccess := by
  simp [hostAccess, hin, hr, hwf]

/-- Settles O10: in the block's window the reset input is looked at first, then the form of the access. -/
theorem undefinedAccessesAreRefused : Obligations.UndefinedAccessesAreRefused := by
  intro s a es hlo hhi he
  have hin : inWindow s.params a.addr = true := (inWindow_iff _ _).mpr ⟨hlo, hhi⟩
  rw [step_access he]
  exact ⟨fun hr => hostAccess_inReset hin hr,
    fun hr hbad => hostAccess_of_not_wf hin hr ((access_wf_eq_false_iff _ _).mpr hbad)⟩

/-! ### Accesses that BUSY performs or drops -/

/-- R35: while BUSY = 0 a write to any place is performed, and so is a read. -/
theorem step_writeAt_idle {s : State} {off : Nat} {p : Place} {v : Word} {es : List Event} (hr : s.resetIn = false)
    (he : s.events = writeAt s.params off v :: es) (ho : off < s.params.windowBytes) (h4 : off % 4 = 0)
    (hp : placeAt s.params.bufBytes off = p) (hidle : s.seq = none) :
    step s = .next (State.writePlace { s with events := es } v p) := by
  rw [step_writeAt hr he ho h4, hp, accessPlace_write_idle (s := { s with events := es }) hidle]

theorem step_readAt_idle {s : State} {off : Nat} {p : Place} {es : List Event} (hr : s.resetIn = false)
    (he : s.events = readAt s.params off :: es) (ho : off < s.params.windowBytes) (h4 : off % 4 = 0)
    (hp : placeAt s.params.bufBytes off = p) (hidle : s.seq = none) :
    step s = .next { s with events := es, readData := some (State.readPlace { s with events := es } p) } := by
  rw [step_readAt hr he ho h4, hp, accessPlace_read_idle (s := { s with events := es }) hidle]

/-- R35: while BUSY = 1 a write to a place that is not open is dropped with DROP set, and so is a read, which returns 0. -/
theorem step_writeAt_dropped {s : State} {off : Nat} {p : Place} {v : Word} {es : List Event} (hr : s.resetIn = false)
    (he : s.events = writeAt s.params off v :: es) (ho : off < s.params.windowBytes) (h4 : off % 4 = 0)
    (hp : placeAt s.params.bufBytes off = p) (hbusy : s.seq ≠ none) (hclosed : p.openWhileBusy = false) :
    step s = .next { s with events := es, drop := true } := by
  rw [step_writeAt hr he ho h4, hp, accessPlace_dropped (s := { s with events := es }) hbusy hclosed]

theorem step_readAt_dropped {s : State} {off : Nat} {p : Place} {es : List Event} (hr : s.resetIn = false)
    (he : s.events = readAt s.params off :: es) (ho : off < s.params.windowBytes) (h4 : off % 4 = 0)
    (hp : placeAt s.params.bufBytes off = p) (hbusy : s.seq ≠ none) (hclosed : p.openWhileBusy = false) :
    step s = .next { s with events := es, drop := true, readData := some 0 } := by
  rw [step_readAt hr he ho h4, hp, accessPlace_dropped (s := { s with events := es }) hbusy hclosed]

/-! ### The BUF window -/

/-- R62: byte `i` of a symbol word written at `a`, as a slice of the word. -/
theorem bufByte_writeWord_slice (s : State) (a : Nat) (v : Word) {i : Nat} (hi : i < 4) :
    (s.writeWord a v).bufByte (a + i) = v.extractLsb' (8 * (3 - i)) 8 := by
  rw [bufByte_writeWord, if_pos (by omega), Nat.add_sub_cancel_left, BitVec.extractLsb', Nat.shiftRight_eq_div_pow]

theorem bufByte_writeWord_outside (s : State) (a : Nat) (v : Word) {j : Nat} (hj : j < a ∨ a + 4 ≤ j) :
    (s.writeWord a v).bufByte j = s.bufByte j := by
  rw [bufByte_writeWord, if_neg (by omega)]

/-- R61: an aligned word of BUF stands at an aligned offset of the window, and that offset addresses it. -/
theorem bufWindow_offset {p : Config.Params} {k : Nat} (hp : p.wf = true) (h4 : k % 4 = 0) (hk : k + 4 ≤ p.bufBytes) :
    0x10000 + k < p.windowBytes ∧ (0x10000 + k) % 4 = 0 ∧ placeAt p.bufBytes (0x10000 + k) = .buf k := by
  obtain ⟨-, -, -, hwin⟩ := (params_wf_iff p).mp hp
  refine ⟨by omega, by omega, ?_⟩
  rw [placeAt_buf (by omega) (by omega), Nat.add_sub_cancel_left]

/-- Settles O17: the offset addresses the word of BUF at `k`, so an idle block performs the access as `writeWord` or
`readWord` and a busy one drops it. -/
theorem bufWindowIsBigEndian : Obligations.BufWindowIsBigEndian := by
  intro s k es hwf hr h4 hk
  obtain ⟨hin, halign, hplace⟩ := bufWindow_offset hwf h4 hk
  refine ⟨fun v hidle he => ?_, fun hidle he => ?_, fun v hbusy he => ?_, fun hbusy he => ?_⟩
  · exact ⟨State.writeWord { s with events := es } k v, step_writeAt_idle hr he hin halign hplace hidle,
      bufByte_writeWord_slice _ k v (i := 0) (by decide), bufByte_writeWord_slice _ k v (i := 1) (by decide),
      bufByte_writeWord_slice _ k v (i := 2) (by decide), bufByte_writeWord_slice _ k v (i := 3) (by decide),
      fun j hj => bufByte_writeWord_outside _ k v hj, rfl⟩
  · exact ⟨State.readWord { s with events := es } k, step_readAt_idle hr he hin halign hplace hidle, toNat_readWord _ k⟩
  · exact step_writeAt_dropped hr he hin halign hplace hbusy rfl
  · exact step_readAt_dropped hr he hin halign hplace hbusy rfl

end Sys2Proof.Machine
end

section
/-! PROOF. O3: which words are commands, and the completion of an illegal one (spec/30_encoding.md R80, R81, R83). -/

namespace Sys2Proof.Machine

/-! ### Valid words -/

theorem opcodeField_eq_extractLsb' (w : Word) : opcodeField w = (w.extractLsb' 0 8).toNat := by
  rw [opcodeField, BitVec.extractLsb'_toNat, Nat.shiftRight_zero]

theorem rsvdField_eq_zero_iff (w : Word) : rsvdField w = 0 ↔ w.extractLsb' 8 24 = 0#24 := by
  have hw := w.isLt
  rw [rsvdField, ← BitVec.toNat_inj, BitVec.extractLsb'_toNat, Nat.shiftRight_eq_div_pow, BitVec.toNat_ofNat]
  omega

/-- R83: the opcodes 0x0C to 0xFF are reserved. -/
theorem opcodeMap_eq_none {n : Nat} (h : 0x0B < n) : opcodeMap n = none := by
  rw [opcodeMap] <;> omega

/-- R81: the opcode map holds the opcodes 0x00 to 0x0B and no other. -/
theorem exists_opcodeMap_eq_some_iff (n : Nat) : (∃ i, opcodeMap n = some i) ↔ n ≤ 0x0B := by
  rw [← Option.isSome_iff_exists]
  constructor
  · contrapose!
    intro h
    simp [opcodeMap_eq_none h]
  · revert n
    decide

/-- R83: decoding asks first for RSVD = 0, then for an opcode of the map. -/
theorem decode_eq_ok_iff (w : Word) (i : Instr) :
    decode w = .ok i ↔ rsvdField w = 0 ∧ opcodeMap (opcodeField w) = some i := by
  unfold decode
  by_cases hr : rsvdField w = 0
  · cases opcodeMap (opcodeField w) <;> simp [hr]
  · simp [hr]

/-- R83, with the two fields of R80 as slices of the word. -/
theorem exists_decode_eq_ok_iff (w : Word) :
    (∃ i, decode w = .ok i) ↔ w.extractLsb' 8 24 = 0#24 ∧ (w.extractLsb' 0 8).toNat ≤ 0x0B := by
  simp only [decode_eq_ok_iff, exists_and_left, exists_opcodeMap_eq_some_iff, rsvdField_eq_zero_iff,
    opcodeField_eq_extractLsb']

/-- Every word that is not valid is answered by name. -/
theorem exists_decode_eq_error {w : Word}
    (h : w.extractLsb' 8 24 ≠ 0#24 ∨ 0x0B < (w.extractLsb' 0 8).toNat) : ∃ e, decode w = .error e := by
  cases hd : decode w with
  | error e => exact ⟨e, rfl⟩
  | ok i =>
    obtain ⟨hrsvd, hop⟩ := (exists_decode_eq_ok_iff w).mp ⟨i, hd⟩
    exact absurd h (not_or_intro (not_not_intro hrsvd) (Nat.not_lt.mpr hop))

/-! ### The acceptance and the completion of an illegal word -/

/-- R101: the words whose acceptance clears the tree are commands. -/
theorem clearsTree_of_decode_error {w : Word} {e : IllegalWord} (h : decode w = .error e) : clearsTree w = false := by
  rw [Bool.eq_false_iff, Ne, clearsTree_iff]
  rintro (rfl | rfl | rfl) <;> cases h

/-- R83: the acceptance of an illegal word and its failure change the completion record and nothing else; `es` are the
events left at the completion. -/
theorem fail_accept_illegal {s : State} {w : Word} {e : IllegalWord} (es : List Event) (h : decode w = .error e)
    (hidle : s.seq = none) :
    State.fail { s.accept w with events := es } .illegalCommand 0 =
      { s with events := es, done := true, errcode := .illegalCommand, errPos := 0, outLen := 0 } := by
  simp [State.fail, State.accept, clearsTree_of_decode_error h, hidle]

theorem step_finish {s : State} {es : List Event} (he : s.events = .finish :: es) :
    step s = runCommand { s with events := es } := by
  rw [step, he]
  rfl

/-- R83, R103 check 1: the event of completion fails the illegal word that an idle block accepted. -/
theorem step_finish_accept_illegal {s : State} {w : Word} {e : IllegalWord} {es : List Event}
    (h : decode w = .error e) (hidle : s.seq = none) (he : s.events = .finish :: es) :
    step (s.accept w) =
      .next { s with events := es, done := true, errcode := .illegalCommand, errPos := 0, outLen := 0 } := by
  have hseq : State.seq { s.accept w with events := es } = some { cmd := w, lat := s.liveOperands } :=
    State.accept_seq s w
  rw [step_finish ((State.accept_events s w).trans he), runCommand_illegal hseq h, fail_accept_illegal es h hidle]

/-- Settles O3: an idle block performs the write to CMD as an acceptance, and the event of completion then fails the
latched word. -/
theorem illegalWordsCompleteWithIllegalCommand : Obligations.IllegalWordsCompleteWithIllegalCommand := by
  refine fun w => ⟨exists_decode_eq_ok_iff w, fun s es hwf hr hidle hbad he => ?_⟩
  obtain ⟨e, hd⟩ := exists_decode_eq_error hbad
  refine ⟨State.accept { s with events := .finish :: es } w, ?_, State.accept_busy _ w, ?_⟩
  · exact step_writeAt_idle (p := .reg .cmd) hr he (register_offset_lt_windowBytes hwf (by decide)) rfl rfl hidle
  · exact step_finish_accept_illegal (s := { s with events := .finish :: es }) hd hidle rfl

end Sys2Proof.Machine
end

section
/-! PROOF. O7: the accesses that a busy block drops (spec/40_command_protocol.md R102; spec/10_state.md R35). -/

namespace Sys2Proof.Machine

/-- R21, R35: every aligned offset from CMD to CT_BITS addresses a register that BUSY closes. -/
theorem openWhileBusy_placeAt_register {n off : Nat} (h4 : off % 4 = 0) (hlo : 0x00C ≤ off) (hhi : off ≤ 0x050) :
    (placeAt n off).openWhileBusy = false := by
  obtain ⟨k, rfl⟩ := Nat.dvd_of_mod_eq_zero h4
  have hk : 3 ≤ k := by omega
  have hk' : k ≤ 20 := by omega
  interval_cases k <;> rfl

/-- R35: the offsets that a busy block drops lie in its window, and BUSY closes the places they address. -/
theorem dropped_offset_closed {p : Config.Params} {off : Nat} (hp : p.wf = true) (h4 : off % 4 = 0)
    (h : off = 0x00C ∨ (0x010 ≤ off ∧ off ≤ 0x050) ∨ (0x10000 ≤ off ∧ off < 0x10000 + p.bufBytes)) :
    off < p.windowBytes ∧ (placeAt p.bufBytes off).openWhileBusy = false := by
  by_cases hreg : off ≤ 0x050
  · exact ⟨register_offset_lt_windowBytes hp (by omega), openWhileBusy_placeAt_register h4 (by omega) hreg⟩
  · obtain ⟨hmul, -⟩ := (params_wf_iff p).mp hp
    obtain ⟨k, rfl⟩ : ∃ k, off = 0x10000 + k := Nat.exists_eq_add_of_le (by omega)
    obtain ⟨hin, -, hplace⟩ := bufWindow_offset (k := k) hp (by omega) (by omega)
    exact ⟨hin, by rw [hplace]; rfl⟩

/-- Settles O7: BUSY closes the place that the offset addresses, so a read and a write of it are dropped. -/
theorem busyDropsAccess : Obligations.BusyDropsAccess := by
  intro s off es hwf hr hbusy h4 hoff
  obtain ⟨hin, hclosed⟩ := dropped_offset_closed hwf h4 hoff
  exact ⟨fun he => step_readAt_dropped hr he hin h4 rfl hbusy hclosed,
    fun v he => step_writeAt_dropped hr he hin h4 rfl hbusy hclosed⟩

end Sys2Proof.Machine
end

section
/-! PROOF. O24, O26, O30 and O31: NOP, NODE_READ, CT_CLEAR, CT_WRITE and CT_READ (spec/40_command_protocol.md R110;
spec/41_tree_and_code_table.md R121, R123 to R125). -/

namespace Sys2Proof.Machine

/-! ### Commands without a static check -/

/-- R103: NOP, CT_CLEAR, CT_WRITE and CT_READ have no row in the table of static checks, so each runs its rule in every
state. -/
theorem exec_of_unchecked {i : Instr} (s : State) (h : i = .nop ∨ i = .ctClear ∨ i = .ctWrite ∨ i = .ctRead) :
    exec i s = ruleResult s i := by
  rcases h with rfl | rfl | rfl | rfl <;> exact exec_of_none (staticError_none (rangesOk_other _ _ (by decide)) nofun)

theorem exec_nop (s : State) : exec .nop s = .next (s.succeed 0) :=
  exec_of_unchecked s (by decide)

theorem exec_ctClear (s : State) : exec .ctClear s = .next (s.clearCode.succeed 0) :=
  exec_of_unchecked s (by decide)

theorem exec_ctWrite (s : State) :
    exec .ctWrite s =
      .next (s.ctWriteRule s.operands.ctSym.toNat s.operands.ctLen.toNat s.operands.ctBits.toNat) :=
  exec_of_unchecked s (by decide)

theorem exec_ctRead (s : State) : exec .ctRead s = .next (s.ctReadRule s.operands.ctSym.toNat) :=
  exec_of_unchecked s (by decide)

/-! ### What the updates of CODE leave in its entries (R39) -/

@[simp] theorem State.clearCode_codeAt (s : State) (k : Nat) : s.clearCode.codeAt k = none := rfl

theorem State.putCode_codeAt (s : State) (a : Nat) (p : Code) (k : Nat) :
    (s.putCode a p).codeAt k = if k = a then some p else s.codeAt k :=
  Ram.get?_put s.code a p k

theorem State.dropCode_codeAt {s : State} (h : Ram.wf s.code) (a k : Nat) :
    (s.dropCode a).codeAt k = if k = a then none else s.codeAt k :=
  Ram.get?_erase h a k

/-! ### CT_WRITE (R124) -/

theorem exec_ctWrite_unsupported {s : State} (hsym : 0xFFFF < s.operands.ctSym.toNat) :
    exec .ctWrite s = .next (s.fail .unsupportedSymbol 0) := by
  rw [exec_ctWrite, State.ctWriteRule, if_pos hsym]

theorem exec_ctWrite_tooLong {s : State} (hsym : s.operands.ctSym.toNat ≤ 0xFFFF)
    (hlen : 32 < s.operands.ctLen.toNat) : exec .ctWrite s = .next (s.fail .capacityExceeded 0) := by
  rw [exec_ctWrite, State.ctWriteRule, if_neg (Nat.not_lt.mpr hsym), if_pos hlen]

theorem exec_ctWrite_drop {s : State} (hsym : s.operands.ctSym.toNat ≤ 0xFFFF) (hzero : s.operands.ctLen = 0) :
    exec .ctWrite s = .next ((s.dropCode s.operands.ctSym.toNat).succeed 0) := by
  rw [exec_ctWrite, State.ctWriteRule, if_neg (Nat.not_lt.mpr hsym), hzero]
  rfl

theorem exec_ctWrite_put {s : State} (hsym : s.operands.ctSym.toNat ≤ 0xFFFF) (hlen : s.operands.ctLen.toNat ≤ 32)
    (hpos : s.operands.ctLen ≠ 0) :
    exec .ctWrite s =
      .next ((s.putCode s.operands.ctSym.toNat
        (natBits s.operands.ctLen.toNat s.operands.ctBits.toNat)).succeed 0) := by
  have hne : s.operands.ctLen.toNat ≠ 0 := fun h => hpos (BitVec.eq_of_toNat_eq h)
  rw [exec_ctWrite, State.ctWriteRule, if_neg (Nat.not_lt.mpr hsym), if_neg (Nat.not_lt.mpr hlen), if_neg hne]

/-- Settles O30: the two failures, and then the entry dropped for CT_LEN = 0 and put for every other length. -/
theorem ctWriteSetsOneEntry : Obligations.CtWriteSetsOneEntry := by
  refine fun s => ⟨exec_ctWrite_unsupported, exec_ctWrite_tooLong, fun hwf hsym hlen => ?_⟩
  by_cases hzero : s.operands.ctLen = 0
  · have hdrop := State.dropCode_codeAt hwf s.operands.ctSym.toNat
    exact ⟨_, exec_ctWrite_drop hsym hzero, fun _ => (hdrop _).trans (if_pos rfl), fun hpos => absurd hzero hpos,
      fun k hk => (hdrop k).trans (if_neg hk), rfl⟩
  · have hput := s.putCode_codeAt s.operands.ctSym.toNat (natBits s.operands.ctLen.toNat s.operands.ctBits.toNat)
    exact ⟨_, exec_ctWrite_put hsym hlen hzero, fun h => absurd h hzero,
      fun _ => ⟨_, (hput _).trans (if_pos rfl), length_natBits _ _, getElem_natBits _ _⟩,
      fun k hk => (hput k).trans (if_neg hk), rfl⟩

/-! ### CT_READ (R125) -/

theorem exec_ctRead_unsupported {s : State} (hsym : 0xFFFF < s.operands.ctSym.toNat) :
    exec .ctRead s = .next (s.fail .unsupportedSymbol 0) := by
  rw [exec_ctRead, State.ctReadRule, if_pos hsym]

theorem exec_ctRead_load {s : State} {c : Option Code} (hsym : s.operands.ctSym.toNat ≤ 0xFFFF)
    (hc : s.codeAt s.operands.ctSym.toNat = c) : exec .ctRead s = .next ((s.loadCode c).succeed 0) := by
  rw [exec_ctRead, State.ctReadRule, if_neg (Nat.not_lt.mpr hsym), hc]

/-- R125: in a right-aligned code of at most 32 bits, bit `i` is the code's bit `length − 1 − i`, and 0
above the code. -/
theorem getLsbD_ofNat_bitsToNat {p : Code} (hp : p.length ≤ 32) (i : Nat) :
    (BitVec.ofNat 32 (bitsToNat p)).getLsbD i = (decide (i < p.length) && p.getD (p.length - 1 - i) false) := by
  rw [BitVec.getLsbD_ofNat, testBit_bitsToNat]
  by_cases hi : i < p.length
  · simp [Nat.lt_of_lt_of_le hi hp]
  · simp [hi]

/-- R125: the code's bit `k` stands in bit `length − 1 − k`. -/
theorem getLsbD_ofNat_bitsToNat_rev {p : Code} (hp : p.length ≤ 32) {k : Nat} (h : k < p.length) :
    (BitVec.ofNat 32 (bitsToNat p)).getLsbD (p.length - 1 - k) = p[k] := by
  have hlt : p.length - 1 - k < p.length := by omega
  have hrev : p.length - 1 - (p.length - 1 - k) = k := by omega
  rw [getLsbD_ofNat_bitsToNat hp, hrev, List.getD_eq_getElem _ _ h, decide_eq_true hlt, Bool.true_and]

/-- R125: the bits above the code are 0. -/
theorem getLsbD_ofNat_bitsToNat_above {p : Code} (hp : p.length ≤ 32) {k : Nat} (h : p.length ≤ k) :
    (BitVec.ofNat 32 (bitsToNat p)).getLsbD k = false := by
  rw [getLsbD_ofNat_bitsToNat hp, decide_eq_false (Nat.not_lt.mpr h), Bool.false_and]

/-- Settles O31: the failure, and then the window loaded from an invalid and from a valid entry. -/
theorem ctReadReportsTheEntry : Obligations.CtReadReportsTheEntry := by
  refine fun s => ⟨exec_ctRead_unsupported, exec_ctRead_load, fun p hsym hp hlen => ?_⟩
  have hfits : p.length < 2 ^ 32 := Nat.lt_of_le_of_lt hlen (by decide)
  exact ⟨_, exec_ctRead_load hsym hp, (BitVec.toNat_ofNat _ _).trans (Nat.mod_eq_of_lt hfits),
    fun _ hk => getLsbD_ofNat_bitsToNat_rev hlen hk, fun _ hk => getLsbD_ofNat_bitsToNat_above hlen hk, rfl⟩

/-! ### NOP and CT_CLEAR (R110, R123) -/

/-- Settles O24: neither command has a static check, and CODE with no listed entry has no valid one. -/
theorem nopAndCtClearComplete : Obligations.NopAndCtClearComplete :=
  fun s => ⟨exec_nop s, _, exec_ctClear s, s.clearCode_codeAt, rfl⟩

/-! ### NODE_READ (R121) -/

theorem exec_nodeRead_outside {s : State} (h : 131071 ≤ s.operands.nodeIdx.toNat) :
    exec .nodeRead s = .next (s.fail .badRange 0) :=
  exec_of_some (staticError_badRange fun hok => Nat.not_lt.mpr h ((rangesOk_nodeRead _ _).mp hok))

theorem exec_nodeRead_inside {s : State} (h : s.operands.nodeIdx.toNat < 131071) :
    exec .nodeRead s = .next ((s.loadWindow (s.nodeAt s.operands.nodeIdx.toNat)).succeed 0) :=
  exec_of_none (staticError_none ((rangesOk_nodeRead _ _).mpr h) nofun)

/-- Settles O26: the static check of R103 on NODE_IDX decides between the failure and the load. -/
theorem nodeReadLoadsTheWindow : Obligations.NodeReadLoadsTheWindow :=
  fun _ => ⟨exec_nodeRead_outside, exec_nodeRead_inside⟩

end Sys2Proof.Machine
end

section
/-! PROOF. O35 and O36: what ENCODE puts out, and the first symbol that ends it (spec/42_bit_encoder.md R150 to R152). -/

namespace Sys2Proof.Machine

/-! ### The symbol words of the source region -/

theorem readWords_add (s : State) (a m n : Nat) :
    s.readWords a (m + n) = s.readWords a m ++ s.readWords (a + 4 * m) n := by
  simp only [State.readWords, List.range_add, List.map_append, List.map_map, Function.comp_def, Nat.mul_add,
    Nat.add_assoc]

theorem readWords_succ (s : State) (a n : Nat) :
    s.readWords a (n + 1) = s.readWord a :: s.readWords (a + 4) n := by
  rw [Nat.add_comm, readWords_add]
  rfl

theorem readWords_forall₂ {s : State} {α : Type} {R : Word → α → Prop} {a : Nat} {xs : List α}
    (h : ∀ j (hj : j < xs.length), R (s.readWord (a + 4 * j)) xs[j]) :
    List.Forall₂ R (s.readWords a xs.length) xs :=
  List.forall₂_iff_get.mpr ⟨length_readWords s a _, fun j _ hj => by simpa [State.readWords] using h j hj⟩

/-! ### ENCODE's rule -/

/-- R103: ENCODE's static checks are those of its regions. -/
theorem exec_encode {s : State} (h : EncodeRangesOk s.operands s.params.bufBytes) :
    exec .encode s = .next (s.encodeRule s.operands) :=
  exec_of_none (staticError_none ((rangesOk_encode _ _).mpr h) nofun)

/-- Each of the words from `a` on, as many as `codes`, is a symbol whose code is the entry of `codes` at its index. -/
def CodedAt (s : State) (a : Nat) (codes : List Code) : Prop :=
  ∀ j (h : j < codes.length), (s.readWord (a + 4 * j)).toNat ≤ 0xFFFF ∧
    s.codeAt (s.readWord (a + 4 * j)).toNat = some codes[j]

/-- R150: over words with the codes `codes` that fit, the loop puts out the codes and goes on with the `n` words left. -/
theorem encodeLoop_codedAt {s : State} {a cap : Nat} {codes : List Code} (n : Nat) (h : CodedAt s a codes)
    (hfit : codes.flatten.length ≤ cap) :
    encodeLoop s.codeAt cap 0 0 (s.readWords a (codes.length + n)) =
      (encodeLoop s.codeAt cap codes.length codes.flatten.length (s.readWords (a + 4 * codes.length) n)).map
        (codes.flatten ++ ·) := by
  have hgood := encodeLoop_good (cap := cap) (s.readWords (a + 4 * codes.length) n) 0 0 (readWords_forall₂ h)
    (by omega)
  rwa [← readWords_add, length_readWords, Nat.zero_add, Nat.zero_add] at hgood

/-! ### Success (R151) -/

/-- R150, R151: where every word of the source has a code and the codes fit, the rule stores their concatenation. -/
theorem encodeRule_ok {s : State} {o : Operands} {codes : List Code} (hn : codes.length = o.srcLen.toNat)
    (h : CodedAt s o.srcAddr.toNat codes) (hfit : codes.flatten.length ≤ 8 * o.dstCap.toNat) :
    s.encodeRule o = (s.bitStore o.dstAddr.toNat codes.flatten).succeed codes.flatten.length := by
  have hloop := encodeLoop_codedAt 0 h hfit
  rw [Nat.add_zero, hn] at hloop
  rw [State.encodeRule, hloop]
  simp [State.readWords, encodeLoop, Except.map]

/-- R39, R151: `n` codes of 1 to 32 bits have between `n` and `32·n` bits. -/
theorem length_flatten_codes {codes : List Code} (h : ∀ c ∈ codes, 1 ≤ c.length ∧ c.length ≤ 32) :
    codes.length ≤ codes.flatten.length ∧ codes.flatten.length ≤ 32 * codes.length := by
  induction codes with
  | nil => simp
  | cons c cs ih =>
    obtain ⟨hc, hcs⟩ := List.forall_mem_cons.mp h
    have hlen := ih hcs
    simp only [List.flatten_cons, List.length_append, List.length_cons]
    omega

/-- R6, R68: a bit count that fits a destination region in range fits OUT_LEN. -/
theorem EncodeRangesOk.bits_lt {p : Config.Params} {o : Operands} {n : Nat} (hp : p.wf = true)
    (h : EncodeRangesOk o p.bufBytes) (hn : n ≤ 8 * o.dstCap.toNat) : n < 2 ^ 32 := by
  obtain ⟨-, -, hmax, -⟩ := (params_wf_iff p).mp hp
  obtain ⟨-, -, hdst, -⟩ := h
  omega

/-- Settles O35: the loop's output is the concatenation, and OUT_LEN holds its length, since BUF has at most 2^24 bytes. -/
theorem encodeConcatenatesTheCodes : Obligations.EncodeConcatenatesTheCodes := by
  intro s codes hwf hranges hn hcoded hfit
  obtain ⟨hout, hstored⟩ := storedBits_bitStore s s.operands.dstAddr.toNat _ (hranges.bits_lt hwf hfit)
  refine ⟨_, (exec_encode hranges).trans (congrArg _ (encodeRule_ok hn hcoded hfit)), ⟨hout, hstored⟩, fun hlen => ?_⟩
  rw [hout, ← hn]
  exact length_flatten_codes hlen

/-! ### Failure (R152) -/

/-- R152: `w`, met after `len` bits, ends ENCODE with error `e`: it is above 0xFFFF, has no code, or its code does not fit
in `cap` bits, in this order. -/
def BadSymbol (codeAt : Nat → Option Code) (cap len : Nat) (w : Word) (e : ErrCode) : Prop :=
  (e = .unsupportedSymbol ∧ 0xFFFF < w.toNat) ∨
  (e = .unknownSymbol ∧ w.toNat ≤ 0xFFFF ∧ codeAt w.toNat = none) ∨
  (e = .outputOverflow ∧ w.toNat ≤ 0xFFFF ∧ ∃ c, codeAt w.toNat = some c ∧ cap < len + c.length)

/-- R109, R150: the loop ends at a bad symbol with its error at its index. -/
theorem encodeLoop_badSymbol {codeAt : Nat → Option Code} {cap len : Nat} {w : Word} {e : ErrCode} (j : Nat)
    (ws : List Word) (h : BadSymbol codeAt cap len w e) :
    encodeLoop codeAt cap j len (w :: ws) = .error ⟨e, j⟩ := by
  rw [encodeLoop]
  rcases h with ⟨rfl, hbig⟩ | ⟨rfl, hsym, hnone⟩ | ⟨rfl, hsym, c, hsome, hover⟩
  · rw [if_pos hbig]
  · rw [if_neg (Nat.not_lt.mpr hsym), hnone]
  · simp only [if_neg (Nat.not_lt.mpr hsym), hsome, if_pos hover]

/-- R152: a bad symbol after words with the codes `codes` that fit ends the rule at its index. -/
theorem encodeRule_badSymbol {s : State} {o : Operands} {codes : List Code} {e : ErrCode}
    (hn : codes.length < o.srcLen.toNat) (h : CodedAt s o.srcAddr.toNat codes)
    (hfit : codes.flatten.length ≤ 8 * o.dstCap.toNat)
    (hbad : BadSymbol s.codeAt (8 * o.dstCap.toNat) codes.flatten.length
      (s.readWord (o.srcAddr.toNat + 4 * codes.length)) e) :
    s.encodeRule o = s.failInto o.dstAddr.toNat o.dstCap.toNat ⟨e, codes.length⟩ := by
  obtain ⟨k, hk⟩ := Nat.exists_eq_add_of_lt hn
  have hloop := encodeLoop_codedAt (k + 1) h hfit
  rw [readWords_succ, encodeLoop_badSymbol _ _ hbad, ← Nat.add_assoc, ← hk] at hloop
  rw [State.encodeRule, hloop]
  rfl

/-- Settles O36: the loop passes the words before the bad symbol and fails there, at an index below SRC_LEN, which ERR_POS
holds. -/
theorem encodeReportsTheFirstBadSymbol : Obligations.EncodeReportsTheFirstBadSymbol := by
  intro s codes e hranges hn hcoded hfit hbad
  exact ⟨_, (exec_encode hranges).trans (congrArg _ (encodeRule_badSymbol hn hcoded hfit hbad)),
    failedInto_failInto (hn.trans s.operands.srcLen.isLt)⟩

end Sys2Proof.Machine
end

section
/-! PROOF. O40 and O41: DECODE on a single-leaf tree, and the round trip through CT_GEN, ENCODE and DECODE
(spec/43_bit_decoder.md R160, R161, R163). -/

namespace Sys2Proof.Machine

/-! ### DECODE's rule (R160) -/

/-- R103: DECODE's static checks are those of its regions and TREE_VALID. -/
theorem exec_decode {s : State} (h : DecodeRangesOk s.operands s.params.bufBytes) (hv : s.operands.treeValid = true) :
    exec .decode s = .next (s.decodeRule s.operands) :=
  exec_of_none (staticError_none ((rangesOk_decode _ _).mpr h) fun _ => hv)

/-- R160, success: the symbols decoded fit in DST_CAP bytes, so that OUT_LEN holds their number. -/
theorem exec_decode_ok {s : State} {out : List Word} (h : DecodeRangesOk s.operands s.params.bufBytes)
    (hv : s.operands.treeValid = true) (hout : s.decodeSymbols s.operands = .ok out) :
    ∃ t, exec .decode s = .next t ∧ StoredWords s t s.operands.dstAddr.toNat out := by
  have hfit := decodeSymbols_length hout
  have hcap := s.operands.dstCap.isLt
  refine ⟨_, exec_decode h hv, ?_⟩
  rw [State.decodeRule, hout]
  exact storedWords_writeWords s _ out (by omega)

/-- R105, R160, failure: the position is a bit index or D, so that ERR_POS holds it. -/
theorem exec_decode_error {s : State} {e : ErrCode} {pos : Nat} (h : DecodeRangesOk s.operands s.params.bufBytes)
    (hv : s.operands.treeValid = true) (herr : s.decodeSymbols s.operands = .error ⟨e, pos⟩) :
    ∃ t, exec .decode s = .next t ∧ FailedInto s t e pos s.operands.dstAddr.toNat s.operands.dstCap.toNat := by
  refine ⟨_, exec_decode h hv, ?_⟩
  rw [State.decodeRule, herr]
  exact failedInto_failInto ((decodeSymbols_pos herr).trans_lt s.operands.srcLen.isLt)

/-! ### Which loop runs (R160, R161) -/

/-- R161: where ROOT is a leaf DECODE runs the loop that counts bits and reads none. -/
theorem decodeSymbols_leaf {s : State} {o : Operands} {w : Word} {ixs : List Nat}
    (ht : TreeAt s.nodeAt o.root.toNat (.leaf w) ixs) :
    s.decodeSymbols o = decodeLeafLoop w o.dstCap.toNat 0 0 o.srcLen.toNat := by
  generalize hroot : o.root.toNat = root at ht
  cases ht with
  | leaf _ hk => rw [State.decodeSymbols, hroot, if_pos hk]

/-- R160: where ROOT is an internal node DECODE runs the loop with the cursor. -/
theorem decodeSymbols_node {s : State} {o : Operands} {l r : HTree} {ixs : List Nat}
    (ht : TreeAt s.nodeAt o.root.toNat (.node l r) ixs) :
    s.decodeSymbols o = decodeLoop s.nodeAt o.root.toNat o.dstCap.toNat 0 0 o.root.toNat
      (s.readBits o.srcAddr.toNat o.srcLen.toNat) := by
  cases ht with
  | node _ _ _ _ _ hk => rw [State.decodeSymbols, if_neg (by simp [hk])]

/-- Settles O40: the single-leaf loop gives the symbol for each of the D bits while it fits, and else stops at the bit
whose symbol would be one more than DST_CAP holds. -/
theorem decodeOnSingleLeafTree : Obligations.DecodeOnSingleLeafTree := by
  intro s w ixs _ hranges hvalid htree
  have hloop := decodeSymbols_leaf htree.shape
  constructor
  · intro hfit
    rw [decodeLeafLoop_good 0 0 _ (by omega)] at hloop
    exact exec_decode_ok hranges hvalid hloop
  · intro hover
    rw [decodeLeafLoop_full 0 0 _ (by omega) (by omega), Nat.zero_add, Nat.sub_zero] at hloop
    exact exec_decode_error hranges hvalid hloop

/-! ### DECODE of a tree's codes (R127, R160, R161) -/

/-- R127: the codes of a tree are the paths of its leaves, "0" for a root that is a leaf. -/
theorem HTree.mem_codes {t : HTree} {w : Word} {c : Code} :
    (w, c) ∈ t.codes ↔ ∃ p, t.symAt p = some w ∧ codeOfPath p = c := by
  simp only [HTree.codes_eq, List.mem_map, Prod.exists, HTree.mem_preorder, Prod.mk.injEq]
  constructor
  · rintro ⟨_, p, hp, rfl, hc⟩
    exact ⟨p, hp, hc⟩
  · rintro ⟨p, hp, hc⟩
    exact ⟨w, p, hp, rfl, hc⟩

/-- R161: codes of a single-leaf tree are one bit long and stand for the leaf's symbol. -/
theorem eq_replicate_of_codes_leaf {v : Word} {ws : List Word} {cs : List Code}
    (h : List.Forall₂ (fun w c => (w, c) ∈ (HTree.leaf v).codes) ws cs) :
    ws = List.replicate cs.flatten.length v := by
  induction h with
  | nil => rfl
  | cons hwc _ ih =>
    obtain ⟨rfl, rfl⟩ : _ = v ∧ _ = [false] := by simpa [HTree.codes] using hwc
    rw [List.flatten_cons, List.length_append, List.length_singleton, Nat.add_comm, List.replicate_succ, ← ih]

/-- R160, R161, R163: DECODE of the concatenated codes of the symbols `ws` gives `ws`, if they fit. -/
theorem decodeSymbols_codes {s : State} {o : Operands} {t : HTree} {ixs : List Nat} {ws : List Word} {cs : List Code}
    (ht : TreeAt s.nodeAt o.root.toNat t ixs) (hcodes : List.Forall₂ (fun w c => (w, c) ∈ t.codes) ws cs)
    (hbits : s.readBits o.srcAddr.toNat o.srcLen.toNat = cs.flatten) (hfit : 4 * ws.length ≤ o.dstCap.toNat) :
    s.decodeSymbols o = .ok ws := by
  cases t with
  | leaf v =>
    have hlen : cs.flatten.length = o.srcLen.toNat := by rw [← hbits, length_readBits]
    have hws := eq_replicate_of_codes_leaf hcodes
    rw [hlen] at hws
    rw [hws, List.length_replicate] at hfit
    rw [decodeSymbols_leaf ht, decodeLeafLoop_good 0 0 _ (by omega), hws]
  | node l r =>
    have hlen := hcodes.length_eq
    have hpaths : ∀ x ∈ ws.zip cs, (HTree.node l r).symAt x.2 = some x.1 := fun x hx =>
      HTree.mem_preorder.mp ((List.forall₂_iff_zip.mp hcodes).2 hx)
    have hloop := decodeLoop_good (cap := o.dstCap.toNat) 0 0 [] ht hpaths (by rw [List.length_zip]; omega)
    rw [List.map_fst_zip hlen.le, List.map_snd_zip hlen.ge, List.append_nil, ← hbits, decodeLoop, if_pos rfl] at hloop
    rw [decodeSymbols_node ht, hloop, Except.map, List.append_nil]

/-! ### What a success says (R104) -/

/-- R103, R104: a command that ends with OK has passed its static checks. -/
theorem exec_next_ok {i : Instr} {s t : State} (h : exec i s = .next t) (hok : t.errcode = .ok) :
    s.staticError i = none ∧ RuleEnds s t i := by
  rcases exec_next h with ⟨e, he, rfl⟩ | hends
  · rcases staticError_cases he with ⟨rfl, -⟩ | ⟨rfl, -⟩ <;> cases hok
  · exact hends

/-- R126, R127: a CT_GEN that succeeds leaves exactly the tree's codes in CODE. -/
theorem exec_ctGen_codeAt {s t : State} {tree : HTree} {ixs : List Nat} (ht : s.HasTree s.operands.root.toNat tree ixs)
    (h : exec .ctGen s = .next t) (hok : t.errcode = .ok) (k : Nat) (c : Code) :
    t.codeAt k = some c ↔ ∃ w, (w, c) ∈ tree.codes ∧ w.toNat = k := by
  obtain ⟨-, vs, hvs, rfl⟩ := exec_next_ok h hok
  obtain rfl : treeVisits s.nodeAt tree s.operands.root.toNat [] = vs := Except.ok.inj (ht.walkFrom.symm.trans hvs)
  rcases genRule_cases s _ with ⟨code, made, hloop, hrule⟩ | ⟨e, hloop, hrule⟩
  · obtain ⟨-, -, -, hget⟩ := ht.genLoop_ok hloop
    rw [hrule]
    simp only [HTree.mem_codes]
    refine (hget k c).trans ⟨?_, ?_⟩
    · rintro ⟨p, w, hp, hw, hc⟩
      exact ⟨w, ⟨p, hp, hc⟩, hw⟩
    · rintro ⟨w, ⟨p, hp, hc⟩, hw⟩
      exact ⟨p, w, hp, hw, hc⟩
  · rw [hrule, State.fail_errcode] at hok
    rcases genLoop_error hloop with hcode | hcode | hcode <;> rw [hcode] at hok <;> cases hok

/-- R151: an ENCODE that succeeds has stored the concatenation of the codes of its symbols. -/
theorem exec_encode_storedBits {s t : State} (hp : s.params.wf = true) (h : exec .encode s = .next t)
    (hok : t.errcode = .ok) :
    ∃ cs : List Code, StoredBits s t s.operands.dstAddr.toNat cs.flatten ∧
      List.Forall₂ (fun (w : Word) c => w.toNat ≤ 0xFFFF ∧ s.codeAt w.toNat = some c)
        (s.readWords s.operands.srcAddr.toNat s.operands.srcLen.toNat) cs := by
  obtain ⟨hstatic, rfl⟩ := exec_next_ok h hok
  have hranges := (rangesOk_encode _ _).mp (staticError_eq_none hstatic).1
  rcases encodeRule_cases s s.operands with ⟨out, hloop, hrule⟩ | ⟨e, hloop, hrule⟩
  · obtain ⟨cs, hcs, rfl⟩ := encodeLoop_ok hloop
    have hfit := encodeLoop_length hloop (Nat.zero_le _)
    rw [hrule]
    exact ⟨cs, storedBits_bitStore s _ _ (hranges.bits_lt hp (by omega)), hcs⟩
  · rw [hrule, failInto_errcode] at hok
    rcases encodeLoop_error hloop with hcode | hcode | hcode <;> rw [hcode] at hok <;> cases hok

/-! ### The round trip (R163) -/

/-- A table that holds only the tree's codes gives each symbol it knows its own code in the tree. -/
theorem forall₂_codes_of_table {s : State} {t : HTree} {ws : List Word} {cs : List Code}
    (htable : ∀ k c, s.codeAt k = some c ↔ ∃ w, (w, c) ∈ t.codes ∧ w.toNat = k)
    (h : List.Forall₂ (fun (w : Word) c => w.toNat ≤ 0xFFFF ∧ s.codeAt w.toNat = some c) ws cs) :
    List.Forall₂ (fun w c => (w, c) ∈ t.codes) ws cs := by
  refine h.imp fun w c ⟨_, hwc⟩ => ?_
  obtain ⟨v, hv, hvw⟩ := (htable _ _).mp hwc
  rwa [← BitVec.eq_of_toNat_eq hvw]

/-- Settles O41: CT_GEN's table holds the tree's codes, ENCODE's output is their concatenation along the symbols read, and
DECODE, under the same tree, gives the symbols back. -/
theorem encodeDecodeRoundTrip : Obligations.EncodeDecodeRoundTrip := by
  intro g g' e e' d t ixs _ htree hgen hgok hep hcode henc heok _ hvalid hroot hnodes hlen hbits hranges hfit
  obtain ⟨cs, ⟨hout, hstored, -, -, -⟩, hcs⟩ := exec_encode_storedBits hep henc heok
  have htable : ∀ k c, e.codeAt k = some c ↔ ∃ w, (w, c) ∈ t.codes ∧ w.toNat = k := by
    simpa only [State.codeAt, hcode] using exec_ctGen_codeAt htree hgen hgok
  have hshape : TreeAt d.nodeAt d.operands.root.toNat t ixs := by
    rw [hroot]
    exact htree.shape.congr fun i _ => hnodes i
  have hin : d.readBits d.operands.srcAddr.toNat d.operands.srcLen.toNat = cs.flatten := by
    rw [hlen, hbits, hout, hstored]
  have hdecoded := decodeSymbols_codes hshape (forall₂_codes_of_table htable hcs) hin (by rwa [length_readWords])
  obtain ⟨d', hd', hcount, hwords, -, hrest⟩ := exec_decode_ok hranges hvalid hdecoded
  rw [length_readWords] at hcount
  refine ⟨d', hd', congrArg State.errcode hrest, BitVec.eq_of_toNat_eq hcount, fun j hj => ?_⟩
  rw [hwords j (by rwa [length_readWords])]
  simp [State.readWords]

end Sys2Proof.Machine
end

section
/-! PROOF. O42, O45 and O46: what TREE_SER puts out, the streams that TREE_DESER refuses, and the round trip through the two
(spec/44_tree_codec.md R170, R171, R176 to R178). -/

namespace Sys2Proof.Machine

/-! ### TREE_SER (R170, R171) -/

/-- R103, R170: where its static checks pass and ROOT is a tree's, TREE_SER runs its rule over the tree's visits. -/
theorem exec_treeSer {s : State} {t : HTree} {ixs : List Nat} (h : TreeSerRangesOk s.operands s.params.bufBytes)
    (hv : s.operands.treeValid = true) (ht : s.HasTree s.operands.root.toNat t ixs) :
    exec .treeSer s = .next (s.serRule s.operands (treeVisits s.nodeAt t s.operands.root.toNat [])) :=
  (exec_of_none (staticError_none ((rangesOk_treeSer _ _).mpr h) fun _ => hv)).trans (withTree_of_hasTree _ ht)

/-- R171: over the visits of a tree of 16-bit symbols whose stream fits, the loop puts out the stream. -/
theorem State.HasTree.serLoop_stream {s : State} {c cap : Nat} {t : HTree} {ixs : List Nat} (h : s.HasTree c t ixs)
    (hf : t.symbolsFit) (hfit : t.stream.length ≤ cap) :
    serLoop s.nodeAt cap 0 0 (treeVisits s.nodeAt t c []) = .ok t.stream := by
  have hsyms : ∀ x ∈ Machine.leafEntries s.nodeAt (treeVisits s.nodeAt t c []), x.1.toNat ≤ 0xFFFF := by
    rw [h.leafEntries]
    exact fun x hx => t.symbolsFit_iff.mp hf _ _ (HTree.mem_preorder.mp hx)
  have hentries := h.shape.map_visitEntry []
  have hloop := serLoop_good (cap := cap) [] 0 0 hsyms (by
    rwa [hentries, Nat.zero_add, ← HTree.preorder, ← t.length_stream])
  rw [hentries, ← t.stream_eq, List.append_nil] at hloop
  rw [hloop, serLoop, Except.map, List.append_nil]

/-- R6, R68: a bit count that fits a destination region in range fits OUT_LEN. -/
theorem TreeSerRangesOk.bits_lt {p : Config.Params} {o : Operands} {n : Nat} (hp : p.wf = true)
    (h : TreeSerRangesOk o p.bufBytes) (hn : n ≤ 8 * o.dstCap.toNat) : n < 2 ^ 32 := by
  obtain ⟨-, -, hmax, -⟩ := (params_wf_iff p).mp hp
  rw [TreeSerRangesOk] at h
  omega

/-- Settles O42: the loop puts out the stream, whose length OUT_LEN holds, since BUF has at most 2^24 bytes. -/
theorem treeSerStoresTheStream : Obligations.TreeSerStoresTheStream := by
  intro s t ixs hwf hranges hvalid htree hf hfit
  rw [← t.length_stream_eq] at hfit ⊢
  have hstored := storedBits_bitStore s s.operands.dstAddr.toNat t.stream (hranges.bits_lt hwf hfit)
  refine ⟨_, exec_treeSer hranges hvalid htree, ?_⟩
  rw [State.serRule, htree.serLoop_stream hf hfit]
  exact ⟨hstored, hstored.1⟩

/-- R171: a TREE_SER that succeeds has stored the stream of a tree of 16-bit symbols. -/
theorem exec_treeSer_storedBits {s u : State} {t : HTree} {ixs : List Nat} (hp : s.params.wf = true)
    (ht : s.HasTree s.operands.root.toNat t ixs) (h : exec .treeSer s = .next u) (hok : u.errcode = .ok) :
    t.symbolsFit ∧ StoredBits s u s.operands.dstAddr.toNat t.stream := by
  obtain ⟨hstatic, vs, hvs, rfl⟩ := exec_next_ok h hok
  obtain rfl : treeVisits s.nodeAt t s.operands.root.toNat [] = vs := Except.ok.inj (ht.walkFrom.symm.trans hvs)
  have hranges := (rangesOk_treeSer _ _).mp (staticError_eq_none hstatic).1
  rcases serRule_cases s s.operands _ with ⟨out, hloop, hrule⟩ | ⟨e, hloop, hrule⟩
  · obtain ⟨hf, rfl⟩ := ht.serLoop_ok hloop
    have hfit := serLoop_length hloop (Nat.zero_le _)
    rw [hrule]
    exact ⟨hf, storedBits_bitStore s _ _ (hranges.bits_lt hp (by omega))⟩
  · rw [hrule, failInto_errcode] at hok
    rcases serLoop_error hloop with hcode | hcode <;> rw [hcode] at hok <;> cases hok

/-! ### TREE_DESER (R176, R177) -/

/-- R103: TREE_DESER's static check is that of its source region. -/
theorem exec_treeDeser {s : State} (h : TreeDeserRangesOk s.operands s.params.bufBytes) :
    exec .treeDeser s = .next (s.deserRule s.operands) :=
  exec_of_none (staticError_none ((rangesOk_treeDeser _ _).mpr h) nofun)

/-- R176: on a tree's stream the rule stores the tree from entry 0 of NODE on and makes it the valid one. -/
theorem deserRule_stream {s : State} {o : Operands} {t : HTree} (hsize : t.size ≤ 131071)
    (hbits : s.readBits o.srcAddr.toNat o.srcLen.toNat = t.stream) :
    s.deserRule o =
      ({ s with root := 0, node := putTree s.node 0 t }.setTree t.size t.leaves).succeed o.srcLen.toNat := by
  rw [State.deserRule, hbits, parseTree_stream s.node hsize]

/-- R177: where the parse fails, with `a` nodes allocated, ERR_POS holds its position, which is at most T; the entries from
`a` on are unchanged, and so is everything else but NODE and the record of the error. -/
theorem exec_treeDeser_error {s : State} {e : ErrCode} {pos a : Nat} (h : TreeDeserRangesOk s.operands s.params.bufBytes)
    (herr : parseTree (s.readBits s.operands.srcAddr.toNat s.operands.srcLen.toNat) s.node = .error ⟨⟨e, pos⟩, a⟩) :
    ∃ u, exec .treeDeser s = .next u ∧ u.errPos.toNat = pos ∧ (∀ i, a ≤ i → u.nodeAt i = s.nodeAt i) ∧
      { u with node := s.node, draws := s.draws, errPos := 0 } =
        { s with seq := none, done := true, errcode := e, errPos := 0, outLen := 0, root := 0 } := by
  have hpos : pos ≤ s.operands.srcLen.toNat := by simpa only [length_readBits] using parseTree_pos herr
  refine ⟨_, exec_treeDeser h, ?_⟩
  rw [State.deserRule, herr]
  refine ⟨?_, fun i hi => ?_, rfl⟩
  · rw [State.fail_errPos, BitVec.toNat_ofNat, Nat.mod_eq_of_lt (hpos.trans_lt s.operands.srcLen.isLt)]
  · rw [State.fail_nodeAt, nodeAt_anyNodes_outside _ _ _ _ (.inr ((Nat.zero_add a).trans_le hi))]
    rfl

/-- Settles O45: the parse of each of the three bad streams fails, with at most `n` nodes allocated. -/
theorem treeDeserReportsBadStreams : Obligations.TreeDeserReportsBadStreams := by
  intro s t rest e pos n hranges _ hbad
  obtain ⟨a, ha, herr⟩ : ∃ a, a ≤ n ∧
      parseTree (s.readBits s.operands.srcAddr.toNat s.operands.srcLen.toNat) s.node = .error ⟨⟨e, pos⟩, a⟩ := by
    rcases hbad with ⟨rfl, rfl, hcut, hrest, hn, hlen⟩ | ⟨rfl, rfl, hbits, hrest, rfl, hn⟩ |
      ⟨rfl, rfl, ⟨more, hmore⟩, rfl, hsize, hlen⟩
    · simpa only [length_readBits] using parseTree_short s.node hcut hrest hn hlen
    · exact ⟨_, Nat.le_refl _, hbits ▸ parseTree_leftover s.node hrest hn⟩
    · exact ⟨_, Nat.le_refl _, parseTree_full s.node hmore hsize hlen⟩
  obtain ⟨u, hu, hpos, hnodes, hrest⟩ := exec_treeDeser_error hranges herr
  exact ⟨u, hu, hpos, fun i hi => hnodes i (ha.trans hi), hrest⟩

/-! ### The round trip (R178) -/

/-- R37: a well-formed tree has at most NODE_CAP nodes. -/
theorem State.HasTree.size_le {s : State} {c : Nat} {t : HTree} {ixs : List Nat} (h : s.HasTree c t ixs) :
    t.size ≤ 131071 :=
  h.shape.length_eq ▸ length_le_cap h.nodup h.bound

/-- Settles O46: TREE_SER's output is the stream of the tree itself, whose symbols and size suit TREE_DESER, which stores
that tree from entry 0 of NODE on. -/
theorem treeCodecRoundTrip : Obligations.TreeCodecRoundTrip := by
  intro a a' b t ixs hwf _ htree hser hok _ hlen hbits hranges
  obtain ⟨hf, hout, hstored, -, -, -⟩ := exec_treeSer_storedBits hwf htree hser hok
  have hin : b.readBits b.operands.srcAddr.toNat b.operands.srcLen.toNat = t.stream := by
    rw [hlen, hbits, hout, hstored]
  refine ⟨_, t, exec_treeDeser hranges, ?_⟩
  rw [deserRule_stream htree.size_le hin]
  exact ⟨rfl, rfl, rfl, hasTree_putTree hf htree.size_le rfl, fun _ => rfl⟩

end Sys2Proof.Machine
end

section
/-! PROOF. O52: the soft reset of an idle block (spec/70_reset_and_hazards.md R231, R232; spec/10_state.md R23). -/

namespace Sys2Proof.Machine

/-- R231: with no command running there is nothing to abandon. -/
theorem abandonRunning_idle {s : State} (h : s.seq = none) : s.abandonRunning = s := by
  rw [State.abandonRunning, h]

/-- R23: SRST is bit 1 of CTRL, and the soft reset takes the rest of the write with it. -/
theorem writeCtrl_srst {v : Word} (h : v.getLsbD 1 = true) (s : State) : s.writeCtrl v = s.softReset :=
  if_pos h

/-- R231: the cleared state is the power-on state of R46 but for NODE, BUF and the fields that are no register or flag. -/
theorem clearForReset_eq (s : State) :
    s.clearForReset = { State.reset with
      params := s.params, node := s.node, buf := s.buf, epoch := s.epoch, draws := s.draws, resetIn := s.resetIn,
      readData := s.readData, events := s.events } :=
  rfl

/-- R232: while BUSY = 0 the soft reset is the clearing alone. -/
theorem softReset_idle {s : State} (h : s.seq = none) : s.softReset = s.clearForReset := by
  rw [State.softReset, abandonRunning_idle h]

/-- Settles O52: an idle block performs the CTRL write as a soft reset, which has no command to abandon and so only clears. -/
theorem idleSoftReset : Obligations.IdleSoftReset := by
  intro s v es hwf hr hidle hsrst he
  have hstep : step s = .next (State.writeCtrl { s with events := es } v) :=
    step_writeAt_idle (p := .reg .ctrl) hr he (register_offset_lt_windowBytes hwf (by decide)) rfl rfl hidle
  rw [hstep, writeCtrl_srst hsrst, softReset_idle (s := { s with events := es }) hidle, clearForReset_eq, hr]
  rfl

end Sys2Proof.Machine
end

section
/-! PROOF. O18 to O21: in which states a command can complete, and what that says of the record of its completion, of
the state it leaves alone, of its destination and of its errors (spec/10_state.md R21, R33;
spec/40_command_protocol.md R103 to R105; spec/60_exceptions.md R201). -/

namespace Sys2Proof.Machine

/-! ### The completions of each command -/

/-- The states in which a command completes from `s`, with what its static checks and its loop say of the values it
writes. A constructor a way to end: `static` is R103's failure, each `…Bad` a failure of the command's own rule. -/
inductive Completes (s : State) : Instr → State → Prop
  | static {i : Instr} {e : ErrCode} (he : s.staticError i = some e) : Completes s i (s.fail e 0)
  | nop : Completes s .nop (s.succeed 0)
  | nodeWrite (hidx : s.operands.nodeIdx.toNat < 131071) :
      Completes s .nodeWrite ((s.putNode s.operands.nodeIdx.toNat s.operands.windowNode).succeed 0)
  | nodeRead : Completes s .nodeRead ((s.loadWindow (s.nodeAt s.operands.nodeIdx.toNat)).succeed 0)
  | treeCommit {vs : List Visit} (hwalk : s.walkFrom s.operands.root.toNat = .ok vs) :
      Completes s .treeCommit ((s.setTree vs.length (s.countLeaves vs)).succeed 0)
  | treeCommitBad {v : Nat} (hwalk : s.walkFrom s.operands.root.toNat = .error v) :
      Completes s .treeCommit (s.fail .corruptTree v)
  | ctClear : Completes s .ctClear (s.clearCode.succeed 0)
  | ctWriteDrop : Completes s .ctWrite ((s.dropCode s.operands.ctSym.toNat).succeed 0)
  | ctWritePut (hsym : s.operands.ctSym.toNat ≤ 0xFFFF) {p : Code} (hp : 1 ≤ p.length ∧ p.length ≤ 32) :
      Completes s .ctWrite ((s.putCode s.operands.ctSym.toNat p).succeed 0)
  | ctWriteBad {e : ErrCode} (he : e = .unsupportedSymbol ∨ e = .capacityExceeded) : Completes s .ctWrite (s.fail e 0)
  | ctRead : Completes s .ctRead ((s.loadCode (s.codeAt s.operands.ctSym.toNat)).succeed 0)
  | ctReadBad : Completes s .ctRead (s.fail .unsupportedSymbol 0)
  | ctGen {xs : List (Word × List Bool)} (hxs : ∀ x ∈ xs, x.1.toNat ≤ 0xFFFF ∧ (codeOfPath x.2).length ≤ 32)
      (hlen : xs.length ≤ 131071) : Completes s .ctGen ({ s with code := putCodes [] xs }.succeed xs.length)
  | ctGenBad {e : CmdError} (he : e.code = .unsupportedSymbol ∨ e.code = .corruptTree ∨ e.code = .capacityExceeded)
      (hpos : e.pos ≤ 131070) : Completes s .ctGen (s.clearCode.fail e.code e.pos)
  | encode {out : List Bool} (hranges : EncodeRangesOk s.operands s.params.bufBytes)
      (hfit : out.length ≤ 8 * s.operands.dstCap.toNat) :
      Completes s .encode ((s.bitStore s.operands.dstAddr.toNat out).succeed out.length)
  | encodeBad {e : CmdError} (he : e.code = .unsupportedSymbol ∨ e.code = .unknownSymbol ∨ e.code = .outputOverflow)
      (hpos : e.pos ≤ s.operands.srcLen.toNat) :
      Completes s .encode (s.failInto s.operands.dstAddr.toNat s.operands.dstCap.toNat e)
  | decode {out : List Word} (hranges : DecodeRangesOk s.operands s.params.bufBytes)
      (hfit : 4 * out.length ≤ s.operands.dstCap.toNat) :
      Completes s .decode ({ s with buf := (s.writeWords s.operands.dstAddr.toNat out).buf }.succeed out.length)
  | decodeBad {e : CmdError} (he : e.code = .truncatedStream ∨ e.code = .outputOverflow)
      (hpos : e.pos ≤ s.operands.srcLen.toNat) :
      Completes s .decode (s.failInto s.operands.dstAddr.toNat s.operands.dstCap.toNat e)
  | treeSer {out : List Bool} (hranges : TreeSerRangesOk s.operands s.params.bufBytes)
      (hfit : out.length ≤ 8 * s.operands.dstCap.toNat) :
      Completes s .treeSer ((s.bitStore s.operands.dstAddr.toNat out).succeed out.length)
  | treeSerBad {e : CmdError} (he : e.code = .unsupportedSymbol ∨ e.code = .outputOverflow) (hpos : e.pos ≤ 131070) :
      Completes s .treeSer (s.failInto s.operands.dstAddr.toNat s.operands.dstCap.toNat e)
  | treeDeser {t : HTree} (hranges : TreeDeserRangesOk s.operands s.params.bufBytes) (hfit : t.symbolsFit)
      (hsize : t.size ≤ 131071) :
      Completes s .treeDeser
        (({ s with root := 0, node := putTree s.node 0 t }.setTree t.size t.leaves).succeed s.operands.srcLen.toNat)
  | treeDeserBad {e : ParseError} (he : e.err.code = .corruptTree ∨ e.err.code = .capacityExceeded)
      (hpos : e.err.pos ≤ s.operands.srcLen.toNat) (hn : e.n ≤ 131071) :
      Completes s .treeDeser (({ s with root := 0 }.anyNodes 0 e.n).fail e.err.code e.err.pos)

/-- R124: the completions of CT_WRITE's rule. -/
theorem completes_ctWriteRule (s : State) :
    Completes s .ctWrite
      (s.ctWriteRule s.operands.ctSym.toNat s.operands.ctLen.toNat s.operands.ctBits.toNat) := by
  rcases ctWriteRule_cases s s.operands.ctSym.toNat s.operands.ctLen.toNat s.operands.ctBits.toNat with
    ⟨-, h⟩ | ⟨-, -, h⟩ | ⟨-, -, h⟩ | ⟨hsym, hpos, hlen, h⟩ <;> rw [h]
  · exact .ctWriteBad (.inl rfl)
  · exact .ctWriteBad (.inr rfl)
  · exact .ctWriteDrop
  · exact .ctWritePut hsym (by rw [length_natBits]; exact ⟨hpos, hlen⟩)

/-- R126: the completions of CT_GEN's rule, over the visits of a walk. -/
theorem completes_genRule {s : State} {vs : List Visit} (hwalk : s.walkFrom s.operands.root.toNat = .ok vs) :
    Completes s .ctGen (s.genRule vs) := by
  have hvs := walkFrom_length_le hwalk
  rcases genRule_cases s vs with ⟨code, made, hloop, h⟩ | ⟨e, hloop, h⟩ <;> rw [h]
  · obtain ⟨hxs, -, -, rfl, rfl⟩ := genLoop_ok hloop
    rw [Nat.zero_add]
    exact .ctGen hxs ((List.length_filterMap_le _ _).trans hvs)
  · have hpos := genLoop_pos hloop
    exact .ctGenBad (genLoop_error hloop) (by omega)

/-- R150: the completions of ENCODE's rule. -/
theorem completes_encodeRule {s : State} (hranges : EncodeRangesOk s.operands s.params.bufBytes) :
    Completes s .encode (s.encodeRule s.operands) := by
  rcases encodeRule_cases s s.operands with ⟨out, hloop, h⟩ | ⟨e, hloop, h⟩ <;> rw [h]
  · have hfit := encodeLoop_length hloop (Nat.zero_le _)
    exact .encode hranges (by omega)
  · have hpos := encodeLoop_pos hloop
    rw [length_readWords] at hpos
    exact .encodeBad (encodeLoop_error hloop) (by omega)

/-- R160: the completions of DECODE's rule. -/
theorem completes_decodeRule {s : State} (hranges : DecodeRangesOk s.operands s.params.bufBytes) :
    Completes s .decode (s.decodeRule s.operands) := by
  rcases decodeRule_cases s s.operands with ⟨out, hloop, h⟩ | ⟨e, hloop, h⟩ <;> rw [h]
  · rw [writeWords_eq]
    exact .decode hranges (decodeSymbols_length hloop)
  · exact .decodeBad (decodeSymbols_error hloop) (decodeSymbols_pos hloop)

/-- R170: the completions of TREE_SER's rule, over the visits of a walk. -/
theorem completes_serRule {s : State} {vs : List Visit} (hranges : TreeSerRangesOk s.operands s.params.bufBytes)
    (hwalk : s.walkFrom s.operands.root.toNat = .ok vs) : Completes s .treeSer (s.serRule s.operands vs) := by
  have hvs := walkFrom_length_le hwalk
  rcases serRule_cases s s.operands vs with ⟨out, hloop, h⟩ | ⟨e, hloop, h⟩ <;> rw [h]
  · have hfit := serLoop_length hloop (Nat.zero_le _)
    exact .treeSer hranges (by omega)
  · have hpos := serLoop_pos hloop
    exact .treeSerBad (serLoop_error hloop) (by omega)

/-- R176: the completions of TREE_DESER's rule. -/
theorem completes_deserRule {s : State} (hranges : TreeDeserRangesOk s.operands s.params.bufBytes) :
    Completes s .treeDeser (s.deserRule s.operands) := by
  rcases deserRule_cases s s.operands with ⟨q, hparse, h⟩ | ⟨e, hparse, h⟩ <;> rw [h]
  · obtain ⟨t, hfit, hsize, -, hn, hleaves, hnode⟩ := parseTree_ok hparse
    rw [hn, hleaves, hnode]
    exact .treeDeser hranges hfit hsize
  · have hpos := parseTree_pos hparse
    rw [length_readBits] at hpos
    exact .treeDeserBad (parseTree_error hparse) hpos (parseTree_error_n hparse)

/-- R103: a command whose static checks pass completes as its rule says. -/
theorem completes_of_ruleEnds {i : Instr} {s t : State} (hstatic : s.staticError i = none) (h : RuleEnds s t i) :
    Completes s i t := by
  have hranges := (staticError_eq_none hstatic).1
  cases i with
  | nop => subst h; exact .nop
  | nodeWrite => subst h; exact .nodeWrite ((rangesOk_nodeWrite _ _).mp hranges)
  | nodeRead => subst h; exact .nodeRead
  | treeCommit =>
    subst h
    rcases commit_cases s (s.walkFrom s.operands.root.toNat) with ⟨vs, hwalk, h⟩ | ⟨v, hwalk, h⟩ <;> rw [h]
    · exact .treeCommit hwalk
    · exact .treeCommitBad hwalk
  | ctClear => subst h; exact .ctClear
  | ctWrite => subst h; exact completes_ctWriteRule s
  | ctRead =>
    subst h
    rcases ctReadRule_cases s s.operands.ctSym.toNat with ⟨-, h⟩ | ⟨-, h⟩ <;> rw [h]
    · exact .ctReadBad
    · exact .ctRead
  | ctGen => obtain ⟨vs, hwalk, rfl⟩ := h; exact completes_genRule hwalk
  | encode => subst h; exact completes_encodeRule ((rangesOk_encode _ _).mp hranges)
  | decode => subst h; exact completes_decodeRule ((rangesOk_decode _ _).mp hranges)
  | treeSer => obtain ⟨vs, hwalk, rfl⟩ := h; exact completes_serRule ((rangesOk_treeSer _ _).mp hranges) hwalk
  | treeDeser => subst h; exact completes_deserRule ((rangesOk_treeDeser _ _).mp hranges)

/-- What a command can do: the state it answers is one of its completions. -/
theorem exec_completes {i : Instr} {s t : State} (h : exec i s = .next t) : Completes s i t := by
  rcases exec_next h with ⟨e, he, rfl⟩ | ⟨hstatic, hends⟩
  · exact .static he
  · exact completes_of_ruleEnds hstatic hends

/-- A byte of BUF depends on the bytes listed and the epoch. -/
theorem bufByte_congr {s t : State} (hb : t.buf = s.buf) (he : t.epoch = s.epoch) (k : Nat) :
    t.bufByte k = s.bufByte k := by
  simp only [State.bufByte, State.unlistedByte, hb, he]

namespace Completes

variable {i : Instr} {s t : State}

/-! ### What no command writes, and what only some write (R21) -/

/-- R21, R23, R26, R35: no command writes CTRL, a parameter register, NODE_IDX, CT_SYM or DROP, nor a field that is no
state of the block's own. -/
theorem keeps (h : Completes s i t) :
    t.params = s.params ∧ t.ie = s.ie ∧ t.drop = s.drop ∧ t.srcAddr = s.srcAddr ∧ t.srcLen = s.srcLen ∧
      t.dstAddr = s.dstAddr ∧ t.dstCap = s.dstCap ∧ t.nodeIdx = s.nodeIdx ∧ t.ctSym = s.ctSym ∧ t.epoch = s.epoch ∧
      t.resetIn = s.resetIn ∧ t.readData = s.readData ∧ t.events = s.events := by
  cases h <;> exact ⟨rfl, rfl, rfl, rfl, rfl, rfl, rfl, rfl, rfl, rfl, rfl, rfl, rfl⟩

theorem root_eq (h : Completes s i t) (hi : i ≠ .treeDeser) : t.root = s.root := by
  cases h
  case treeDeser | treeDeserBad => exact absurd rfl hi
  all_goals rfl

theorem window_eq (h : Completes s i t) (hi : i ≠ .nodeRead) :
    t.nodeKind = s.nodeKind ∧ t.nodeSym = s.nodeSym ∧ t.nodeLeft = s.nodeLeft ∧ t.nodeRight = s.nodeRight := by
  cases h
  case nodeRead => exact absurd rfl hi
  all_goals exact ⟨rfl, rfl, rfl, rfl⟩

theorem codeWindow_eq (h : Completes s i t) (hi : i ≠ .ctRead) : t.ctLen = s.ctLen ∧ t.ctBits = s.ctBits := by
  cases h
  case ctRead | ctReadBad => exact absurd rfl hi
  all_goals exact ⟨rfl, rfl⟩

/-- R38: TREE_VALID and the counts are written by a successful TREE_COMMIT or TREE_DESER only. -/
theorem tree_eq (h : Completes s i t) (hi : i = .treeCommit ∨ i = .treeDeser → t.errcode ≠ .ok) :
    t.treeValid = s.treeValid ∧ t.nodeCount = s.nodeCount ∧ t.leafCount = s.leafCount := by
  cases h
  case treeCommit => exact absurd rfl (hi (.inl rfl))
  case treeDeser => exact absurd rfl (hi (.inr rfl))
  all_goals exact ⟨rfl, rfl, rfl⟩

theorem nodeAt_eq (h : Completes s i t) (hw : i ≠ .nodeWrite) (hd : i ≠ .treeDeser) (k : Nat) :
    t.nodeAt k = s.nodeAt k := by
  cases h
  case nodeWrite => exact absurd rfl hw
  case treeDeser | treeDeserBad => exact absurd rfl hd
  all_goals rfl

theorem code_eq (h : Completes s i t) (hc : i ≠ .ctClear) (hw : i ≠ .ctWrite) (hg : i ≠ .ctGen) : t.code = s.code := by
  cases h
  case ctClear => exact absurd rfl hc
  case ctWriteDrop | ctWritePut | ctWriteBad => exact absurd rfl hw
  case ctGen | ctGenBad => exact absurd rfl hg
  all_goals rfl

theorem buf_eq (h : Completes s i t) (he : i ≠ .encode) (hd : i ≠ .decode) (hs : i ≠ .treeSer) : t.buf = s.buf := by
  cases h
  case encode | encodeBad => exact absurd rfl he
  case decode | decodeBad => exact absurd rfl hd
  case treeSer | treeSerBad => exact absurd rfl hs
  all_goals rfl

theorem ie_eq (h : Completes s i t) : t.ie = s.ie := by cases h <;> rfl
theorem epoch_eq (h : Completes s i t) : t.epoch = s.epoch := by cases h <;> rfl

/-- R105: a storing command writes no byte outside its destination region; the others write no byte. -/
theorem bufByte_outside (h : Completes s i t) {k : Nat}
    (hk : k < s.operands.dstAddr.toNat ∨ s.operands.dstAddr.toNat + s.operands.dstCap.toNat ≤ k) :
    t.bufByte k = s.bufByte k := by
  cases h
  case encode out _ hfit =>
    exact (bufByte_bitStore s _ out k).trans (if_neg (by unfold ceilDiv8; omega))
  case treeSer out _ hfit =>
    exact (bufByte_bitStore s _ out k).trans (if_neg (by unfold ceilDiv8; omega))
  case decode out _ hfit =>
    rw [State.succeed_bufByte, ← writeWords_eq, bufByte_writeWords_outside out s _ k (by omega)]
  case encodeBad | decodeBad | treeSerBad => exact bufByte_anyRegion_outside s _ _ k hk
  all_goals rfl

end Completes

/-- Settles O19: each clause is read off the completions of the commands it speaks of. -/
theorem commandsWriteOnlyWhatTheirRulesName : Obligations.CommandsWriteOnlyWhatTheirRulesName := by
  intro i s t h
  have hc := exec_completes h
  exact ⟨hc.keeps, hc.root_eq, hc.window_eq, hc.codeWindow_eq,
    fun hcommit hdeser => hc.tree_eq fun hi => (hi.elim hcommit hdeser).elim, hc.nodeAt_eq, hc.code_eq,
    fun he hd hs => bufByte_congr (hc.buf_eq he hd hs) hc.epoch_eq⟩

/-- Settles O20: what is stored, and what `any` replaces, fits DST_CAP. -/
theorem storingCommandsKeepToTheirDestination : Obligations.StoringCommandsKeepToTheirDestination :=
  fun _ _ _ _ h _ hk => (exec_completes h).bufByte_outside hk

/-! ### The record of a completion (R104, R33) -/

/-- A register holds no more than the number written to it. -/
theorem toNat_ofNat_le {n b : Nat} (h : n ≤ b) : (BitVec.ofNat 32 n).toNat ≤ b :=
  (BitVec.toNat_ofNat ..).le.trans ((Nat.mod_le _ _).trans h)

/-- R103: the static checks fail with BadRange or NoTree. -/
theorem staticError_eq {s : State} {i : Instr} {e : ErrCode} (h : s.staticError i = some e) :
    e = .badRange ∨ e = .noTree :=
  (staticError_cases h).imp (·.1) (·.1)

namespace Completes

variable {i : Instr} {s t : State}

theorem seq_eq (h : Completes s i t) : t.seq = none := by cases h <;> rfl
theorem done_eq (h : Completes s i t) : t.done = true := by cases h <;> rfl

/-- R104: a command completes with OK and ERR_POS 0, or with another code and OUT_LEN 0. -/
theorem succeeds_or_fails (h : Completes s i t) :
    (t.errcode = .ok ∧ t.errPos = 0) ∨ (t.errcode ≠ .ok ∧ t.outLen = 0) := by
  cases h
  case static he => right; rcases staticError_eq he with rfl | rfl <;> exact ⟨nofun, rfl⟩
  case treeCommitBad | ctReadBad => exact .inr ⟨nofun, rfl⟩
  case ctWriteBad he => right; rcases he with rfl | rfl <;> exact ⟨nofun, rfl⟩
  case ctGenBad he _ | encodeBad he _ =>
    refine .inr ⟨fun hok => ?_, rfl⟩
    rcases he with he | he | he <;> cases he.symm.trans hok
  case decodeBad he _ | treeSerBad he _ | treeDeserBad he _ _ =>
    refine .inr ⟨fun hok => ?_, rfl⟩
    rcases he with he | he <;> cases he.symm.trans hok
  all_goals exact .inl ⟨rfl, rfl⟩

/-- R33: OUT_LEN counts at most the bits of BUF, CT_GEN's entries apart. -/
theorem outLen_le (h : Completes s i t) (hi : i ≠ .ctGen) : t.outLen.toNat ≤ 8 * s.params.bufBytes := by
  cases h
  case ctGen | ctGenBad => exact absurd rfl hi
  case encode hranges hfit => exact toNat_ofNat_le (by obtain ⟨-, -, hdst, -⟩ := hranges; omega)
  case decode hranges hfit => exact toNat_ofNat_le (by obtain ⟨-, -, hdst, -⟩ := hranges; omega)
  case treeSer hranges hfit => exact toNat_ofNat_le (by rw [TreeSerRangesOk] at hranges; omega)
  case treeDeser hranges _ _ => exact toNat_ofNat_le (by rw [TreeDeserRangesOk] at hranges; omega)
  all_goals exact Nat.zero_le _

/-- R33: after DECODE, OUT_LEN counts words of BUF. -/
theorem outLen_decode_le (h : Completes s .decode t) : 4 * t.outLen.toNat ≤ s.params.bufBytes := by
  cases h with
  | static => exact Nat.zero_le _
  | @decode out hranges hfit =>
    obtain ⟨-, -, hdst, -⟩ := hranges
    have hle := toNat_ofNat_le (Nat.le_refl out.length)
    exact (Nat.mul_le_mul_left 4 hle).trans (by omega)
  | decodeBad => exact Nat.zero_le _

/-- R33: after CT_GEN, OUT_LEN counts leaves. -/
theorem outLen_ctGen_le (h : Completes s .ctGen t) : t.outLen.toNat ≤ 131071 := by
  cases h with
  | static => exact Nat.zero_le _
  | ctGen _ hlen => exact toNat_ofNat_le hlen
  | ctGenBad => exact Nat.zero_le _

/-- R33: ERR_POS is an index of the source or of a node. -/
theorem errPos_le (h : Completes s i t) (hi : i ≠ .treeCommit) :
    t.errPos.toNat ≤ max s.operands.srcLen.toNat 131070 := by
  cases h
  case treeCommit | treeCommitBad => exact absurd rfl hi
  case ctGenBad hpos | treeSerBad hpos => exact toNat_ofNat_le (le_max_of_le_right hpos)
  case encodeBad hpos | decodeBad hpos => exact toNat_ofNat_le (le_max_of_le_left hpos)
  case treeDeserBad hpos _ => exact toNat_ofNat_le (le_max_of_le_left hpos)
  all_goals exact Nat.zero_le _

/-- R122: ERR_POS of TREE_COMMIT counts visited nodes. -/
theorem errPos_treeCommit_le (h : Completes s .treeCommit t) : t.errPos.toNat ≤ 131071 := by
  cases h with
  | static => exact Nat.zero_le _
  | treeCommit => exact Nat.zero_le _
  | treeCommitBad hwalk => exact toNat_ofNat_le (walkFrom_error_le hwalk)

/-- R31, R33: NODE_COUNT after a success of the two commands that write it. -/
theorem nodeCount_le (h : Completes s i t) (hi : i = .treeCommit ∨ i = .treeDeser) (hok : t.errcode = .ok) :
    t.nodeCount.toNat ≤ 131071 := by
  cases h
  case static he => rcases staticError_eq he with rfl | rfl <;> cases hok
  case treeCommit hwalk => exact toNat_ofNat_le (walkFrom_length_le hwalk)
  case treeCommitBad => cases hok
  case treeDeser hsize => exact toNat_ofNat_le hsize
  case treeDeserBad he _ _ => rcases he with he | he <;> cases he.symm.trans hok
  all_goals rcases hi with hi | hi <;> cases hi

/-- R33, R39: CT_LEN after a success of CT_READ is the length of a code of CODE, or 0. -/
theorem ctLen_le (h : Completes s .ctRead t) (hs : s.StoresOk) (hok : t.errcode = .ok) : t.ctLen.toNat ≤ 32 := by
  cases h with
  | static he => rcases staticError_eq he with rfl | rfl <;> cases hok
  | ctReadBad => cases hok
  | ctRead =>
    refine toNat_ofNat_le ?_
    cases hcode : s.codeAt s.operands.ctSym.toNat with
    | none => exact Nat.zero_le _
    | some p => exact (hs.codeBound _ (Ram.mem_of_get? hcode)).2.2

end Completes

/-- Settles O18: the completions of each command, clause by clause. -/
theorem everyCompletionSetsDone : Obligations.EveryCompletionSetsDone := by
  intro i s t h
  have hc := exec_completes h
  refine ⟨hc.seq_eq, hc.done_eq, ?_, fun hok => ?_, fun hne => ?_, hc.outLen_le, ?_, ?_, hc.errPos_le, ?_,
    hc.nodeCount_le, ?_⟩
  · rw [State.irq, hc.ie_eq, hc.done_eq, Bool.and_true]
  · rcases hc.succeeds_or_fails with ⟨-, hpos⟩ | ⟨hne, -⟩
    · exact hpos
    · exact absurd hok hne
  · rcases hc.succeeds_or_fails with ⟨hok, -⟩ | ⟨-, hlen⟩
    · exact absurd hok hne
    · exact hlen
  · rintro rfl; exact hc.outLen_decode_le
  · rintro rfl; exact hc.outLen_ctGen_le
  · rintro rfl; exact hc.errPos_treeCommit_le
  · rintro rfl; exact hc.ctLen_le

/-! ### The errors of each command (R201) -/

/-- R103: the commands without a region or an index cannot fail with BadRange. -/
theorem not_badRange {s : State} {i : Instr}
    (hi : i = .nop ∨ i = .treeCommit ∨ i = .ctClear ∨ i = .ctWrite ∨ i = .ctRead ∨ i = .ctGen) :
    s.staticError i ≠ some .badRange := by
  intro h
  rcases staticError_cases h with ⟨-, hbad⟩ | ⟨hne, -⟩
  · exact hbad (rangesOk_other _ _ hi)
  · cases hne

/-- R103: a command that needs no tree cannot fail with NoTree. -/
theorem needsTree_of_noTree {s : State} {i : Instr} (h : s.staticError i = some .noTree) : needsTree i = true := by
  rcases staticError_cases h with ⟨hne, -⟩ | ⟨-, hneeds, -⟩
  · cases hne
  · exact hneeds

/-- Settles O21: a static failure is BadRange of a command with a region or an index or NoTree of one that needs a
tree, and every other completion has its error in its constructor. -/
theorem errorMatrix : Obligations.ErrorMatrix := by
  intro i s t h
  have hc := exec_completes h
  refine ⟨hc.errPos_le, by rintro rfl; exact hc.errPos_treeCommit_le, ?_⟩
  cases hc
  case static he =>
    rcases staticError_eq he with rfl | rfl
    · have hi := mt (not_badRange (s := s) (i := i)) (not_not_intro he)
      cases i <;> simp at hi ⊢
    · have hi := needsTree_of_noTree he
      cases i <;> simp [needsTree] at hi ⊢
  case ctWriteBad he => rcases he with rfl | rfl <;> simp
  case ctGenBad he _ | encodeBad he _ => rcases he with he | he | he <;> simp [he]
  case decodeBad he _ | treeSerBad he _ | treeDeserBad he _ _ => rcases he with he | he <;> simp [he]
  all_goals simp

end Sys2Proof.Machine
end

section
/-! PROOF. What a step does, whatever the event: the cases that statements about every step come down to
(spec/10_state.md R41; spec/60_exceptions.md R205; spec/70_reset_and_hazards.md R230). -/

namespace Sys2Proof.Machine

/-- R41: what a step does, told by its effect: the running command runs; a host access, alone or in the cycle of a
completion; nothing but a look at STATUS; a reset. The events still to come play no part in it. -/
theorem step_effect {s t : State} (h : step s = .next t) :
    (∃ es, runCommand { s with events := es } = .next t) ∨
    (∃ a es, s.events = .access a :: es ∧ hostAccess a { s with events := es } = .next t) ∨
    (∃ a es u, s.events = .accessFinish a :: es ∧ hostAccess a { s with events := es } = .next u ∧
      ((s.busy = true ∧ runCommand u = .next t) ∨ (s.busy = false ∧ t = u))) ∨
    (∃ es d, t = { s with events := es, readData := d }) ∨
    (∃ es b, t = { State.powerOn { s with events := es } with resetIn := b }) := by
  rcases step_next h with ⟨-, hrun⟩ | ⟨e, es, he, hevent⟩
  · exact .inl ⟨s.events, hrun⟩
  · rcases hevent with ⟨a, rfl, hacc⟩ | ⟨-, hrun⟩ | ⟨a, u, rfl, hacc, hu⟩ | ⟨n, -, hwait⟩ | ⟨-, rfl⟩ | ⟨-, -, rfl⟩ |
      ⟨-, -, rfl⟩
    · exact .inr (.inl ⟨a, es, he, hacc⟩)
    · exact .inl ⟨es, hrun⟩
    · exact .inr (.inr (.inl ⟨a, es, u, he, hacc, hu⟩))
    · rcases waitDone_next hwait with ⟨-, -, hrun⟩ | ⟨-, d, -, rfl⟩
      · exact .inl ⟨_, hrun⟩
      · exact .inr (.inr (.inr (.inl ⟨_, d, rfl⟩)))
    · exact .inr (.inr (.inr (.inr ⟨es, true, rfl⟩)))
    · exact .inr (.inr (.inr (.inr ⟨es, false, rfl⟩)))
    · exact .inr (.inr (.inr (.inl ⟨es, s.readData, rfl⟩)))

/-- A property that the running command, a host access and a reset keep, and that says nothing of the events to come
and the bus's data, is kept by every step. -/
theorem step_keeps {P : State → Prop} (hframe : ∀ s es d, P s → P { s with events := es, readData := d })
    (hrun : ∀ s t, P s → runCommand s = .next t → P t) (hacc : ∀ s t a, P s → hostAccess a s = .next t → P t)
    (hreset : ∀ s b, P s → P { s.powerOn with resetIn := b }) {s t : State} (hs : P s) (h : step s = .next t) :
    P t := by
  have hevents (es : List Event) : P { s with events := es } := hframe s es s.readData hs
  rcases step_effect h with ⟨es, hr⟩ | ⟨a, es, -, ha⟩ | ⟨a, es, u, -, ha, ⟨-, hr⟩ | ⟨-, rfl⟩⟩ | ⟨es, d, rfl⟩ |
    ⟨es, b, rfl⟩
  · exact hrun _ _ (hevents es) hr
  · exact hacc _ _ a (hevents es) ha
  · exact hrun _ _ (hacc _ _ a (hevents es) ha) hr
  · exact hacc _ _ a (hevents es) ha
  · exact hframe s es d hs
  · exact hreset _ b (hevents es)

end Sys2Proof.Machine
end

section
/-! PROOF. O55: every step keeps the canonical form and the bounds of the stores (spec/10_state.md R36, R39;
spec/20_memory.md R60). -/

namespace Sys2Proof.Machine

namespace State.StoresOk

variable {s t : State}

/-- R124: an entry of CODE that is put keeps the bounds of R39. -/
theorem putCode (h : s.StoresOk) {a : Nat} {p : Code} (ha : a ≤ 0xFFFF) (hp : 1 ≤ p.length ∧ p.length ≤ 32) :
    (s.putCode a p).StoresOk := by
  refine h.withCode rfl rfl rfl (Ram.wf_put h.code a p) fun c hc => ?_
  rcases Ram.mem_put hc with rfl | hc
  · exact ⟨ha, hp⟩
  · exact h.codeBound c hc

theorem dropCode (h : s.StoresOk) (a : Nat) : (s.dropCode a).StoresOk :=
  h.withCode rfl rfl rfl (Ram.wf_erase h.code a) fun c hc => h.codeBound c (Ram.mem_erase hc)

theorem clearCode (h : s.StoresOk) : s.clearCode.StoresOk :=
  h.withCode rfl rfl rfl List.Pairwise.nil nofun

/-- R126: a table made of the codes of leaves that CT_GEN accepts keeps the bounds of R39. -/
theorem putCodes (h : s.StoresOk) {xs : List (Word × List Bool)}
    (hxs : ∀ x ∈ xs, x.1.toNat ≤ 0xFFFF ∧ (codeOfPath x.2).length ≤ 32) :
    State.StoresOk { s with code := putCodes [] xs } := by
  refine h.withCode rfl rfl rfl (wf_putCodes xs List.Pairwise.nil) fun c hc => ?_
  rcases mem_putCodes hc with hc | ⟨x, hx, rfl⟩
  · cases hc
  · exact ⟨(hxs x hx).1, one_le_codeOfPath _, (hxs x hx).2⟩

/-- R120: NODE_WRITE lists an entry of NODE. -/
theorem putNode (h : s.StoresOk) {a : Nat} (n : Node) (ha : a < 131071) : (s.putNode a n).StoresOk := by
  refine h.withNode rfl rfl rfl (Ram.wf_put h.node a n) fun c hc => ?_
  rcases Ram.mem_put hc with rfl | hc
  · exact ha
  · exact h.nodeBound c hc

/-- A record of a completion, a window or a register that changes no store. -/
theorem sameStores (h : s.StoresOk) (hp : t.params = s.params := by rfl) (hb : t.buf = s.buf := by rfl)
    (hn : t.node = s.node := by rfl) (hc : t.code = s.code := by rfl) : t.StoresOk :=
  h.congr hp hb hn hc

end State.StoresOk

/-- R60, R67: a packing that fits a destination region in range stays inside BUF. -/
theorem ceilDiv8_le {n cap : Nat} (h : n ≤ 8 * cap) : ceilDiv8 n ≤ cap := by unfold ceilDiv8; omega

/-- Every completion keeps the stores: each command writes one of them, inside its bounds. -/
theorem Completes.storesOk {i : Instr} {s t : State} (h : Completes s i t) (hs : s.StoresOk) : t.StoresOk := by
  cases h
  case nodeWrite hidx => exact (hs.putNode _ hidx).sameStores
  case ctClear => exact hs.clearCode.sameStores
  case ctWriteDrop => exact (hs.dropCode _).sameStores
  case ctWritePut hsym p hp => exact (hs.putCode hsym hp).sameStores
  case ctGen hxs _ => exact (hs.putCodes hxs).sameStores
  case ctGenBad => exact hs.clearCode.sameStores
  case encode hranges hfit =>
    obtain ⟨-, -, hdst, -⟩ := hranges
    exact (hs.bitStore _ _ ((Nat.add_le_add_left (ceilDiv8_le hfit) _).trans hdst)).sameStores
  case treeSer hranges hfit =>
    exact (hs.bitStore _ _ ((Nat.add_le_add_left (ceilDiv8_le hfit) _).trans hranges)).sameStores
  case decode out hranges hfit =>
    obtain ⟨-, -, hdst, -⟩ := hranges
    have hw := hs.writeWords out s.operands.dstAddr.toNat (by omega)
    rw [writeWords_eq] at hw
    exact hw.sameStores
  case encodeBad | decodeBad | treeSerBad => exact (hs.anyRegion _ _).sameStores
  case treeDeser x _ _ hsize => exact (hs.putTree x 0 (by omega)).sameStores
  case treeDeserBad e _ _ hn =>
    have hroot : State.StoresOk { s with root := 0 } := hs.sameStores
    exact (hroot.anyNodes 0 e.n (by omega)).sameStores
  all_goals exact hs.sameStores

theorem runCommand_storesOk {s t : State} (hs : s.StoresOk) (h : runCommand s = .next t) : t.StoresOk := by
  rcases runCommand_next h with ⟨-, rfl⟩ | ⟨r, i, -, -, hexec⟩ | ⟨r, e, -, -, rfl⟩
  · exact hs
  · exact (exec_completes hexec).storesOk hs
  · exact hs.sameStores

theorem hostAccess_storesOk {s t : State} {a : Access} (hs : s.StoresOk) (h : hostAccess a s = .next t) :
    t.StoresOk := by
  rcases hostAccess_next h with ⟨-, rfl⟩ | ⟨-, -, -, rfl⟩
  · exact hs
  · exact hs.accessPlace _ _

/-- R230: after power-on no store lists anything. -/
theorem powerOn_storesOk {s : State} (hs : s.StoresOk) : s.powerOn.StoresOk :=
  ⟨hs.params, List.Pairwise.nil, nofun, List.Pairwise.nil, nofun, List.Pairwise.nil, nofun⟩

/-- Settles O55: a command keeps the stores by its completions, and a host access by the place it reaches. -/
theorem stepKeepsStoresOk : Obligations.StepKeepsStoresOk := fun _ _ hs h =>
  step_keeps (fun _ _ _ hs => hs.sameStores) (fun _ _ hs hrun => runCommand_storesOk hs hrun)
    (fun _ _ _ hs hacc => hostAccess_storesOk hs hacc) (fun _ _ hs => (powerOn_storesOk hs).sameStores) hs h

end Sys2Proof.Machine
end

section
/-! PROOF. O1, O2, O4 and O5: the words of the commands, and the step that runs one (spec/30_encoding.md R80, R81, R83;
spec/40_command_protocol.md R101). -/

namespace Sys2Proof.Machine

/-! ### A command and its word -/

/-- R80, R81: what the encoding says of each command's word, whichever the command. -/
theorem commandWord (i : Instr) : Laws.CommandWord.Statement i := by
  cases i with
  | nop => exact Laws.CommandWord.nop
  | nodeWrite => exact Laws.CommandWord.nodeWrite
  | nodeRead => exact Laws.CommandWord.nodeRead
  | treeCommit => exact Laws.CommandWord.treeCommit
  | ctClear => exact Laws.CommandWord.ctClear
  | ctWrite => exact Laws.CommandWord.ctWrite
  | ctRead => exact Laws.CommandWord.ctRead
  | ctGen => exact Laws.CommandWord.ctGen
  | encode => exact Laws.CommandWord.encode
  | decode => exact Laws.CommandWord.decode
  | treeSer => exact Laws.CommandWord.treeSer
  | treeDeser => exact Laws.CommandWord.treeDeser

theorem decode_encode (i : Instr) : decode (encode i) = .ok i := by
  obtain ⟨-, hrsvd, hop, -, hmap⟩ := commandWord i
  exact (decode_eq_ok_iff _ _).mpr ⟨hrsvd, hop ▸ hmap⟩

/-- R81: the map gives a command for its own opcode only. -/
theorem eq_opcode_of_opcodeMap {n : Nat} {i : Instr} (h : opcodeMap n = some i) : n = opcode i := by
  unfold opcodeMap at h
  split at h <;> cases h <;> rfl

theorem toNat_encode (i : Instr) : (encode i).toNat = opcode i := by
  obtain ⟨-, -, -, hle, -⟩ := commandWord i
  rw [encode, BitVec.toNat_ofNat, Nat.mod_eq_of_lt (by omega)]

/-- R81, R83: decoding finds a command in its one word only. -/
theorem decode_eq_ok_iff_eq_encode {w : Word} {i : Instr} : decode w = .ok i ↔ w = encode i := by
  constructor
  · intro h
    obtain ⟨hrsvd, hmap⟩ := (decode_eq_ok_iff w i).mp h
    have hop := eq_opcode_of_opcodeMap hmap
    rw [rsvdField] at hrsvd
    rw [opcodeField] at hop
    exact BitVec.eq_of_toNat_eq (by rw [toNat_encode]; omega)
  · rintro rfl
    exact decode_encode i

/-- Settles O2: decoding inverts encoding, and the opcode is all there is in a command's word. -/
theorem decodeInvertsEncodeUniquely : Obligations.DecodeInvertsEncodeUniquely := by
  intro i w
  obtain ⟨-, hrsvd, -, hle, -⟩ := commandWord i
  exact ⟨decode_eq_ok_iff_eq_encode, (rsvdField_eq_zero_iff _).mp hrsvd, (toNat_encode i).trans_le hle⟩

/-- Settles O1: the twelve words are the commands' own. -/
theorem opcodeMapWordsDecode : Obligations.OpcodeMapWordsDecode :=
  ⟨decode_encode .nop, decode_encode .nodeWrite, decode_encode .nodeRead, decode_encode .treeCommit,
    decode_encode .ctClear, decode_encode .ctWrite, decode_encode .ctRead, decode_encode .ctGen, decode_encode .encode,
    decode_encode .decode, decode_encode .treeSer, decode_encode .treeDeser⟩

/-! ### The step that runs a command -/

theorem step_of_no_events {s : State} (he : s.events = []) : step s = runCommand s := by rw [step, he]

theorem step_wait {s : State} {n : Nat} {es : List Event} (he : s.events = .wait n :: es) :
    step s = waitDone n { s with events := es } := by
  rw [step, he]
  rfl

/-- R89: while a command runs and no poll is left, the step of a WAIT is the completion, and the WAIT goes on. -/
theorem step_wait_zero {s : State} {es : List Event} (hbusy : s.busy = true) (he : s.events = .wait 0 :: es) :
    step s = runCommand s := by
  rw [step_wait he, waitDone, if_pos ⟨rfl, hbusy⟩, ← he]

/-- Settles O4: the event of completion, the end of the events and a WAIT with no poll left all run the latched
command. -/
theorem stepRunsTheLatchedCommand : Obligations.StepRunsTheLatchedCommand := by
  intro s r i hseq hcmd
  have hbusy : s.busy = true := by rw [State.busy, hseq]; rfl
  refine ⟨fun es he => ?_, fun he => ?_, fun es he => ?_, fun u hidle he => ?_, fun u es hidle he => ?_⟩
  · rw [step_finish he, runCommand_valid (s := { s with events := es }) hseq hcmd]
  · rw [step_of_no_events he, runCommand_valid hseq hcmd]
  · rw [step_wait_zero hbusy he, runCommand_valid hseq hcmd]
  · rw [step_of_no_events he, runCommand_idle hidle]
  · rw [step_finish he, runCommand_idle (s := { u with events := es }) hidle]

/-- A row of the opcode table decodes as its word does. -/
theorem decode_of_decodeTableWord {n w : Nat} {i : Instr} (h : decodeTableWord n w = some i) :
    decode (BitVec.ofNat 32 w) = .ok i := by
  rw [decodeTableWord] at h
  split at h
  · cases hd : decode (BitVec.ofNat 32 w) with
    | ok j => rw [hd] at h; cases h; rfl
    | error e => rw [hd] at h; cases h
  · cases h

/-- Settles O5: the next event of the fetched state is the completion of the word it latched. -/
theorem fetchedWordRunsNext : Obligations.FetchedWordRunsNext := by
  intro s w i h
  rw [step_finish (s := s.withFetchWord 32 w) (es := s.events) rfl]
  exact runCommand_valid (r := ⟨BitVec.ofNat 32 w, s.liveOperands⟩) (State.accept_seq _ _) (decode_of_decodeTableWord h)

end Sys2Proof.Machine
end

section
/-! PROOF. O56 to O60: the sequencer's record and the tree's invariant are kept by every step and hold at reset; where
they hold a running command completes, and a host that polls sees it (spec/10_state.md R31, R37, R38;
spec/30_encoding.md R89; spec/40_command_protocol.md R101, R107; spec/70_reset_and_hazards.md R240). -/

namespace Sys2Proof.Machine

variable {s t : State}

/-! ### The sequencer's record (R101) -/

/-- R101: the live registers after an acceptance are those before it, TREE_VALID apart. -/
theorem accept_liveOperands (s : State) (w : Word) :
    (s.accept w).liveOperands = { s.liveOperands with treeValid := if clearsTree w then false else s.treeValid } := by
  simp [State.liveOperands]

theorem accept_sequencerOk (s : State) (w : Word) (hr : s.resetIn = false) : (s.accept w).SequencerOk where
  cleared r _ := ⟨State.accept_done s w, State.accept_errcode s w, State.accept_outLen s w, State.accept_errPos s w⟩
  latched r hseq := by
    cases (State.accept_seq s w).symm.trans hseq
    rw [LatchedAre, accept_liveOperands]
  treeCleared r hseq hcmd := by
    cases (State.accept_seq s w).symm.trans hseq
    rw [State.accept_treeValid, if_pos ((clearsTree_iff w).mpr hcmd)]
  treeLatched r hseq hcmd := by
    cases (State.accept_seq s w).symm.trans hseq
    rw [State.accept_treeValid, if_neg (mt (clearsTree_iff w).mp hcmd)]
    rfl
  inReset h := by
    rw [State.accept_resetIn, hr] at h
    cases h

theorem writeCtrl_sequencerOk (hs : s.SequencerOk) (v : Word) : (s.writeCtrl v).SequencerOk := by
  rw [State.writeCtrl]
  split
  · exact .of_idle rfl
  · exact hs.congr rfl rfl id rfl rfl rfl rfl

theorem writeStatus_sequencerOk (hs : s.SequencerOk) (v : Word) : (s.writeStatus v).SequencerOk :=
  hs.congr rfl rfl (fun h => (Bool.and_eq_true_iff.mp h).1) rfl rfl rfl rfl

/-- R35: while a command runs a host access changes nothing of its record but DONE; while none runs only an acceptance
starts one. -/
theorem accessPlace_sequencerOk (hs : s.SequencerOk) (hr : s.resetIn = false) (p : Place) (d : Dir) :
    (s.accessPlace p d).SequencerOk := by
  rcases accessPlace_cases s p d with
    ⟨x, y, e, -⟩ | ⟨v, -, -, e⟩ | ⟨v, -, -, e⟩ | ⟨hidle, v, -, ⟨-, e⟩ | ⟨-, e⟩ | ⟨k, -, e⟩ | ⟨u, rfl, e⟩⟩
  · rw [e]; exact hs.congr rfl rfl id rfl rfl rfl rfl
  · rw [e]; exact writeCtrl_sequencerOk hs v
  · rw [e]; exact writeStatus_sequencerOk hs v
  · rw [e]; exact accept_sequencerOk s v hr
  · rw [e]; exact .of_idle hidle
  · rw [e]; exact .of_idle hidle
  · exact .of_idle ((congrArg State.seq e).trans hidle)

theorem hostAccess_sequencerOk {a : Access} (hs : s.SequencerOk) (h : hostAccess a s = .next t) : t.SequencerOk := by
  rcases hostAccess_next h with ⟨-, rfl⟩ | ⟨-, hr, -, rfl⟩
  · exact hs
  · exact accessPlace_sequencerOk hs hr _ _

/-- R104: after a completion, or with nothing to complete, the sequencer is idle. -/
theorem runCommand_idles (h : runCommand s = .next t) : t.seq = none := by
  rcases runCommand_next h with ⟨hidle, rfl⟩ | ⟨r, i, -, -, hexec⟩ | ⟨r, e, -, -, rfl⟩
  · exact hidle
  · exact (exec_completes hexec).seq_eq
  · rfl

/-- The record says nothing of the events to come and the bus's data. -/
theorem sequencerOk_frame (hs : s.SequencerOk) (es : List Event) (d : Option Word) :
    State.SequencerOk { s with events := es, readData := d } :=
  hs.congr rfl rfl id rfl rfl rfl rfl

/-- Settles O56: a completion and a reset leave the sequencer idle, and a host access keeps the record of what runs. -/
theorem stepKeepsSequencerOk : Obligations.StepKeepsSequencerOk := fun _ _ hs h =>
  step_keeps (fun _ es d hs => sequencerOk_frame hs es d) (fun _ _ _ hrun => .of_idle (runCommand_idles hrun))
    (fun _ _ _ hs hacc => hostAccess_sequencerOk hs hacc) (fun _ _ _ => .of_idle rfl) hs h

/-! ### The tree's invariant (R37, R38) -/

/-- R38: where TREE_VALID and the counts are those of a state without a valid tree. -/
theorem State.TreeOk.of_invalid (hs : s.TreeOk) (hv : s.treeValid = false) (h1 : t.treeValid = s.treeValid)
    (h2 : t.nodeCount = s.nodeCount) (h3 : t.leafCount = s.leafCount) : t.TreeOk :=
  .of_cleared (h1.trans hv) (h2.trans (hs.invalid hv).1) (h3.trans (hs.invalid hv).2)

/-- A register holds a count of nodes (R31). -/
theorem toNat_ofNat_count {n : Nat} (h : n ≤ 131071) : (BitVec.ofNat 32 n).toNat = n := by
  rw [BitVec.toNat_ofNat, Nat.mod_eq_of_lt (by omega)]

/-- R31, R37: ROOT and NODE hold a tree and the counts are its own. -/
theorem treeOk_of_hasTree {x : HTree} {ixs : List Nat} (h : t.HasTree t.root.toNat x ixs) (hv : t.treeValid = true)
    (hn : t.nodeCount = BitVec.ofNat 32 x.size) (hl : t.leafCount = BitVec.ofNat 32 x.leaves) : t.TreeOk where
  valid _ := by
    have hsize := h.size_le
    have hleaves := x.size_eq
    refine ⟨x, ixs, h, ?_, ?_⟩
    · rw [hn, toNat_ofNat_count hsize, h.shape.length_eq]
    · rw [hl, toNat_ofNat_count (by omega)]
  invalid hf := by
    rw [hv] at hf
    cases hf

/-- R122: a walk without a bad reference has visited the nodes of a well-formed tree, and counted its leaves. -/
theorem exists_hasTree_of_walkFrom {c : Nat} {vs : List Visit} (h : s.walkFrom c = .ok vs) :
    ∃ x ixs, s.HasTree c x ixs ∧ vs.length = x.size ∧ s.countLeaves vs = x.leaves := by
  obtain ⟨x, hx⟩ := State.hasTree_of_walkFrom h
  obtain rfl : treeVisits s.nodeAt x c [] = vs := Except.ok.inj (hx.walkFrom.symm.trans h)
  exact ⟨x, _, hx, hx.length_visits, hx.countLeaves⟩

/-- R37, R101: a completion keeps the tree's invariant, where the operands are the live registers' and the three
commands that clear TREE_VALID find it cleared. -/
theorem Completes.treeOk {i : Instr} (h : Completes s i t) (hs : s.TreeOk) (hroot : s.operands.root = s.root)
    (hclear : i = .nodeWrite ∨ i = .treeCommit ∨ i = .treeDeser → s.treeValid = false) : t.TreeOk := by
  cases h
  case nodeWrite => exact hs.of_invalid (hclear (.inl rfl)) rfl rfl rfl
  case treeCommit vs hwalk =>
    obtain ⟨x, ixs, hx, hn, hl⟩ := exists_hasTree_of_walkFrom hwalk
    rw [hroot] at hx
    exact treeOk_of_hasTree (hx.congr fun _ _ => rfl) rfl (congrArg (BitVec.ofNat 32) hn)
      (congrArg (BitVec.ofNat 32) hl)
  case treeDeser x _ hfit hsize => exact treeOk_of_hasTree (hasTree_putTree hfit hsize rfl) rfl rfl rfl
  case treeDeserBad => exact hs.of_invalid (hclear (.inr (.inr rfl))) rfl rfl rfl
  all_goals exact hs.congr rfl rfl rfl rfl fun _ _ => rfl

/-- R101: the commands that clear TREE_VALID at their acceptance, by their words. -/
theorem clearing_word {w : Word} {i : Instr} (hd : decode w = .ok i)
    (hi : i = .nodeWrite ∨ i = .treeCommit ∨ i = .treeDeser) : w = 1#32 ∨ w = 3#32 ∨ w = 11#32 := by
  obtain rfl := decode_eq_ok_iff_eq_encode.mp hd
  rcases hi with rfl | rfl | rfl
  · exact .inl rfl
  · exact .inr (.inl rfl)
  · exact .inr (.inr rfl)

theorem runCommand_treeOk (hq : s.SequencerOk) (hs : s.TreeOk) (h : runCommand s = .next t) : t.TreeOk := by
  rcases runCommand_next h with ⟨-, rfl⟩ | ⟨r, i, hseq, hd, hexec⟩ | ⟨r, e, -, -, rfl⟩
  · exact hs
  · exact (exec_completes hexec).treeOk hs (hq.operands_root hseq).2 fun hi =>
      hq.treeCleared r hseq (clearing_word hd hi)
  · exact hs.congr rfl rfl rfl rfl fun _ _ => rfl

theorem accept_treeOk (hs : s.TreeOk) (w : Word) : (s.accept w).TreeOk := by
  cases hw : clearsTree w with
  | true => exact .of_cleared (by simp [hw]) (by simp [hw]) (by simp [hw])
  | false =>
    exact hs.congr (by simp [hw]) (by simp [hw]) (by simp [hw]) (by simp) fun _ k => by
      simp [State.nodeAt, State.unlistedNode]

theorem writeCtrl_treeOk (hs : s.TreeOk) (v : Word) : (s.writeCtrl v).TreeOk := by
  rw [State.writeCtrl]
  split
  · exact .of_cleared rfl rfl rfl
  · exact hs.congr rfl rfl rfl rfl fun _ _ => rfl

/-- An entry of NODE depends on the entries listed and the epoch. -/
theorem nodeAt_congr (hn : t.node = s.node) (he : t.epoch = s.epoch) (k : Nat) : t.nodeAt k = s.nodeAt k := by
  simp only [State.nodeAt, State.unlistedNode, hn, he]

theorem accessPlace_treeOk (hs : s.TreeOk) (p : Place) (d : Dir) : (s.accessPlace p d).TreeOk := by
  rcases accessPlace_cases s p d with
    ⟨x, y, e, -⟩ | ⟨v, -, -, e⟩ | ⟨v, -, -, e⟩ | ⟨-, v, -, ⟨-, e⟩ | ⟨-, e⟩ | ⟨k, -, e⟩ | ⟨u, rfl, e⟩⟩
  · rw [e]; exact hs.congr rfl rfl rfl rfl fun _ _ => rfl
  · rw [e]; exact writeCtrl_treeOk hs v
  · rw [e]; exact hs.congr rfl rfl rfl rfl fun _ _ => rfl
  · rw [e]; exact accept_treeOk hs v
  · rw [e]; exact .of_cleared rfl rfl rfl
  · rw [e]; exact hs.congr rfl rfl rfl rfl fun _ _ => rfl
  · exact hs.congr (congrArg State.treeValid e :) (congrArg State.nodeCount e :) (congrArg State.leafCount e :)
      (congrArg State.root e :) fun _ => nodeAt_congr (congrArg State.node e :) (congrArg State.epoch e :)

theorem hostAccess_treeOk {a : Access} (hs : s.TreeOk) (h : hostAccess a s = .next t) : t.TreeOk := by
  rcases hostAccess_next h with ⟨-, rfl⟩ | ⟨-, -, -, rfl⟩
  · exact hs
  · exact accessPlace_treeOk hs _ _

/-- The invariant says nothing of the events to come and the bus's data. -/
theorem treeOk_frame (hs : s.TreeOk) (es : List Event) (d : Option Word) :
    State.TreeOk { s with events := es, readData := d } :=
  hs.congr rfl rfl rfl rfl fun _ _ => rfl

/-- The two invariants of a running command together, as R107 needs them. -/
structure CommandOk (s : State) : Prop where
  sequencer : s.SequencerOk
  tree : s.TreeOk

theorem CommandOk.frame (h : CommandOk s) (es : List Event) (d : Option Word) :
    CommandOk { s with events := es, readData := d } :=
  ⟨sequencerOk_frame h.sequencer es d, treeOk_frame h.tree es d⟩

theorem CommandOk.events (h : CommandOk s) (es : List Event) : CommandOk { s with events := es } :=
  h.frame es s.readData

theorem CommandOk.after_access {a : Access} (h : CommandOk s) (hacc : hostAccess a s = .next t) : CommandOk t :=
  ⟨hostAccess_sequencerOk h.sequencer hacc, hostAccess_treeOk h.tree hacc⟩

theorem CommandOk.after_run (h : CommandOk s) (hrun : runCommand s = .next t) : CommandOk t :=
  ⟨.of_idle (runCommand_idles hrun), runCommand_treeOk h.sequencer h.tree hrun⟩

/-- Settles O57: a command keeps the tree or is one of the three whose acceptance has cleared TREE_VALID, and of these
only a walk or a parse that found a well-formed tree sets it again; a host access keeps NODE and ROOT or clears
TREE_VALID. -/
theorem stepKeepsTreeOk : Obligations.StepKeepsTreeOk := by
  intro s t hq hs h
  have hboth : CommandOk t :=
    step_keeps (fun _ es d h => h.frame es d) (fun _ _ h hrun => h.after_run hrun)
      (fun _ _ _ h hacc => h.after_access hacc) (fun _ _ _ => ⟨.of_idle rfl, .of_cleared rfl rfl rfl⟩) ⟨hq, hs⟩ h
  exact hboth.tree

/-- Settles O58: at reset every store is empty, the sequencer idle and TREE_VALID 0. -/
theorem resetMeetsTheInvariants : Obligations.ResetMeetsTheInvariants :=
  ⟨⟨rfl, List.Pairwise.nil, nofun, List.Pairwise.nil, nofun, List.Pairwise.nil, nofun⟩, .of_idle rfl,
    .of_cleared rfl rfl rfl⟩

/-! ### No fault, and completion (R107, R240) -/

/-- R37, R101: a command that needs a tree finds one, since the latched TREE_VALID is the live one. -/
theorem CommandOk.runCommand_not_fault (h : CommandOk s) (f : Fault) : runCommand s ≠ .fault f := by
  obtain ⟨hq, hs⟩ := h
  intro hrun
  cases hseq : s.seq with
  | none => rw [runCommand_idle hseq] at hrun; cases hrun
  | some r =>
    cases hd : decode r.cmd with
    | error e => rw [runCommand_illegal hseq hd] at hrun; cases hrun
    | ok i =>
      rw [runCommand_valid hseq hd] at hrun
      obtain ⟨hi, hlat, hnone⟩ := exec_fault hrun
      obtain ⟨hops, hroot⟩ := hq.operands_root hseq
      have hcmd : ¬(r.cmd = 1#32 ∨ r.cmd = 3#32 ∨ r.cmd = 11#32) := by
        rw [decode_eq_ok_iff_eq_encode.mp hd]
        rcases hi with rfl | rfl <;> decide
      have hv : s.treeValid = true := by rw [← hq.treeLatched r hseq hcmd, ← hops, hlat]
      obtain ⟨x, ixs, hx, -⟩ := hs.valid hv
      exact hnone ⟨x, ixs, hroot ▸ hx⟩

theorem runCommand_not_refused (s : State) (r : Refusal) : runCommand s ≠ .refused r := by
  intro h
  rw [runCommand] at h
  split at h
  · cases h
  · split at h
    · exact exec_not_refused _ _ _ h
    · cases h

/-- R104: a running command that answers a next state has completed. -/
theorem runCommand_completes (hbusy : s.busy = true) (h : runCommand s = .next t) : t.busy = false ∧ t.done = true := by
  have hidle : t.busy = false := by rw [State.busy, runCommand_idles h]; rfl
  refine ⟨hidle, ?_⟩
  rcases runCommand_next h with ⟨-, rfl⟩ | ⟨r, i, -, -, hexec⟩ | ⟨r, e, -, -, rfl⟩
  · rw [hbusy] at hidle; cases hidle
  · exact (exec_completes hexec).done_eq
  · rfl

/-- R107: where the invariants hold a running command completes. -/
theorem CommandOk.completes (h : CommandOk s) (hbusy : s.busy = true) :
    ∃ t, runCommand s = .next t ∧ t.busy = false ∧ t.done = true := by
  cases hrun : runCommand s with
  | next t => exact ⟨t, rfl, runCommand_completes hbusy hrun⟩
  | fault f => exact absurd hrun (h.runCommand_not_fault f)
  | refused r => exact absurd hrun (runCommand_not_refused s r)

theorem CommandOk.accessAndComplete_not_fault (h : CommandOk s) (a : Access) (f : Fault) :
    accessAndComplete a s ≠ .fault f := by
  rw [accessAndComplete]
  split
  · rename_i u hu
    split
    · exact (h.after_access hu).runCommand_not_fault f
    · exact nofun
  · rename_i g hg
    exact absurd hg (hostAccess_not_fault a s g)
  · exact nofun

/-- R37: where the invariants hold no step faults. -/
theorem CommandOk.step_not_fault (h : CommandOk s) (f : Fault) : step s ≠ .fault f := by
  rw [step]
  split
  · exact h.runCommand_not_fault f
  · rename_i e es _
    cases e with
    | access a => exact hostAccess_not_fault a _ f
    | finish => exact (h.events es).runCommand_not_fault f
    | accessFinish a => exact (h.events es).accessAndComplete_not_fault a f
    | wait n => exact waitDone_not_fault ((h.events _).runCommand_not_fault f)
    | resetAssert => exact nofun
    | resetRelease => exact nofun

/-- Settles O59: each of the three steps lets the running command run, which cannot fault and so completes. -/
theorem runningCommandsComplete : Obligations.RunningCommandsComplete := by
  intro s hq hs
  have h : CommandOk s := ⟨hq, hs⟩
  refine ⟨h.step_not_fault, fun hbusy he => ?_⟩
  rcases he with he | ⟨es, he | he⟩
  · rw [step_of_no_events he]
    exact h.completes hbusy
  · rw [step_finish he]
    exact (h.events es).completes hbusy
  · rw [step_wait_zero hbusy he]
    exact h.completes hbusy

/-! ### Polling (R88, R89) -/

/-- What no completion writes of the host's side (R21, R23, R35). -/
theorem runCommand_keeps (h : runCommand s = .next t) :
    t.params = s.params ∧ t.ie = s.ie ∧ t.drop = s.drop ∧ t.resetIn = s.resetIn ∧ t.readData = s.readData ∧
      t.events = s.events := by
  rcases runCommand_next h with ⟨-, rfl⟩ | ⟨r, i, -, -, hexec⟩ | ⟨r, e, -, -, rfl⟩
  · exact ⟨rfl, rfl, rfl, rfl, rfl, rfl⟩
  · obtain ⟨hp, hie, hdrop, -, -, -, -, -, -, -, hr, hdata, hevents⟩ := (exec_completes hexec).keeps
    exact ⟨hp, hie, hdrop, hr, hdata, hevents⟩
  · exact ⟨rfl, rfl, rfl, rfl, rfl, rfl⟩

/-- A command runs where the invariants hold, and the host can read STATUS. -/
structure Pollable (s : State) : Prop where
  params : s.params.wf = true
  reset : s.resetIn = false
  ok : CommandOk s
  busy : s.busy = true

/-- A read of STATUS, which changes the events and the bus's data only, leaves a running command running. -/
theorem Pollable.afterRead (h : Pollable s) (es : List Event) (d : Option Word) :
    Pollable { s with events := es, readData := d } :=
  ⟨h.params, h.reset, h.ok.frame es d, h.busy⟩

/-- R101: while a command runs DONE is 0. -/
theorem Pollable.not_done (h : Pollable s) : s.done = false := by
  obtain ⟨r, hr⟩ := Option.isSome_iff_exists.mp h.busy
  exact (h.ok.sequencer.cleared r hr).1

/-- R107: the running command completes, and the host's side is as before. -/
theorem Pollable.completes (h : Pollable s) :
    ∃ u, runCommand s = .next u ∧ u.busy = false ∧ u.done = true ∧ u.params = s.params ∧ u.resetIn = false ∧
      u.drop = s.drop ∧ u.events = s.events := by
  obtain ⟨u, hu, hidle, hdone⟩ := h.ok.completes h.busy
  obtain ⟨hp, -, hdrop, hr, -, he⟩ := runCommand_keeps hu
  exact ⟨u, hu, hidle, hdone, hp, hr.trans h.reset, hdrop, he⟩

/-- The block is idle with DONE = 1 and the DROP it had, and the last read has returned DONE = 1; `es` is still to
come. -/
def SeenDone (t : State) (drop : Bool) (es : List Event) : Prop :=
  ∃ v : Word, t.events = es ∧ t.busy = false ∧ t.done = true ∧ t.drop = drop ∧ t.readData = some v ∧
    v.getLsbD 1 = true

/-- A read of STATUS in an idle block with DONE = 1 returns it. -/
theorem seenDone_afterRead {u : State} (hidle : u.busy = false) (hdone : u.done = true) (es : List Event) :
    SeenDone { u with events := es, readData := some u.statusWord } u.drop es :=
  ⟨u.statusWord, rfl, hidle, hdone, rfl, rfl, (statusWord_done u).trans hdone⟩

theorem step_statusRead {es : List Event} (hp : s.params.wf = true) (hr : s.resetIn = false)
    (he : s.events = readAt s.params 0x008 :: es) :
    step s = .next { s with events := es, readData := some s.statusWord } :=
  step_readAt_open (p := .reg .status) hr he (register_offset_lt_windowBytes hp (by decide)) rfl rfl rfl

/-- A WAIT step that reads STATUS: the WAIT is over exactly if DONE was 1. -/
theorem step_wait_read {n : Nat} {es : List Event} (hp : s.params.wf = true) (hr : s.resetIn = false)
    (he : s.events = .wait n :: es) (hn : ¬(n = 0 ∧ s.busy = true)) :
    step s = .next { s with
      events := if s.done then es else .wait (n - 1) :: es, readData := some s.statusWord } := by
  rw [step_wait he]
  exact waitDone_read (s := { s with events := es }) hp hr hn

/-- R88: `n` reads of STATUS, the completion and one read more. -/
theorem Pollable.run_reads {n : Nat} {es : List Event} (h : Pollable s)
    (he : s.events = List.replicate n (readAt s.params 0x008) ++ .finish :: readAt s.params 0x008 :: es) :
    ∃ t, Host.Core.run Sys2Proof.core (n + 2) s = .next t ∧ SeenDone t s.drop es := by
  induction n generalizing s with
  | zero =>
    obtain ⟨u, hu, hidle, hdone, hp, hr, hdrop, hevents⟩ :=
      (h.afterRead (readAt s.params 0x008 :: es) s.readData).completes
    rw [run_succ ((step_finish he).trans hu), run_succ (step_statusRead (hp ▸ h.params) hr (hp ▸ hevents))]
    exact ⟨_, rfl, hdrop ▸ seenDone_afterRead hidle hdone es⟩
  | succ n ih =>
    rw [run_succ (step_statusRead h.params h.reset he)]
    exact ih (h.afterRead _ _) rfl

/-- R89: a WAIT whose command completes after `n` polls, and its last read. -/
theorem Pollable.run_wait {n : Nat} {es : List Event} (h : Pollable s) (he : s.events = .wait n :: es) :
    ∃ t, Host.Core.run Sys2Proof.core (n + 2) s = .next t ∧ SeenDone t s.drop es := by
  induction n generalizing s with
  | zero =>
    obtain ⟨u, hu, hidle, hdone, hp, hr, hdrop, hevents⟩ := h.completes
    have hread := step_wait_read (hp ▸ h.params) hr (hevents.trans he) (by simp [hidle])
    rw [if_pos hdone] at hread
    rw [run_succ ((step_wait_zero h.busy he).trans hu), run_succ hread]
    exact ⟨_, rfl, hdrop ▸ seenDone_afterRead hidle hdone es⟩
  | succ n ih =>
    have hread := step_wait_read h.params h.reset he (by simp)
    rw [if_neg (by simp [h.not_done])] at hread
    rw [run_succ hread]
    exact ih (h.afterRead _ _) rfl

/-- Settles O60: by induction on the number of polls, and, in every state, by the two things a step of a WAIT can do. -/
theorem pollingSeesCompletion : Obligations.PollingSeesCompletion := by
  refine fun s n es hp hr => ⟨fun hq hs hbusy he => ?_, fun he t h => ?_⟩
  · have hpoll : Pollable s := ⟨hp, hr, ⟨hq, hs⟩, hbusy⟩
    obtain ⟨t, hrun, v, hseen⟩ := he.elim hpoll.run_reads hpoll.run_wait
    exact ⟨t, v, hrun, hseen⟩
  · by_cases hn : n = 0 ∧ s.busy = true
    · obtain ⟨rfl, hbusy⟩ := hn
      rw [step_wait_zero hbusy he] at h
      obtain ⟨-, -, -, -, -, hevents⟩ := runCommand_keeps h
      exact .inr ⟨hevents.trans he, .inl ⟨hbusy, rfl⟩⟩
    · rw [step_wait_read hp hr he hn] at h
      cases h
      cases hdone : s.done with
      | true => exact .inl ⟨rfl, s.statusWord, rfl, (statusWord_done s).trans hdone⟩
      | false => exact .inr ⟨rfl, .inr ⟨rfl, rfl⟩⟩

end Sys2Proof.Machine
end

section
/-! PROOF. O6, O9, O11 to O16, O47, O51 and O53: the register map, the acceptance of an offer, an access in the cycle
of a completion, and the two resets (spec/10_state.md R21 to R34, R46; spec/40_command_protocol.md R101;
spec/60_exceptions.md R205; spec/70_reset_and_hazards.md R230 to R232). -/

namespace Sys2Proof.Machine

variable {s : State} {v : Word} {es : List Event}

/-! ### Accesses to registers (R21) -/

/-- R21: each register stands at its own offset, an aligned one below BUF. -/
theorem register_place (n : Nat) (r : Reg) :
    placeAt n r.offset = .reg r ∧ r.offset % 4 = 0 ∧ r.offset < 0x10000 := by
  cases r <;> exact ⟨rfl, rfl, by decide⟩

/-- R21, R35: while BUSY = 0 a write of a register is performed, and so is a read. -/
theorem step_writeReg_idle (r : Reg) (hp : s.params.wf = true) (hr : s.resetIn = false) (hidle : s.seq = none)
    (he : s.events = writeAt s.params r.offset v :: es) :
    step s = .next (State.writeReg { s with events := es } v r) := by
  obtain ⟨hplace, h4, hlt⟩ := register_place s.params.bufBytes r
  exact step_writeAt_idle hr he (register_offset_lt_windowBytes hp hlt) h4 hplace hidle

theorem step_readReg_idle (r : Reg) (hp : s.params.wf = true) (hr : s.resetIn = false) (hidle : s.seq = none)
    (he : s.events = readAt s.params r.offset :: es) :
    step s = .next { s with events := es, readData := some (s.readReg r) } := by
  obtain ⟨hplace, h4, hlt⟩ := register_place s.params.bufBytes r
  rw [step_readAt_idle hr he (register_offset_lt_windowBytes hp hlt) h4 hplace hidle]
  cases r <;> rfl

/-- R101: the acceptance field by field. -/
theorem accept_eq (s : State) (w : Word) :
    s.accept w = { s with
      seq := some { cmd := w, lat := s.liveOperands }
      done := false
      errcode := .ok
      outLen := 0
      errPos := 0
      treeValid := if w = 1#32 ∨ w = 3#32 ∨ w = 11#32 then false else s.treeValid
      nodeCount := if w = 1#32 ∨ w = 3#32 ∨ w = 11#32 then 0 else s.nodeCount
      leafCount := if w = 1#32 ∨ w = 3#32 ∨ w = 11#32 then 0 else s.leafCount } := by
  simp only [State.accept, clearsTree_iff]
  split <;> rfl

/-- Settles O6: an idle block performs the write to CMD as an acceptance. -/
theorem idleOfferIsAccepted : Obligations.IdleOfferIsAccepted := by
  intro s w es hp hr hidle he
  exact (step_writeReg_idle .cmd hp hr hidle he).trans (congrArg _ (accept_eq { s with events := es } w))

/-- Settles O9: both ranges are reserved places, which are open while BUSY = 1, read 0 and ignore writes. -/
theorem reservedOffsetsReadZeroIgnoreWrites : Obligations.ReservedOffsetsReadZeroIgnoreWrites := by
  intro s off es _ hr h4 hin hoff
  have hplace : placeAt s.params.bufBytes off = .reserved := placeAt_reserved (by omega) (by omega)
  exact ⟨fun he => step_readAt_open hr he hin h4 hplace rfl, fun v he => step_writeAt_open hr he hin h4 hplace rfl⟩

theorem step_ctrlWrite (hp : s.params.wf = true) (hr : s.resetIn = false)
    (he : s.events = writeAt s.params 0x004 v :: es) :
    step s = .next (State.writeCtrl { s with events := es } v) :=
  step_writeAt_open (p := .reg .ctrl) hr he (register_offset_lt_windowBytes hp (by decide)) rfl rfl rfl

/-- Settles O11: CTRL is open while BUSY = 1, and with SRST = 0 only IE is written. -/
theorem ctrlWriteSetsInterruptEnable : Obligations.CtrlWriteSetsInterruptEnable := by
  intro s v es hp hr hsrst he
  rw [step_ctrlWrite hp hr he, State.writeCtrl, hsrst]
  rfl

/-- Settles O12: STATUS is open while BUSY = 1, and DONE and DROP are cleared by a written 1. -/
theorem statusWriteClearsDoneAndDrop : Obligations.StatusWriteClearsDoneAndDrop := by
  intro s v es hp hr he
  have hclear (b c : Bool) : (b && !c) = if c then false else b := by cases c <;> simp
  rw [step_writeAt_open (p := .reg .status) hr he (register_offset_lt_windowBytes hp (by decide)) rfl rfl rfl]
  simp only [State.writePlace, State.writeReg, State.writeStatus, hclear]

/-- Settles O13: each offset is its register's, and an idle block performs the write. -/
theorem idleRegisterWritesStore : Obligations.IdleRegisterWritesStore := fun _ _ _ hp hr hidle =>
  ⟨step_writeReg_idle .srcAddr hp hr hidle, step_writeReg_idle .srcLen hp hr hidle,
    step_writeReg_idle .dstAddr hp hr hidle, step_writeReg_idle .dstCap hp hr hidle,
    step_writeReg_idle .nodeIdx hp hr hidle, step_writeReg_idle .nodeKind hp hr hidle,
    step_writeReg_idle .nodeSym hp hr hidle, step_writeReg_idle .nodeLeft hp hr hidle,
    step_writeReg_idle .nodeRight hp hr hidle, step_writeReg_idle .ctSym hp hr hidle,
    step_writeReg_idle .ctLen hp hr hidle, step_writeReg_idle .ctBits hp hr hidle⟩

/-- Settles O14: a write of ROOT also clears the tree. -/
theorem rootWriteInvalidatesTheTree : Obligations.RootWriteInvalidatesTheTree :=
  fun _ _ _ hp hr hidle => step_writeReg_idle .root hp hr hidle

/-- Settles O15: a performed write of a read-only register does nothing. -/
theorem readOnlyRegistersIgnoreWrites : Obligations.ReadOnlyRegistersIgnoreWrites := by
  rintro s off v es hp hr hidle (rfl | rfl | rfl | rfl)
  · exact step_writeReg_idle .outLen hp hr hidle
  · exact step_writeReg_idle .errPos hp hr hidle
  · exact step_writeReg_idle .nodeCount hp hr hidle
  · exact step_writeReg_idle .leafCount hp hr hidle

/-- The registers that BUSY closes, in the order of the map (R21, R35). -/
def closedRegs : List Reg :=
  [.cmd, .srcAddr, .srcLen, .dstAddr, .dstCap, .outLen, .errPos, .root, .nodeIdx, .nodeKind, .nodeSym, .nodeLeft,
    .nodeRight, .nodeCount, .leafCount, .ctSym, .ctLen, .ctBits]

theorem readReg_nodeKind (s : State) : s.readReg .nodeKind = if s.nodeKind then 1#32 else 0#32 := by
  rw [State.readReg]
  cases s.nodeKind <;> rfl

/-- Settles O16: the list is the map's, each offset with what a read of its register returns. -/
theorem idleRegisterReadsReturnTheRegister : Obligations.IdleRegisterReadsReturnTheRegister := by
  intro s es hp hr hidle x hx he
  rw [← readReg_nodeKind] at hx
  obtain ⟨r, -, rfl⟩ : ∃ r ∈ closedRegs, (r.offset, s.readReg r) = x := List.mem_map.mp hx
  exact step_readReg_idle r hp hr hidle he

/-! ### An access in the cycle of a completion (R205) -/

/-- R205: the access is applied first, and what then runs completes. -/
theorem step_accessFinish {off : Nat} {d : Dir} (hr : s.resetIn = false) (hbusy : s.seq ≠ none)
    (he : s.events = .accessFinish { addr := s.params.hbcBase + off, dir := d } :: es) (ho : off < s.params.windowBytes)
    (h4 : off % 4 = 0) :
    step s = runCommand (State.accessPlace { s with events := es } (placeAt s.params.bufBytes off) d) := by
  have hb : State.busy { s with events := es } = true := Option.isSome_iff_ne_none.mpr hbusy
  rw [step, he]
  simp only [applyEvent, accessAndComplete]
  rw [hostAccess_of_wf (s := { s with events := es }) hr rfl ho rfl rfl h4]
  exact if_pos hb

/-- R35: a dropped access sets DROP, a dropped read returns 0, and what runs goes on. -/
theorem accessPlace_dropped_fields {p : Place} (hbusy : s.seq ≠ none) (hp : p.openWhileBusy = false) (d : Dir) :
    (s.accessPlace p d).busy = true ∧ (s.accessPlace p d).drop = true ∧
      (d = .read → (s.accessPlace p d).readData = some 0) := by
  have hb : s.busy = true := Option.isSome_iff_ne_none.mpr hbusy
  rw [accessPlace_dropped hbusy hp]
  cases d with
  | read => exact ⟨hb, rfl, fun _ => rfl⟩
  | write v => exact ⟨hb, rfl, nofun⟩

/-- R205: a completion after a dropped access leaves DROP and the 0 that a dropped read returns. -/
theorem completes_after_drop {t : State} {p : Place} {d : Dir} (hbusy : s.seq ≠ none) (hp : p.openWhileBusy = false)
    (h : runCommand (s.accessPlace p d) = .next t) :
    t.drop = true ∧ t.done = true ∧ t.seq = none ∧ (d = .read → t.readData = some 0) := by
  obtain ⟨hb, hdrop, hdata⟩ := accessPlace_dropped_fields hbusy hp d
  obtain ⟨-, -, hdrop', -, hdata', -⟩ := runCommand_keeps h
  exact ⟨hdrop'.trans hdrop, (runCommand_completes hb h).2, runCommand_idles h, fun hd => hdata'.trans (hdata hd)⟩

/-- A STATUS access leaves what runs running. -/
theorem accessPlace_status_busy (s : State) (d : Dir) : (s.accessPlace (.reg .status) d).busy = s.busy := by
  rw [accessPlace_open rfl]
  cases d <;> rfl

/-- Settles O47: the soft reset leaves nothing to complete, and after any other access the command completes. -/
theorem simultaneousEvents : Obligations.SimultaneousEvents := by
  intro s off d es hp hr hbusy he
  refine ⟨?_, fun h4 hoff t h => ?_, ?_⟩
  · rintro v rfl rfl hsrst
    have hin := register_offset_lt_windowBytes hp (off := 0x004) (by decide)
    have hreset : State.accessPlace { s with events := es } (placeAt s.params.bufBytes 0x004) (.write v) =
        State.softReset { s with events := es } := by
      rw [show placeAt s.params.bufBytes 0x004 = .reg .ctrl from rfl, accessPlace_open rfl]
      exact writeCtrl_srst hsrst _
    refine ⟨State.softReset { s with events := es }, ?_, rfl, rfl, rfl, rfl, ?_⟩
    · rw [step_accessFinish hr hbusy he hin rfl, hreset]
      exact runCommand_idle rfl
    · rw [step_access (es := es) rfl]
      exact (hostAccess_of_wf (s := { s with events := es }) hr rfl hin rfl rfl rfl).trans (congrArg _ hreset)
  · obtain ⟨hin, hclosed⟩ := dropped_offset_closed hp h4 hoff
    rw [step_accessFinish hr hbusy he hin h4] at h
    exact completes_after_drop (s := { s with events := es }) hbusy hclosed h
  · rintro rfl t h
    rw [step_accessFinish hr hbusy he (register_offset_lt_windowBytes hp (by decide)) rfl] at h
    have hb : State.busy { s with events := es } = true := Option.isSome_iff_ne_none.mpr hbusy
    exact ⟨(runCommand_completes ((accessPlace_status_busy _ d).trans hb) h).2, runCommand_idles h⟩

/-! ### Reset (R230, R231) -/

/-- Settles O51: the fields of `State.reset`, and what the deassertion makes of any state. -/
theorem powerOnResetState : Obligations.PowerOnResetState := by
  refine ⟨by and_intros <;> rfl, fun s es hr he => ?_⟩
  rw [step, he]
  exact congrArg Host.Outcome.next (if_pos hr)

/-- R231: an abandoned command leaves open the bytes of its destination region and no other byte. -/
theorem bufByte_abandon (s : State) (o : Operands) (i : Instr) (k : Nat) :
    (s.abandon o i).bufByte k = s.bufByte k ∨
    ((i = .encode ∨ i = .decode ∨ i = .treeSer) ∧ o.dstAddr.toNat ≤ k ∧ k < o.dstAddr.toNat + o.dstCap.toNat) := by
  have hregion : (s.anyRegion o.dstAddr.toNat o.dstCap.toNat).bufByte k = s.bufByte k ∨
      (o.dstAddr.toNat ≤ k ∧ k < o.dstAddr.toNat + o.dstCap.toNat) := by
    by_cases hk : o.dstAddr.toNat ≤ k ∧ k < o.dstAddr.toNat + o.dstCap.toNat
    · exact .inr hk
    · exact .inl (bufByte_anyRegion_outside s _ _ k (by omega))
  cases i
  case encode => exact hregion.imp_right fun hk => ⟨.inl rfl, hk⟩
  case decode => exact hregion.imp_right fun hk => ⟨.inr (.inl rfl), hk⟩
  case treeSer => exact hregion.imp_right fun hk => ⟨.inr (.inr rfl), hk⟩
  case nodeWrite => left; rw [State.abandon]; split <;> rfl
  all_goals exact .inl rfl

/-- R231: an abandoned command leaves open the entries of NODE it may have written and no other entry. -/
theorem nodeAt_abandon (s : State) (o : Operands) (i : Instr) (k : Nat) :
    (s.abandon o i).nodeAt k = s.nodeAt k ∨
    (k < 131071 ∧ ((i = .treeDeser ∧ k < o.srcLen.toNat) ∨ (i = .nodeWrite ∧ k = o.nodeIdx.toNat))) := by
  have hentries (a n : Nat) : (s.anyNodes a n).nodeAt k = s.nodeAt k ∨ (a ≤ k ∧ k < a + n) := by
    by_cases hk : a ≤ k ∧ k < a + n
    · exact .inr hk
    · exact .inl (nodeAt_anyNodes_outside s a n k (by omega))
  cases i
  case treeDeser =>
    refine (hentries 0 (min Config.NODE_CAP o.srcLen.toNat)).imp_right fun hk => ?_
    simp only [Config.NODE_CAP] at hk
    exact ⟨by omega, .inl ⟨rfl, by omega⟩⟩
  case nodeWrite =>
    rw [State.abandon]
    split
    · rename_i hidx
      simp only [Config.NODE_CAP] at hidx
      exact (hentries _ 1).imp_right fun hk => ⟨by omega, .inr ⟨rfl, by omega⟩⟩
    · exact .inl rfl
  all_goals exact .inl rfl

/-- R231: the soft reset field by field, but for what an abandoned command leaves. -/
theorem softReset_frame (s : State) :
    { s.softReset with node := s.node, buf := s.buf, draws := s.draws } = { State.reset with
      params := s.params, node := s.node, buf := s.buf, epoch := s.epoch, draws := s.draws, resetIn := s.resetIn,
      readData := s.readData, events := s.events } := by
  rw [softReset_eq, clearForReset_eq]

/-- Settles O53: whatever BUSY, the CTRL write is the soft reset, whose clearing is O52's, and which leaves open what
the abandoned command may have written. -/
theorem softResetAbandonsTheCommand : Obligations.SoftResetAbandonsTheCommand := by
  intro s v es hp hr hsrst he
  have hstep := step_ctrlWrite hp hr he
  rw [writeCtrl_srst hsrst] at hstep
  refine ⟨_, hstep, rfl, ?_, fun k => ?_, fun k => ?_⟩
  · exact (softReset_frame { s with events := es }).trans (by rw [hr]; rfl)
  · rw [State.softReset, State.clearForReset_bufByte]
    rcases abandonRunning_cases { s with events := es } with h | ⟨r, i, hseq, hd, h⟩ <;> rw [h]
    · exact .inl rfl
    · refine (bufByte_abandon _ r.lat i k).imp_right fun ⟨hi, hk⟩ => ⟨r, hseq, ?_, hk⟩
      rw [decode_eq_ok_iff_eq_encode.mp hd]
      rcases hi with rfl | rfl | rfl <;> decide
  · rw [State.softReset, State.clearForReset_nodeAt]
    rcases abandonRunning_cases { s with events := es } with h | ⟨r, i, hseq, hd, h⟩ <;> rw [h]
    · exact .inl rfl
    · refine (nodeAt_abandon _ r.lat i k).imp_right fun ⟨hlt, hk⟩ => ⟨r, hseq, hlt, ?_⟩
      rw [decode_eq_ok_iff_eq_encode.mp hd]
      exact hk.imp (fun ⟨hi, hk⟩ => ⟨hi ▸ rfl, hk⟩) (fun ⟨hi, hk⟩ => ⟨hi ▸ rfl, hk⟩)

end Sys2Proof.Machine
end

section
/-! PROOF. O48 to O50: what makes the interrupt output, DROP and TREE_VALID rise (spec/10_state.md R35, R38, R45;
spec/60_exceptions.md R210). -/

namespace Sys2Proof.Machine

variable {s t : State}

/-! ### The interrupt output (R45, R210) -/

theorem irq_iff (s : State) : s.irq = true ↔ s.ie = true ∧ s.done = true := Bool.and_eq_true_iff

/-- R23: a CTRL write raises irq only with IE = 1 and SRST = 0. -/
theorem writeCtrl_irq_rises {v : Word} (h : (s.writeCtrl v).irq = true) : v.getLsbD 0 = true ∧ v.getLsbD 1 = false := by
  rw [State.writeCtrl] at h
  split at h
  · cases h
  · rename_i hsrst
    exact ⟨((irq_iff _).mp h).1, by simpa using hsrst⟩

/-- R45: of the host accesses only a CTRL write can raise irq. -/
theorem accessPlace_irq_rises {p : Place} {d : Dir} (hlow : s.irq = false) (h : (s.accessPlace p d).irq = true) :
    ∃ v, d = .write v ∧ p = .reg .ctrl ∧ v.getLsbD 0 = true ∧ v.getLsbD 1 = false := by
  rcases accessPlace_cases s p d with
    ⟨x, y, e, -⟩ | ⟨v, hd, hp, e⟩ | ⟨v, -, -, e⟩ | ⟨-, v, -, ⟨-, e⟩ | ⟨-, e⟩ | ⟨k, -, e⟩ | ⟨u, rfl, e⟩⟩
  · rw [e] at h; cases hlow.symm.trans h
  · rw [e] at h; exact ⟨v, hd, hp, writeCtrl_irq_rises h⟩
  · obtain ⟨hie, hdone⟩ := (irq_iff _).mp (e ▸ h)
    have hold : s.irq = true := (irq_iff s).mpr ⟨hie, (Bool.and_eq_true_iff.mp hdone).1⟩
    cases hlow.symm.trans hold
  · obtain ⟨-, hdone⟩ := (irq_iff _).mp (e ▸ h)
    cases (State.accept_done s v).symm.trans hdone
  · rw [e] at h; cases hlow.symm.trans h
  · rw [e] at h; cases hlow.symm.trans h
  · cases (hlow.symm.trans (congrArg State.irq e).symm).trans h

theorem hostAccess_irq_rises {a : Access} (hlow : s.irq = false) (hacc : hostAccess a s = .next t)
    (h : t.irq = true) :
    ∃ v, a.dir = .write v ∧ a.addr = s.params.hbcBase + 4 ∧ v.getLsbD 0 = true ∧ v.getLsbD 1 = false := by
  rcases hostAccess_next hacc with ⟨-, rfl⟩ | ⟨hin, -, -, rfl⟩
  · cases hlow.symm.trans h
  · obtain ⟨v, hd, hp, hv⟩ := accessPlace_irq_rises hlow h
    have hoff := placeAt_eq_ctrl hp
    obtain ⟨hlo, -⟩ := (inWindow_iff _ _).mp hin
    exact ⟨v, hd, by omega, hv⟩

/-- R45: what runs raises irq by completing. -/
theorem runCommand_irq_rises (hlow : s.irq = false) (hrun : runCommand s = .next t) (h : t.irq = true) :
    s.busy = true ∧ t.busy = false ∧ t.done = true := by
  cases hbusy : s.busy with
  | true => exact ⟨rfl, runCommand_completes hbusy hrun⟩
  | false =>
    rw [runCommand_idle (Option.isNone_iff_eq_none.mp (by simpa [State.busy] using hbusy))] at hrun
    cases hrun
    cases hlow.symm.trans h

/-- Settles O48: a completion, or the CTRL write of an access, is what a step can raise irq by. -/
theorem interruptRisesOnlyOnCompletionOrEnable : Obligations.InterruptRisesOnlyOnCompletionOrEnable := by
  refine ⟨irq_iff, fun s t h hlow hhigh => ?_⟩
  rcases step_effect h with ⟨es, hrun⟩ | ⟨a, es, he, hacc⟩ | ⟨a, es, u, he, hacc, ⟨hbusy, hrun⟩ | ⟨-, rfl⟩⟩ |
    ⟨es, d, rfl⟩ | ⟨es, b, rfl⟩
  · exact .inl (runCommand_irq_rises (s := { s with events := es }) hlow hrun hhigh)
  · obtain ⟨v, hv⟩ := hostAccess_irq_rises (s := { s with events := es }) hlow hacc hhigh
    exact .inr ⟨a, es, v, .inl he, hv⟩
  · exact .inl ⟨hbusy, by rw [State.busy, runCommand_idles hrun]; rfl, ((irq_iff t).mp hhigh).2⟩
  · obtain ⟨v, hv⟩ := hostAccess_irq_rises (s := { s with events := es }) hlow hacc hhigh
    exact .inr ⟨a, es, v, .inr he, hv⟩
  · cases hlow.symm.trans hhigh
  · cases hhigh

/-! ### DROP (R35) -/

/-- R35: a host access raises DROP only where BUSY drops it. -/
theorem accessPlace_drop_rises {p : Place} {d : Dir} (hlow : s.drop = false) (h : (s.accessPlace p d).drop = true) :
    s.dropsAccess p = true := by
  rcases accessPlace_cases s p d with
    ⟨x, y, e, hy⟩ | ⟨v, -, -, e⟩ | ⟨v, -, -, e⟩ | ⟨-, v, -, ⟨-, e⟩ | ⟨-, e⟩ | ⟨k, -, e⟩ | ⟨u, rfl, e⟩⟩
  · rw [e] at h
    rcases hy with rfl | ⟨-, hdrops⟩
    · cases hlow.symm.trans h
    · exact hdrops
  · rw [e, State.writeCtrl] at h
    split at h
    · cases h
    · cases hlow.symm.trans h
  · rw [e] at h
    cases hlow.symm.trans (Bool.and_eq_true_iff.mp h).1
  · rw [e, State.accept_drop] at h; cases hlow.symm.trans h
  · rw [e] at h; cases hlow.symm.trans h
  · rw [e] at h; cases hlow.symm.trans h
  · cases (hlow.symm.trans (congrArg State.drop e).symm).trans h

theorem hostAccess_drop_rises {a : Access} (hlow : s.drop = false) (hacc : hostAccess a s = .next t)
    (h : t.drop = true) :
    s.busy = true ∧ ∃ off, a.addr = s.params.hbcBase + off ∧
      (off = 0x00C ∨ (0x010 ≤ off ∧ off ≤ 0x050) ∨ (0x10000 ≤ off ∧ off < 0x10000 + s.params.bufBytes)) := by
  rcases hostAccess_next hacc with ⟨-, rfl⟩ | ⟨hin, -, hwf, rfl⟩
  · cases hlow.symm.trans h
  · obtain ⟨hbusy, hclosed⟩ := Bool.and_eq_true_iff.mp (accessPlace_drop_rises hlow h)
    obtain ⟨-, h4⟩ := Bool.and_eq_true_iff.mp hwf
    obtain ⟨hlo, -⟩ := (inWindow_iff _ _).mp hin
    exact ⟨hbusy, _, (Nat.add_sub_cancel' hlo).symm,
      dropped_offset (by simpa [alignedOffset] using h4) (by simpa using hclosed)⟩

theorem runCommand_drop_eq (h : runCommand s = .next t) : t.drop = s.drop := by
  obtain ⟨-, -, hdrop, -⟩ := runCommand_keeps h
  exact hdrop

/-- Settles O49: a completion, a WAIT's read of STATUS and a reset raise no DROP. -/
theorem dropRisesOnlyOnADroppedAccess : Obligations.DropRisesOnlyOnADroppedAccess := by
  intro s t h hlow hhigh
  rcases step_effect h with ⟨es, hrun⟩ | ⟨a, es, he, hacc⟩ | ⟨a, es, u, he, hacc, hu⟩ | ⟨es, d, rfl⟩ | ⟨es, b, rfl⟩
  · cases (hlow.symm.trans (runCommand_drop_eq hrun).symm).trans hhigh
  · obtain ⟨hbusy, off, hoff⟩ := hostAccess_drop_rises (s := { s with events := es }) hlow hacc hhigh
    exact ⟨hbusy, a, es, off, .inl he, hoff⟩
  · have hdrop : t.drop = u.drop := by
      rcases hu with ⟨-, hrun⟩ | ⟨-, rfl⟩
      · exact runCommand_drop_eq hrun
      · rfl
    obtain ⟨hbusy, off, hoff⟩ :=
      hostAccess_drop_rises (s := { s with events := es }) hlow hacc (hdrop.symm.trans hhigh)
    exact ⟨hbusy, a, es, off, .inr he, hoff⟩
  · cases hlow.symm.trans hhigh
  · cases hhigh

/-! ### TREE_VALID (R37, R38) -/

/-- R38: no host access sets TREE_VALID, and of the sequencer it changes, while a command runs, at most that it abandons
it. -/
theorem accessPlace_treeValid_seq (s : State) (p : Place) (d : Dir) :
    ((s.accessPlace p d).treeValid = true → s.treeValid = true) ∧
    (s.busy = true → (s.accessPlace p d).seq = s.seq ∨ (s.accessPlace p d).seq = none) := by
  have hnot_busy (hidle : s.seq = none) : ¬s.busy = true := by simp [State.busy, hidle]
  rcases accessPlace_cases s p d with
    ⟨x, y, e, -⟩ | ⟨v, -, -, e⟩ | ⟨v, -, -, e⟩ | ⟨hidle, v, -, ⟨-, e⟩ | ⟨-, e⟩ | ⟨k, -, e⟩ | ⟨u, rfl, e⟩⟩
  · rw [e]; exact ⟨id, fun _ => .inl rfl⟩
  · rw [e, State.writeCtrl]
    split
    · exact ⟨nofun, fun _ => .inr rfl⟩
    · exact ⟨id, fun _ => .inl rfl⟩
  · rw [e]; exact ⟨id, fun _ => .inl rfl⟩
  · refine ⟨fun h => ?_, fun hb => absurd hb (hnot_busy hidle)⟩
    rw [e, State.accept_treeValid] at h
    split at h
    · cases h
    · exact h
  · rw [e]; exact ⟨nofun, fun hb => absurd hb (hnot_busy hidle)⟩
  · rw [e]; exact ⟨id, fun hb => absurd hb (hnot_busy hidle)⟩
  · exact ⟨fun h => (congrArg State.treeValid e).symm.trans h, fun hb => absurd hb (hnot_busy hidle)⟩

theorem hostAccess_treeValid_seq {a : Access} (h : hostAccess a s = .next t) :
    (t.treeValid = true → s.treeValid = true) ∧ (s.busy = true → t.seq = s.seq ∨ t.seq = none) := by
  rcases hostAccess_next h with ⟨-, rfl⟩ | ⟨-, -, -, rfl⟩
  · exact ⟨id, fun _ => .inl rfl⟩
  · exact accessPlace_treeValid_seq s _ _

/-- R38: what runs sets TREE_VALID only as a TREE_COMMIT or TREE_DESER that succeeds. -/
theorem runCommand_treeValid_rises (hlow : s.treeValid = false) (hrun : runCommand s = .next t)
    (h : t.treeValid = true) :
    ∃ r, s.seq = some r ∧ (decode r.cmd = .ok .treeCommit ∨ decode r.cmd = .ok .treeDeser) ∧ t.errcode = .ok ∧
      t.seq = none := by
  rcases runCommand_next hrun with ⟨-, rfl⟩ | ⟨r, i, hseq, hd, hexec⟩ | ⟨r, e, -, -, rfl⟩
  · cases hlow.symm.trans h
  · have hc := exec_completes hexec
    by_contra hnot
    have hkeep : i = .treeCommit ∨ i = .treeDeser → t.errcode ≠ .ok := by
      intro hi hok
      refine hnot ⟨r, hseq, ?_, hok, hc.seq_eq⟩
      rcases hi with rfl | rfl
      · exact .inl hd
      · exact .inr hd
    obtain ⟨hsame, -⟩ := hc.tree_eq hkeep
    cases (hlow.symm.trans hsame.symm).trans h
  · cases hlow.symm.trans h

/-- Settles O50: only a completion can set TREE_VALID; where an access stands before it in its cycle, the command that
completes is the one that ran. -/
theorem onlyTreeCommandsSetTreeValid : Obligations.OnlyTreeCommandsSetTreeValid := by
  intro s t h hlow hhigh
  rcases step_effect h with ⟨es, hrun⟩ | ⟨a, es, -, hacc⟩ | ⟨a, es, u, -, hacc, ⟨hbusy, hrun⟩ | ⟨-, rfl⟩⟩ |
    ⟨es, d, rfl⟩ | ⟨es, b, rfl⟩
  · exact runCommand_treeValid_rises (s := { s with events := es }) hlow hrun hhigh
  · cases hlow.symm.trans ((hostAccess_treeValid_seq hacc).1 hhigh)
  · obtain ⟨htree, hsame⟩ := hostAccess_treeValid_seq hacc
    have hlow' : u.treeValid = false := Bool.eq_false_iff.mpr fun hu => nomatch hlow.symm.trans (htree hu)
    obtain ⟨r, hr, hrest⟩ := runCommand_treeValid_rises hlow' hrun hhigh
    rcases hsame hbusy with hseq | hseq
    · exact ⟨r, hseq.symm.trans hr, hrest⟩
    · cases hseq.symm.trans hr
  · cases hlow.symm.trans ((hostAccess_treeValid_seq hacc).1 hhigh)
  · cases hlow.symm.trans hhigh
  · cases hhigh

end Sys2Proof.Machine
end

section
/-! PROOF. O22, O23 and O25: the static checks that end a command at once, and NODE_WRITE (spec/40_command_protocol.md
R103; spec/20_memory.md R67, R68; spec/41_tree_and_code_table.md R120). -/

namespace Sys2Proof.Machine

theorem exec_badRange {s : State} {i : Instr} (h : ¬rangesOk i s.operands s.params.bufBytes = true) :
    exec i s = .next (s.fail .badRange 0) :=
  exec_of_some (staticError_badRange h)

/-- Settles O22: for each of the four commands the ranges spelled out are those of check 2. -/
theorem badRangeEndsTheCommandAtOnce : Obligations.BadRangeEndsTheCommandAtOnce := by
  rintro i s (⟨rfl, h⟩ | ⟨rfl, h⟩ | ⟨rfl, h⟩ | ⟨rfl, h⟩)
  · exact exec_badRange (mt (rangesOk_encode _ _).mp h)
  · exact exec_badRange (mt (rangesOk_decode _ _).mp h)
  · exact exec_badRange (mt (rangesOk_treeSer _ _).mp h)
  · exact exec_badRange (mt (rangesOk_treeDeser _ _).mp h)

theorem exec_noTree {s : State} {i : Instr} (hv : s.operands.treeValid = false)
    (h : rangesOk i s.operands s.params.bufBytes = true) (hi : needsTree i = true) :
    exec i s = .next (s.fail .noTree 0) :=
  exec_of_some (staticError_noTree h hi hv)

/-- Settles O23: the three commands need a tree, and their check 2 passes. -/
theorem noTreeEndsTheCommandAtOnce : Obligations.NoTreeEndsTheCommandAtOnce := by
  rintro i s hv (rfl | ⟨rfl, h⟩ | ⟨rfl, h⟩)
  · exact exec_noTree hv (rangesOk_other _ _ (by decide)) rfl
  · exact exec_noTree hv ((rangesOk_decode _ _).mpr h) rfl
  · exact exec_noTree hv ((rangesOk_treeSer _ _).mpr h) rfl

theorem State.putNode_nodeAt (s : State) (a : Nat) (n : Node) (k : Nat) :
    (s.putNode a n).nodeAt k = if k = a then n else s.nodeAt k := by
  simp only [State.nodeAt, State.putNode, Ram.get?_put]
  split <;> rfl

theorem exec_nodeWrite_inside {s : State} (h : s.operands.nodeIdx.toNat < 131071) :
    exec .nodeWrite s = .next ((s.putNode s.operands.nodeIdx.toNat s.operands.windowNode).succeed 0) :=
  exec_of_none (staticError_none ((rangesOk_nodeWrite _ _).mpr h) nofun)

/-- Settles O25: the static check on NODE_IDX decides between the failure and the store. -/
theorem nodeWriteStoresTheWindow : Obligations.NodeWriteStoresTheWindow := by
  refine fun s => ⟨fun h => exec_badRange fun hok => Nat.not_lt.mpr h ((rangesOk_nodeWrite _ _).mp hok), fun h => ?_⟩
  have hput := s.putNode_nodeAt s.operands.nodeIdx.toNat s.operands.windowNode
  exact ⟨_, exec_nodeWrite_inside h, (hput _).trans (if_pos rfl), fun k hk => (hput k).trans (if_neg hk), rfl⟩

end Sys2Proof.Machine
end

section
/-! PROOF. O27 to O29 and O32 to O34: TREE_COMMIT and CT_GEN on the tree in NODE (spec/41_tree_and_code_table.md R122,
R126 to R128; spec/10_state.md R37). -/

namespace Sys2Proof.Machine

/-! ### TREE_COMMIT (R122) -/

/-- R103: TREE_COMMIT has no static check. -/
theorem exec_treeCommit (s : State) : exec .treeCommit s = .next (s.commit (s.walkFrom s.operands.root.toNat)) :=
  exec_of_none (staticError_none (rangesOk_other _ _ (by decide)) nofun)

/-- Settles O27: on a well-formed tree the walk visits its nodes, as many as its size, and counts its leaves. -/
theorem treeCommitAcceptsWellFormedTrees : Obligations.TreeCommitAcceptsWellFormedTrees := by
  intro s t ixs h
  rw [exec_treeCommit, h.walkFrom, State.commit, h.length_visits, h.countLeaves]
  rfl

/-- Settles O28: a TREE_COMMIT that succeeds has walked without a bad reference, and so over a well-formed tree. -/
theorem treeCommitAcceptsOnlyWellFormedTrees : Obligations.TreeCommitAcceptsOnlyWellFormedTrees := by
  intro s u h hok
  obtain ⟨-, rfl⟩ := exec_next_ok h hok
  rcases commit_cases s (s.walkFrom s.operands.root.toNat) with ⟨vs, hwalk, -⟩ | ⟨v, -, hfail⟩
  · exact (walkFrom_ok_iff _ _).mp ⟨vs, hwalk⟩
  · rw [hfail] at hok
    cases hok

/-- Settles O29: the first bad reference ends the walk at its pre-order index, NODE_CAP in the corner of log entry 15.
-/
theorem treeCommitReportsTheFirstBadReference : Obligations.TreeCommitReportsTheFirstBadReference := by
  intro s c stack seen hsteps hbad
  rw [exec_treeCommit, walkFrom_error hsteps hbad]
  rfl

/-! ### CT_GEN's success (R126, R127) -/

/-- R103: where TREE_VALID is 1 and ROOT is a tree's, CT_GEN runs its rule over the tree's visits. -/
theorem exec_ctGen {s : State} {t : HTree} {ixs : List Nat} (hv : s.operands.treeValid = true)
    (h : s.HasTree s.operands.root.toNat t ixs) :
    exec .ctGen s = .next (s.genRule (treeVisits s.nodeAt t s.operands.root.toNat [])) :=
  (exec_of_none (staticError_none (rangesOk_other _ _ (by decide)) fun _ => hv)).trans (withTree_of_hasTree _ h)

/-- R126, R127: on a tree of distinct 16-bit symbols with codes of at most 32 bits the loop writes each leaf's code. -/
theorem State.HasTree.genLoop_codes {s : State} {c : Nat} {t : HTree} {ixs : List Nat} (h : s.HasTree c t ixs)
    (hf : t.symbolsFit) (hn : (t.codes.map (·.1)).Nodup) (hlen : ∀ x ∈ t.codes, x.2.length ≤ 32) :
    genLoop s.nodeAt 0 0 [] (treeVisits s.nodeAt t c []) = .ok (putCodes [] (t.preorder.filterMap id), t.leaves) := by
  have hcodes : ∀ x ∈ t.preorder.filterMap id, (x.1, codeOfPath x.2) ∈ t.codes := fun x hx =>
    HTree.mem_codes.mpr ⟨x.2, HTree.mem_preorder.mp hx, rfl⟩
  have hloop := genLoop_good (vs := treeVisits s.nodeAt t c []) [] 0 0 [] (by
    rw [h.leafEntries]
    exact fun x hx => ⟨hf (x.1, codeOfPath x.2) (hcodes x hx), hlen (x.1, codeOfPath x.2) (hcodes x hx)⟩) (by
    rwa [h.leafEntries, ← t.map_fst_codes]) fun _ _ => rfl
  simpa only [List.append_nil, h.leafEntries, t.length_leafEntries, Nat.zero_add, genLoop] using hloop

/-- A tree's leaves are fewer than NODE_CAP, so that OUT_LEN holds their number. -/
theorem State.HasTree.toNat_leaves {s : State} {c : Nat} {t : HTree} {ixs : List Nat} (h : s.HasTree c t ixs) :
    (BitVec.ofNat 32 t.leaves).toNat = t.leaves := by
  have hsize := h.size_le
  have hleaves := t.size_eq
  exact toNat_ofNat_count (by omega)

/-- Settles O32: the loop succeeds, and a CT_GEN that succeeds leaves exactly the tree's codes. -/
theorem ctGenDerivesTheCodeTable : Obligations.CtGenDerivesTheCodeTable := by
  intro s t ixs hv htree hf hn hlen
  have hrun := exec_ctGen hv htree
  rw [State.genRule, htree.genLoop_codes hf hn hlen] at hrun
  exact ⟨_, hrun, htree.toNat_leaves, exec_ctGen_codeAt htree hrun rfl, rfl⟩

/-! ### CT_GEN's failures (R126) -/

/-- The nodes of a tree in pre-order are its visits: where they split, so do the visits. -/
theorem State.HasTree.visits_split {s : State} {c : Nat} {t : HTree} {ixs : List Nat} (h : s.HasTree c t ixs)
    {pre post : List (Option (Word × List Bool))} {x : Option (Word × List Bool)}
    (hsplit : t.preorder = pre ++ x :: post) :
    ∃ vs v rest, treeVisits s.nodeAt t c [] = vs ++ v :: rest ∧ vs.map (visitEntry s.nodeAt) = pre ∧
      visitEntry s.nodeAt v = x ∧ vs.length = pre.length ∧ pre.length ≤ 131070 := by
  have hmap := (h.shape.map_visitEntry []).trans hsplit
  obtain ⟨vs, tail, hvisits, hpre, htail⟩ := List.map_eq_append_iff.mp hmap
  obtain ⟨v, rest, rfl, hx, -⟩ := List.map_eq_cons_iff.mp htail
  have hlen : vs.length = pre.length := by rw [← hpre, List.length_map]
  have hsize := h.size_le
  rw [← h.length_visits, hvisits, List.length_append, List.length_cons] at hsize
  exact ⟨vs, v, rest, hvisits, hpre, hx, hlen, by omega⟩

/-- A visited leaf's entry is its symbol and its path. -/
theorem visitEntry_eq_some {nd : Nat → Node} {c : Visit} {w : Word} {p : List Bool}
    (h : visitEntry nd c = some (w, p)) : (nd c.idx).kind = true ∧ (nd c.idx).sym = w ∧ c.path = p := by
  unfold visitEntry at h
  split at h
  · rename_i hk
    cases h
    exact ⟨hk, rfl, rfl⟩
  · cases h

/-- R126: the leaf with symbol `w` at path `p`, met after the leaves `xs`, ends CT_GEN with error `e`: its symbol is
above 0xFFFF, repeats an earlier one, or its code is too long, in this order. -/
def BadLeaf (xs : List (Word × List Bool)) (w : Word) (p : List Bool) (e : ErrCode) : Prop :=
  (e = .unsupportedSymbol ∧ 0xFFFF < w.toNat) ∨
  (e = .corruptTree ∧ w.toNat ≤ 0xFFFF ∧ w ∈ xs.map (·.1)) ∨
  (e = .capacityExceeded ∧ w.toNat ≤ 0xFFFF ∧ w ∉ xs.map (·.1) ∧ 32 < p.length)

/-- The table of leaves with distinct symbols has an entry for the leaves' symbols only. -/
theorem isSome_get?_putCodes {xs : List (Word × List Bool)} (hn : (xs.map (·.1)).Nodup) (w : Word) :
    (Ram.get? (putCodes [] xs) w.toNat).isSome = true ↔ w ∈ xs.map (·.1) := by
  simp only [Option.isSome_iff_exists, get?_putCodes xs [] hn, List.mem_map]
  constructor
  · rintro ⟨c, ⟨x, hx, hw, -⟩ | ⟨hnil, -⟩⟩
    · exact ⟨x, hx, BitVec.eq_of_toNat_eq hw⟩
    · cases hnil
  · rintro ⟨x, hx, rfl⟩
    exact ⟨_, .inl ⟨x, hx, rfl, rfl⟩⟩

/-- R127: a code is no shorter than the leaf's path. -/
theorem length_le_codeOfPath (p : List Bool) : p.length ≤ (codeOfPath p).length := by
  unfold codeOfPath
  split
  · rename_i h; subst h; exact Nat.zero_le _
  · exact Nat.le_refl _

/-- R126: the loop ends at a bad leaf with its error at its pre-order index. -/
theorem genLoop_badLeaf {nd : Nat → Node} {xs : List (Word × List Bool)} {c : Visit} {w : Word} {p : List Bool}
    {e : ErrCode} (v made : Nat) (rest : List Visit) (hn : (xs.map (·.1)).Nodup) (hc : visitEntry nd c = some (w, p))
    (h : BadLeaf xs w p e) : genLoop nd v made (putCodes [] xs) (c :: rest) = .error ⟨e, v⟩ := by
  obtain ⟨hk, rfl, rfl⟩ := visitEntry_eq_some hc
  rw [genLoop, if_pos hk]
  rcases h with ⟨rfl, hbig⟩ | ⟨rfl, hsym, hmem⟩ | ⟨rfl, hsym, hnew, hlong⟩
  · rw [if_pos hbig]
  · rw [if_neg (Nat.not_lt.mpr hsym), if_pos ((isSome_get?_putCodes hn _).mpr hmem)]
  · rw [if_neg (Nat.not_lt.mpr hsym), if_neg (mt (isSome_get?_putCodes hn _).mp hnew),
      if_pos (hlong.trans_le (length_le_codeOfPath _))]

/-- R126: over a tree whose leaves are good up to a bad one, the loop ends there. -/
theorem State.HasTree.genLoop_badLeaf {s : State} {c : Nat} {t : HTree} {ixs : List Nat} (h : s.HasTree c t ixs)
    {pre post : List (Option (Word × List Bool))} {w : Word} {p : List Bool} {e : ErrCode}
    (hsplit : t.preorder = pre ++ some (w, p) :: post)
    (hgood : ∀ x ∈ pre.filterMap id, x.1.toNat ≤ 0xFFFF ∧ x.2.length ≤ 32) (hn : ((pre.filterMap id).map (·.1)).Nodup)
    (hbad : BadLeaf (pre.filterMap id) w p e) :
    genLoop s.nodeAt 0 0 [] (treeVisits s.nodeAt t c []) = .error ⟨e, pre.length⟩ ∧ pre.length ≤ 131070 := by
  obtain ⟨vs, v, rest, hvisits, hpre, hv, hlen, hle⟩ := h.visits_split hsplit
  have hleaves := leafEntries_eq hpre
  rw [hvisits, genLoop_good (v :: rest) 0 0 [] (by
    rw [hleaves]
    exact fun x hx => ⟨(hgood x hx).1, codeOfPath_length_le (hgood x hx).2⟩) (by rwa [hleaves]) fun _ _ => rfl,
    hleaves, hlen, Nat.zero_add, Machine.genLoop_badLeaf _ _ _ hn hv hbad]
  exact ⟨rfl, hle⟩

/-- Settles O33: the loop passes the good leaves and fails at the bad one, and the failure leaves CODE empty. -/
theorem ctGenReportsTheFirstBadLeaf : Obligations.CtGenReportsTheFirstBadLeaf := by
  intro s t ixs pre post w p hv htree hsplit hgood hn e hbad
  obtain ⟨hloop, hle⟩ := htree.genLoop_badLeaf hsplit hgood hn hbad
  have hrun := exec_ctGen hv htree
  rw [State.genRule, hloop] at hrun
  exact ⟨_, hrun, rfl, toNat_ofNat_count (hle.trans (by decide)), fun _ => rfl, rfl⟩

/-! ### No code begins another (R128) -/

/-- R127: under an internal root the codes are the paths of the leaves. -/
theorem HTree.mem_codes_node {l r : HTree} {w : Word} {c : Code} :
    (w, c) ∈ (HTree.node l r).codes ↔ (HTree.node l r).symAt c = some w := by
  rw [HTree.mem_codes]
  constructor
  · rintro ⟨p, hp, rfl⟩
    rwa [codeOfPath, if_neg (HTree.symAt_node_ne_nil hp)]
  · exact fun h => ⟨c, h, if_neg (HTree.symAt_node_ne_nil h)⟩

/-- Settles O34: the codes are the paths of distinct leaves, none of which leads on to another. -/
theorem ctGenTablesArePrefixFree : Obligations.CtGenTablesArePrefixFree := by
  intro s u l r ixs _ htree h hok
  have hcode (k : Nat) (c : Code) (hc : u.codeAt k = some c) :
      ∃ w : Word, (HTree.node l r).symAt c = some w ∧ w.toNat = k := by
    simpa only [HTree.mem_codes_node] using (exec_ctGen_codeAt htree h hok k c).mp hc
  refine ⟨fun k c hc => ?_, fun k k' c c' hne hc hc' hprefix => ?_⟩
  · obtain ⟨w, hw, -⟩ := hcode k c hc
    have hlt := HTree.symAt_length_lt hw
    rw [htree.shape.length_eq]
    exact ⟨List.length_pos_iff.mpr (HTree.symAt_node_ne_nil hw), by omega⟩
  · obtain ⟨w, hw, rfl⟩ := hcode k c hc
    obtain ⟨w', hw', rfl⟩ := hcode k' c' hc'
    obtain ⟨-, rfl⟩ := HTree.symAt_prefix hw hw' hprefix
    exact hne rfl

end Sys2Proof.Machine
end

section
/-! PROOF. O37 to O39, O43 and O44: DECODE on a tree with an internal root, the first bad node of TREE_SER, and the
tree that TREE_DESER rebuilds (spec/43_bit_decoder.md R160, R162; spec/44_tree_codec.md R170, R176). -/

namespace Sys2Proof.Machine

/-! ### DECODE under an internal root (R160, R162) -/

/-- R160: over leaf paths whose symbols fit, and then the bits `bs`, DECODE goes on at the root with `bs`. -/
theorem decodeSymbols_paths {s : State} {o : Operands} {l r : HTree} {ixs : List Nat} {out : List (Word × List Bool)}
    {bs : List Bool} (ht : TreeAt s.nodeAt o.root.toNat (.node l r) ixs)
    (hbits : s.readBits o.srcAddr.toNat o.srcLen.toNat = (out.map (·.2)).flatten ++ bs)
    (hout : ∀ x ∈ out, (HTree.node l r).symAt x.2 = some x.1) (hfit : 4 * out.length ≤ o.dstCap.toNat) :
    s.decodeSymbols o =
      (decodeLoop s.nodeAt o.root.toNat o.dstCap.toNat (out.map (·.2)).flatten.length out.length o.root.toNat bs).map
        (out.map (·.1) ++ ·) := by
  rw [decodeSymbols_node ht, hbits, decodeLoop_good 0 0 bs ht hout (by omega), Nat.zero_add, Nat.zero_add]

/-- Settles O37: no bit is left after the last path, and the cursor is at the root. -/
theorem decodeWalksTheTree : Obligations.DecodeWalksTheTree := by
  intro s l r ixs out _ hranges hv htree hbits hout hfit
  rw [← List.append_nil (List.flatten _)] at hbits
  have hsyms := decodeSymbols_paths htree.shape hbits hout hfit
  rw [decodeLoop, if_pos rfl, Except.map, List.append_nil] at hsyms
  exact exec_decode_ok hranges hv hsyms

/-- The first of a tree's indices is its root's. -/
theorem TreeAt.eq_cons {nd : Nat → Node} {c : Nat} {t : HTree} {ixs : List Nat} (h : TreeAt nd c t ixs) :
    ∃ rest, ixs = c :: rest := by
  cases h with
  | leaf => exact ⟨[], rfl⟩
  | node _ _ _ il ir => exact ⟨il ++ ir, rfl⟩

/-- R162: bits that lead to an inner node other than the root end DECODE's loop at their end, since no node of a
well-formed tree is met twice. -/
theorem State.HasTree.decodeLoop_truncated {s : State} {root : Nat} {t l r : HTree} {ixs : List Nat} {q : List Bool}
    (h : s.HasTree root t ixs) (hne : q ≠ []) (hq : t.at? q = some (.node l r)) (cap i m : Nat) :
    decodeLoop s.nodeAt root cap i m root q = .error ⟨.truncatedStream, i + q.length⟩ := by
  obtain ⟨c, ixs', hc, -, hsub, hloop⟩ := decodeLoop_inner (root := root) cap i m [] h.shape hq
  have haway : c ≠ root := by
    rintro rfl
    obtain ⟨rest, rfl⟩ := h.shape.eq_cons
    obtain ⟨rest', rfl⟩ := hc.eq_cons
    exact (List.nodup_cons.mp h.nodup).1 (hsub hne List.mem_cons_self)
  rw [List.append_nil, decodeLoop, if_neg haway] at hloop
  exact hloop

/-- Settles O38: after the last whole path the bits left end inside the tree. -/
theorem decodeReportsTruncatedStream : Obligations.DecodeReportsTruncatedStream := by
  intro s l r l' r' ixs out q hranges hv htree hbits hout hfit hne hq
  have hsyms := decodeSymbols_paths htree.shape hbits hout hfit
  have hlen := congrArg List.length hbits
  rw [length_readBits, List.length_append] at hlen
  rw [htree.decodeLoop_truncated hne hq, ← hlen] at hsyms
  exact exec_decode_error hranges hv hsyms

/-- Settles O39: at the last bit of the path after `out` there is no room for one symbol more. -/
theorem decodeReportsOutputOverflow : Obligations.DecodeReportsOutputOverflow := by
  intro s l r ixs out w p rest hranges hv htree hbits hout hp hfit hover
  rw [List.append_assoc] at hbits
  have hsyms := decodeSymbols_paths htree.shape hbits hout hfit
  rw [decodeLoop_leaf _ _ _ rest htree.shape hp, if_pos hover] at hsyms
  exact exec_decode_error hranges hv hsyms

/-! ### TREE_SER's failures (R170) -/

/-- R170: the node `x`, met after `len` bits, ends TREE_SER with error `e`: a leaf's symbol is above 0xFFFF, or the
bits do not fit in `cap`, in this order. -/
def BadNode (cap len : Nat) (x : Option (Word × List Bool)) (e : ErrCode) : Prop :=
  (e = .unsupportedSymbol ∧ ∃ w p, x = some (w, p) ∧ 0xFFFF < w.toNat) ∨
  (e = .outputOverflow ∧ (∀ w p, x = some (w, p) → w.toNat ≤ 0xFFFF) ∧ cap < len + streamBits [x])

/-- R170: the loop ends at a bad node with its error at its pre-order index. -/
theorem serLoop_badNode {nd : Nat → Node} {cap len : Nat} {c : Visit} {e : ErrCode} (v : Nat) (rest : List Visit)
    (h : BadNode cap len (visitEntry nd c) e) : serLoop nd cap v len (c :: rest) = .error ⟨e, v⟩ := by
  rw [serLoop]
  by_cases hk : (nd c.idx).kind = true
  · have hc : visitEntry nd c = some ((nd c.idx).sym, c.path) := if_pos hk
    rw [hc] at h
    rw [if_pos hk]
    rcases h with ⟨rfl, w, p, hwp, hbig⟩ | ⟨rfl, hsym, hover⟩
    · cases hwp
      rw [if_pos hbig]
    · rw [if_neg (Nat.not_lt.mpr (hsym _ _ rfl)), if_pos (show cap < len + 17 from hover)]
  · have hc : visitEntry nd c = none := if_neg hk
    rw [hc] at h
    rw [if_neg hk]
    rcases h with ⟨-, w, p, hwp, -⟩ | ⟨rfl, -, hover⟩
    · cases hwp
    · rw [if_pos (show cap < len + 1 from hover)]

/-- R170: over a tree whose nodes are good up to a bad one, the loop ends there. -/
theorem State.HasTree.serLoop_badNode {s : State} {c cap : Nat} {t : HTree} {ixs : List Nat} (h : s.HasTree c t ixs)
    {pre post : List (Option (Word × List Bool))} {x : Option (Word × List Bool)} {e : ErrCode}
    (hsplit : t.preorder = pre ++ x :: post) (hgood : ∀ y ∈ pre.filterMap id, y.1.toNat ≤ 0xFFFF)
    (hfit : streamBits pre ≤ cap) (hbad : BadNode cap (streamBits pre) x e) :
    serLoop s.nodeAt cap 0 0 (treeVisits s.nodeAt t c []) = .error ⟨e, pre.length⟩ ∧ pre.length ≤ 131070 := by
  obtain ⟨vs, v, rest, hvisits, hpre, rfl, hlen, hle⟩ := h.visits_split hsplit
  rw [hvisits, serLoop_good (v :: rest) 0 0 (by rwa [leafEntries_eq hpre]) (by rwa [hpre, Nat.zero_add]), hpre, hlen,
    Nat.zero_add, Nat.zero_add, Machine.serLoop_badNode _ _ hbad]
  exact ⟨rfl, hle⟩

/-- Settles O43: the loop passes the good nodes and fails at the bad one, at an index that ERR_POS holds. -/
theorem treeSerReportsTheFirstBadNode : Obligations.TreeSerReportsTheFirstBadNode := by
  intro s t ixs pre post x e hranges hv htree hsplit hgood hfit hbad
  obtain ⟨hloop, hle⟩ := htree.serLoop_badNode hsplit hgood hfit hbad
  have hrun := exec_treeSer hranges hv htree
  rw [State.serRule, hloop] at hrun
  exact ⟨_, hrun, failedInto_failInto (hle.trans_lt (by decide))⟩

/-! ### TREE_DESER's success (R176) -/

/-- R176: a node of the stored tree has 0 in the fields its kind does not use. -/
theorem nodeAt_putTree_unused {u : State} {t : HTree} {m : Ram Node} (hu : u.node = putTree m 0 t) {i : Nat}
    (hi : i < t.size) :
    ((u.nodeAt i).kind = true → (u.nodeAt i).left = 0 ∧ (u.nodeAt i).right = 0) ∧
      ((u.nodeAt i).kind = false → (u.nodeAt i).sym = 0) := by
  obtain ⟨x, hx, hleaf, hnode, -⟩ := get?_putTree_inside t m 0 i (Nat.zero_le _) (by omega)
  have hat : u.nodeAt i = x := by rw [State.nodeAt, hu, hx]; rfl
  rw [hat]
  exact ⟨hleaf, hnode⟩

/-- R176: the entries above the stored tree are unchanged. -/
theorem nodeAt_putTree_above {s u : State} {t : HTree} (hu : u.node = putTree s.node 0 t) (he : u.epoch = s.epoch)
    {i : Nat} (hi : t.size ≤ i) : u.nodeAt i = s.nodeAt i := by
  rw [State.nodeAt, hu, get?_putTree_outside t s.node 0 i (.inr (by omega))]
  simp only [State.nodeAt, State.unlistedNode, he]

/-- Settles O44: the rule stores the tree from entry 0 of NODE on, and T, which OUT_LEN receives, is SRC_LEN itself. -/
theorem treeDeserRebuildsTheTree : Obligations.TreeDeserRebuildsTheTree := by
  intro s t hranges hf hsize hbits
  have hrun := exec_treeDeser hranges
  rw [deserRule_stream hsize hbits] at hrun
  refine ⟨_, hrun, hasTree_putTree hf hsize rfl, fun i hi => ?_, fun i hi => ?_, ?_⟩
  · exact nodeAt_putTree_unused rfl hi
  · exact nodeAt_putTree_above (by rfl) (by rfl) hi
  · rw [State.succeed, BitVec.ofNat_toNat, BitVec.setWidth_eq]
    rfl

end Sys2Proof.Machine
end

section
/-! PROOF. O54: a command ends alike from two states with the same operands and the same BUF, NODE and CODE
(spec/40_command_protocol.md R105, R106). -/

namespace Sys2Proof.Machine

variable {s₁ s₂ t₁ t₂ : State} {i : Instr}

/-! ### What a command reads -/

namespace SameInputs

theorem operands_eq (h : SameInputs s₁ s₂) : s₁.operands = s₂.operands := h.1

theorem bufByte_eq (h : SameInputs s₁ s₂) : s₁.bufByte = s₂.bufByte := by
  obtain ⟨-, -, hbuf, -, -⟩ := h
  exact funext hbuf

theorem nodeAt_eq (h : SameInputs s₁ s₂) : s₁.nodeAt = s₂.nodeAt := by
  obtain ⟨-, -, -, hnode, -⟩ := h
  exact funext hnode

theorem code_eq (h : SameInputs s₁ s₂) : s₁.code = s₂.code := by
  obtain ⟨-, -, -, -, hcode⟩ := h
  exact hcode

theorem codeAt_eq (h : SameInputs s₁ s₂) : s₁.codeAt = s₂.codeAt := by
  funext k
  rw [State.codeAt, State.codeAt, h.code_eq]

theorem staticError_eq (h : SameInputs s₁ s₂) (i : Instr) : s₁.staticError i = s₂.staticError i := by
  obtain ⟨hops, hparams, -⟩ := h
  simp only [State.staticError, hops, hparams]

theorem walkFrom_eq (h : SameInputs s₁ s₂) (c : Nat) : s₁.walkFrom c = s₂.walkFrom c := by
  rw [State.walkFrom, State.walkFrom, h.nodeAt_eq]

theorem readWords_eq (h : SameInputs s₁ s₂) (a n : Nat) : s₁.readWords a n = s₂.readWords a n := by
  simp only [State.readWords, State.readWord, State.memRead, h.bufByte_eq]

theorem readBits_eq (h : SameInputs s₁ s₂) (a n : Nat) : s₁.readBits a n = s₂.readBits a n := by
  simp only [State.readBits, State.bitRead, h.bufByte_eq]

theorem decodeSymbols_eq (h : SameInputs s₁ s₂) (o : Operands) : s₁.decodeSymbols o = s₂.decodeSymbols o := by
  simp only [State.decodeSymbols, h.nodeAt_eq, h.readBits_eq]

end SameInputs

/-! ### What two completions have in common -/

/-- R106: two completions of command `i` with operands `o` are alike, the values the spec names `any` apart. -/
structure SameOutcome (i : Instr) (o : Operands) (t₁ t₂ : State) : Prop where
  errcode : t₁.errcode = t₂.errcode
  errPos : t₁.errPos = t₂.errPos
  outLen : t₁.outLen = t₂.outLen
  code : t₁.code = t₂.code
  tree : t₁.errcode = .ok → i = .treeCommit ∨ i = .treeDeser →
    t₁.nodeCount = t₂.nodeCount ∧ t₁.leafCount = t₂.leafCount ∧ t₁.treeValid = t₂.treeValid
  root : t₁.errcode = .ok → i = .treeDeser → t₁.root = t₂.root
  window : t₁.errcode = .ok → i = .nodeRead → t₁.nodeKind = t₂.nodeKind ∧ t₁.nodeSym = t₂.nodeSym ∧
    t₁.nodeLeft = t₂.nodeLeft ∧ t₁.nodeRight = t₂.nodeRight
  codeWindow : t₁.errcode = .ok → i = .ctRead → t₁.ctLen = t₂.ctLen ∧ t₁.ctBits = t₂.ctBits
  buf : ∀ k, t₁.errcode = .ok ∨ k < o.dstAddr.toNat ∨ o.dstAddr.toNat + o.dstCap.toNat ≤ k →
    t₁.bufByte k = t₂.bufByte k
  node : ∀ k, t₁.errcode = .ok ∨ i ≠ .treeDeser → t₁.nodeAt k = t₂.nodeAt k

namespace SameOutcome

variable {u₁ u₂ : State} {o : Operands}

/-- Two failures with the same error, after writes that agree where the spec names no `any`. -/
theorem of_fail {e : ErrCode} {p : Nat} (he : e ≠ .ok) (hcode : u₁.code = u₂.code)
    (hbuf : ∀ k, k < o.dstAddr.toNat ∨ o.dstAddr.toNat + o.dstCap.toNat ≤ k → u₁.bufByte k = u₂.bufByte k)
    (hnode : i ≠ .treeDeser → ∀ k, u₁.nodeAt k = u₂.nodeAt k) : SameOutcome i o (u₁.fail e p) (u₂.fail e p) where
  errcode := rfl
  errPos := rfl
  outLen := rfl
  code := hcode
  tree hok := absurd hok he
  root hok := absurd hok he
  window hok := absurd hok he
  codeWindow hok := absurd hok he
  buf k hk := hbuf k (hk.resolve_left he)
  node k hk := hnode (hk.resolve_left he) k

/-- Two successes with the same result, after writes that agree; each command names the result registers it writes. -/
theorem of_succeed {r : Nat} (hcode : u₁.code = u₂.code) (hbuf : ∀ k, u₁.bufByte k = u₂.bufByte k)
    (hnode : ∀ k, u₁.nodeAt k = u₂.nodeAt k)
    (htree : i = .treeCommit ∨ i = .treeDeser → u₁.nodeCount = u₂.nodeCount ∧ u₁.leafCount = u₂.leafCount ∧
      u₁.treeValid = u₂.treeValid := by simp)
    (hroot : i = .treeDeser → u₁.root = u₂.root := by simp)
    (hwindow : i = .nodeRead → u₁.nodeKind = u₂.nodeKind ∧ u₁.nodeSym = u₂.nodeSym ∧ u₁.nodeLeft = u₂.nodeLeft ∧
      u₁.nodeRight = u₂.nodeRight := by simp)
    (hcodeWindow : i = .ctRead → u₁.ctLen = u₂.ctLen ∧ u₁.ctBits = u₂.ctBits := by simp) :
    SameOutcome i o (u₁.succeed r) (u₂.succeed r) where
  errcode := rfl
  errPos := rfl
  outLen := rfl
  code := hcode
  tree _ := htree
  root _ := hroot
  window _ := hwindow
  codeWindow _ := hcodeWindow
  buf k _ := hbuf k
  node k _ := hnode k

end SameOutcome

/-! ### Each command's rule -/

namespace SameInputs

/-- Two failures that have written nothing. -/
theorem fail (h : SameInputs s₁ s₂) {e : ErrCode} (he : e ≠ .ok) (o : Operands) (p : Nat) :
    SameOutcome i o (s₁.fail e p) (s₂.fail e p) :=
  .of_fail he h.code_eq (fun k _ => congrFun h.bufByte_eq k) fun _ k => congrFun h.nodeAt_eq k

/-- Two failures that leave `any` in the destination region. -/
theorem failInto (h : SameInputs s₁ s₂) {e : CmdError} (he : e.code ≠ .ok) (o : Operands) :
    SameOutcome i o (s₁.failInto o.dstAddr.toNat o.dstCap.toNat e) (s₂.failInto o.dstAddr.toNat o.dstCap.toNat e) := by
  refine .of_fail he h.code_eq (fun k hk => ?_) fun _ k => congrFun h.nodeAt_eq k
  rw [bufByte_anyRegion_outside _ _ _ _ hk, bufByte_anyRegion_outside _ _ _ _ hk, h.bufByte_eq]

/-- Two successes that store the same bits. -/
theorem bitStore (h : SameInputs s₁ s₂) (o : Operands) (a : Nat) (p : List Bool) (hi : i = .encode ∨ i = .treeSer) :
    SameOutcome i o ((s₁.bitStore a p).succeed p.length) ((s₂.bitStore a p).succeed p.length) := by
  have hbuf (k : Nat) : (s₁.bitStore a p).bufByte k = (s₂.bitStore a p).bufByte k := by
    rw [bufByte_bitStore, bufByte_bitStore, h.bufByte_eq]
  have hnode (k : Nat) : (s₁.bitStore a p).nodeAt k = (s₂.bitStore a p).nodeAt k := congrFun h.nodeAt_eq k
  rcases hi with rfl | rfl
  · exact .of_succeed h.code_eq hbuf hnode
  · exact .of_succeed h.code_eq hbuf hnode

theorem putNode (h : SameInputs s₁ s₂) (o : Operands) (a : Nat) (n : Node) :
    SameOutcome .nodeWrite o ((s₁.putNode a n).succeed 0) ((s₂.putNode a n).succeed 0) :=
  .of_succeed h.code_eq (fun k => congrFun h.bufByte_eq k) fun k => by
    rw [State.putNode_nodeAt, State.putNode_nodeAt, h.nodeAt_eq]

theorem loadWindow (h : SameInputs s₁ s₂) (o : Operands) (n : Node) :
    SameOutcome .nodeRead o ((s₁.loadWindow n).succeed 0) ((s₂.loadWindow n).succeed 0) :=
  .of_succeed h.code_eq (fun k => congrFun h.bufByte_eq k) (fun k => congrFun h.nodeAt_eq k)
    (hwindow := fun _ => ⟨rfl, rfl, rfl, rfl⟩)

theorem commit (h : SameInputs s₁ s₂) (o : Operands) (walked : Except Nat (List Visit)) :
    SameOutcome .treeCommit o (s₁.commit walked) (s₂.commit walked) := by
  cases walked with
  | error v => exact h.fail (e := .corruptTree) nofun o v
  | ok vs =>
    have hcount : s₁.countLeaves vs = s₂.countLeaves vs := by rw [State.countLeaves, State.countLeaves, h.nodeAt_eq]
    exact .of_succeed h.code_eq (fun k => congrFun h.bufByte_eq k) (fun k => congrFun h.nodeAt_eq k)
      (htree := fun _ => ⟨rfl, congrArg (BitVec.ofNat 32) hcount, rfl⟩)

/-- Two successes of a command that writes CODE. -/
theorem codeWritten (h : SameInputs s₁ s₂) (o : Operands) (r : Nat) {c₁ c₂ : Ram Code} (hc : c₁ = c₂)
    (hi : i = .ctClear ∨ i = .ctWrite ∨ i = .ctGen) :
    SameOutcome i o (State.succeed { s₁ with code := c₁ } r) (State.succeed { s₂ with code := c₂ } r) := by
  have hbuf (k : Nat) : State.bufByte { s₁ with code := c₁ } k = State.bufByte { s₂ with code := c₂ } k :=
    congrFun h.bufByte_eq k
  have hnode (k : Nat) : State.nodeAt { s₁ with code := c₁ } k = State.nodeAt { s₂ with code := c₂ } k :=
    congrFun h.nodeAt_eq k
  rcases hi with rfl | rfl | rfl <;> exact .of_succeed hc hbuf hnode

theorem ctWriteRule (h : SameInputs s₁ s₂) (o : Operands) (sym len bits : Nat) :
    SameOutcome .ctWrite o (s₁.ctWriteRule sym len bits) (s₂.ctWriteRule sym len bits) := by
  rw [State.ctWriteRule, State.ctWriteRule]
  split
  · exact h.fail (e := .unsupportedSymbol) nofun o 0
  · split
    · exact h.fail (e := .capacityExceeded) nofun o 0
    · split
      · exact h.codeWritten o 0 (congrArg (Ram.erase · sym) h.code_eq) (.inr (.inl rfl))
      · exact h.codeWritten o 0 (congrArg (Ram.put · sym (natBits len bits)) h.code_eq) (.inr (.inl rfl))

theorem ctReadRule (h : SameInputs s₁ s₂) (o : Operands) (sym : Nat) :
    SameOutcome .ctRead o (s₁.ctReadRule sym) (s₂.ctReadRule sym) := by
  rw [State.ctReadRule, State.ctReadRule, h.codeAt_eq]
  split
  · exact h.fail (e := .unsupportedSymbol) nofun o 0
  · exact .of_succeed h.code_eq (fun k => congrFun h.bufByte_eq k) (fun k => congrFun h.nodeAt_eq k)
      (hcodeWindow := fun _ => ⟨rfl, rfl⟩)

theorem genRule (h : SameInputs s₁ s₂) (o : Operands) (vs : List Visit) :
    SameOutcome .ctGen o (s₁.genRule vs) (s₂.genRule vs) := by
  rw [State.genRule, State.genRule, h.nodeAt_eq]
  cases hloop : genLoop s₂.nodeAt 0 0 [] vs with
  | ok x => exact h.codeWritten o x.2 rfl (.inr (.inr rfl))
  | error e =>
    refine .of_fail ?_ rfl (fun k _ => congrFun h.bufByte_eq k) fun _ k => congrFun h.nodeAt_eq k
    rcases genLoop_error hloop with he | he | he <;> rw [he] <;> exact nofun

theorem encodeRule (h : SameInputs s₁ s₂) (o : Operands) :
    SameOutcome .encode o (s₁.encodeRule o) (s₂.encodeRule o) := by
  rw [State.encodeRule, State.encodeRule, h.codeAt_eq, h.readWords_eq]
  cases hloop : encodeLoop s₂.codeAt (8 * o.dstCap.toNat) 0 0 (s₂.readWords o.srcAddr.toNat o.srcLen.toNat) with
  | ok out => exact h.bitStore o _ out (.inl rfl)
  | error e =>
    refine h.failInto ?_ o
    rcases encodeLoop_error hloop with he | he | he <;> rw [he] <;> exact nofun

theorem serRule (h : SameInputs s₁ s₂) (o : Operands) (vs : List Visit) :
    SameOutcome .treeSer o (s₁.serRule o vs) (s₂.serRule o vs) := by
  rw [State.serRule, State.serRule, h.nodeAt_eq]
  cases hloop : serLoop s₂.nodeAt (8 * o.dstCap.toNat) 0 0 vs with
  | ok out => exact h.bitStore o _ out (.inr rfl)
  | error e =>
    refine h.failInto ?_ o
    rcases serLoop_error hloop with he | he <;> rw [he] <;> exact nofun

/-- Words written over the same bytes leave the same bytes. -/
theorem bufByte_writeWords (ws : List Word) (a : Nat) (hbuf : ∀ k, s₁.bufByte k = s₂.bufByte k) (k : Nat) :
    (s₁.writeWords a ws).bufByte k = (s₂.writeWords a ws).bufByte k := by
  induction ws generalizing s₁ s₂ a with
  | nil => exact hbuf k
  | cons w ws ih => exact ih (a + 4) fun j => by rw [bufByte_writeWord, bufByte_writeWord, hbuf]

theorem decodeRule (h : SameInputs s₁ s₂) (o : Operands) :
    SameOutcome .decode o (s₁.decodeRule o) (s₂.decodeRule o) := by
  rw [State.decodeRule, State.decodeRule, h.decodeSymbols_eq]
  cases hloop : s₂.decodeSymbols o with
  | ok out =>
    have hbuf := bufByte_writeWords out o.dstAddr.toNat (congrFun h.bufByte_eq)
    dsimp only
    rw [writeWords_eq out s₁, writeWords_eq out s₂] at hbuf ⊢
    exact .of_succeed h.code_eq hbuf fun k => congrFun h.nodeAt_eq k
  | error e =>
    refine h.failInto ?_ o
    rcases decodeSymbols_error hloop with he | he <;> rw [he] <;> exact nofun

/-- R176: the same tree stored in the same NODE leaves the same NODE. -/
theorem nodeAt_putTree {u₁ u₂ : State} (h : SameInputs s₁ s₂) {t : HTree} (h₁ : u₁.node = putTree s₁.node 0 t)
    (h₂ : u₂.node = putTree s₂.node 0 t) (he₁ : u₁.epoch = s₁.epoch) (he₂ : u₂.epoch = s₂.epoch) (k : Nat) :
    u₁.nodeAt k = u₂.nodeAt k := by
  by_cases hk : k < t.size
  · obtain ⟨x, hx, -, -, hall⟩ := get?_putTree_inside t s₁.node 0 k (Nat.zero_le _) (by omega)
    rw [State.nodeAt, State.nodeAt, h₁, h₂, hx, hall]
    rfl
  · rw [nodeAt_putTree_above h₁ he₁ (Nat.not_lt.mp hk), nodeAt_putTree_above h₂ he₂ (Nat.not_lt.mp hk), h.nodeAt_eq]

theorem deserRule (h : SameInputs s₁ s₂) (o : Operands) :
    SameOutcome .treeDeser o (s₁.deserRule o) (s₂.deserRule o) := by
  rw [State.deserRule, State.deserRule, h.readBits_eq]
  rcases parseTree_congr (s₂.readBits o.srcAddr.toNat o.srcLen.toNat) s₁.node s₂.node with
    ⟨e, hp₁, hp₂⟩ | ⟨t, hp₁, hp₂⟩ <;> simp only [hp₁, hp₂]
  · refine .of_fail ?_ h.code_eq (fun k _ => congrFun h.bufByte_eq k) fun hne => absurd rfl hne
    rcases parseTree_error hp₁ with he | he <;> rw [he] <;> exact nofun
  · exact .of_succeed h.code_eq (fun k => congrFun h.bufByte_eq k) (h.nodeAt_putTree rfl rfl rfl rfl)
      (htree := fun _ => ⟨rfl, rfl, rfl⟩) (hroot := fun _ => rfl)

/-- R106: the rule of each command, from two states it cannot tell apart. -/
theorem ruleEnds_sameOutcome (h : SameInputs s₁ s₂) (h₁ : RuleEnds s₁ t₁ i) (h₂ : RuleEnds s₂ t₂ i) :
    SameOutcome i s₁.operands t₁ t₂ := by
  have hbuf (k : Nat) : s₁.bufByte k = s₂.bufByte k := congrFun h.bufByte_eq k
  have hnode (k : Nat) : s₁.nodeAt k = s₂.nodeAt k := congrFun h.nodeAt_eq k
  cases i <;> simp only [RuleEnds, ← h.operands_eq, ← h.walkFrom_eq] at h₁ h₂
  case nop => rw [h₁, h₂]; exact .of_succeed h.code_eq hbuf hnode
  case nodeWrite => rw [h₁, h₂]; exact h.putNode _ _ _
  case nodeRead => rw [h₁, h₂, hnode]; exact h.loadWindow _ _
  case treeCommit => rw [h₁, h₂]; exact h.commit _ _
  case ctClear => rw [h₁, h₂]; exact h.codeWritten _ 0 rfl (.inl rfl)
  case ctWrite => rw [h₁, h₂]; exact h.ctWriteRule _ _ _ _
  case ctRead => rw [h₁, h₂]; exact h.ctReadRule _ _
  case encode => rw [h₁, h₂]; exact h.encodeRule _
  case decode => rw [h₁, h₂]; exact h.decodeRule _
  case treeDeser => rw [h₁, h₂]; exact h.deserRule _
  case ctGen =>
    obtain ⟨vs, hvs, rfl⟩ := h₁
    obtain ⟨vs', hvs', rfl⟩ := h₂
    obtain rfl : vs = vs' := Except.ok.inj (hvs.symm.trans hvs')
    exact h.genRule _ _
  case treeSer =>
    obtain ⟨vs, hvs, rfl⟩ := h₁
    obtain ⟨vs', hvs', rfl⟩ := h₂
    obtain rfl : vs = vs' := Except.ok.inj (hvs.symm.trans hvs')
    exact h.serRule _ _

/-- R103, R106: the static checks too end alike. -/
theorem exec_sameOutcome (h : SameInputs s₁ s₂) (h₁ : exec i s₁ = .next t₁) (h₂ : exec i s₂ = .next t₂) :
    SameOutcome i s₁.operands t₁ t₂ := by
  have hstatic := h.staticError_eq i
  rcases exec_next h₁ with ⟨e, he, rfl⟩ | ⟨hnone, hends₁⟩
  · rcases exec_next h₂ with ⟨e', he', rfl⟩ | ⟨hnone', -⟩
    · obtain rfl : e = e' := Option.some.inj (he.symm.trans (hstatic.trans he'))
      exact h.fail (by rcases Machine.staticError_eq he with rfl | rfl <;> exact nofun) _ 0
    · cases he.symm.trans (hstatic.trans hnone')
  · rcases exec_next h₂ with ⟨e', he', rfl⟩ | ⟨-, hends₂⟩
    · cases hnone.symm.trans (hstatic.trans he')
    · exact h.ruleEnds_sameOutcome hends₁ hends₂

end SameInputs

/-- Settles O54: each command reads its operands, BUF, NODE and CODE only, and what it writes is a function of them
where the spec names no `any`. -/
theorem outcomeDependsOnLatchedStateOnly : Obligations.OutcomeDependsOnLatchedStateOnly := by
  intro i s₁ s₂ t₁ t₂ h h₁ h₂
  have hsame := h.exec_sameOutcome h₁ h₂
  exact ⟨hsame.errcode, hsame.errPos, hsame.outLen, hsame.code, hsame.tree, hsame.root, hsame.window, hsame.codeWindow,
    hsame.buf, hsame.node⟩

end Sys2Proof.Machine
end
